-- ==== Sys2Proof/Word.lean ====
section
/-! DEFINITION. The word types of the block and its two channels (R4, R8, R60, R61, R82). -/

namespace Sys2Proof

/-- One value of type `F` as it stands in a register, in a ring buffer or on a port: a binary32 pattern (R6, R86).
`BLK` and `blockSize`, 32-bit unsigned numbers, have the same width (R29, R83). -/
abbrev Word := BitVec 32

/-- A byte of the serialised form (R61). -/
abbrev Byte := BitVec 8

/-- The write head and the buffer length: `IDX_W = 25` bits, unsigned (R8). -/
abbrev Index := BitVec 25

/-- The operation word `cmd_op ‖ p_type` (R82). -/
abbrev Opword := BitVec 4

/-- The two lanes of the block (R4, R106): left is channel 0, right is channel 1. -/
inductive Channel where
  | left
  | right
  deriving DecidableEq, Repr

end Sys2Proof
end

