-- ==== Sys2Proof/Config.lean ====
section
/-! DEFINITION. What an implementation fixes and what the spec leaves open (R6, R8, R9, R43).
An `opaque` constant here has no body: a claim about it holds whatever its value is. -/

namespace Sys2Proof

/-- The numeric format `NUM` of R6 as a record: the type `F` of its values, the operations R6 lists, the tests of R127
and R191, the sine `SIN2PI` of R9 and R163, and the constants of R4. The machine uses the binary32 record
(Machine/Binary32.lean); the reals give the spec's "ideal arithmetic" (Safety.lean). -/
structure Num (F : Type) where
  /-- One rounded addition (R13). -/
  fadd : F → F → F
  /-- One rounded subtraction (R13). -/
  fsub : F → F → F
  /-- One rounded multiplication (R13). -/
  fmul : F → F → F
  /-- One rounded division (R13). -/
  fdiv : F → F → F
  /-- `a < b`, false when an operand is NaN (R13). -/
  lt : F → F → Bool
  /-- `a ≤ b`, false when an operand is NaN (R13). -/
  le : F → F → Bool
  /-- The value is NaN (R127, R191). -/
  isNaN : F → Bool
  /-- The value is an infinity (R127, R191). -/
  isInf : F → Bool
  /-- The greatest integer not above a finite value (R13). -/
  floor : F → Int
  /-- The value of a natural number (R13). -/
  itof : Nat → F
  /-- The sine of `2π` times the argument (R163). -/
  sin2pi : F → F
  /-- `0`, the zero fill (R70) and the bound of the wrap test (R126). -/
  zero : F
  /-- `1.0`. -/
  one : F
  /-- `2.0`. -/
  two : F
  /-- `RATE_DIV = 10` (R4). -/
  ten : F
  /-- `K_SMOOTH = 0.0001` (R4). -/
  kSmooth : F
  /-- The chorus range in seconds, lower end: `0.001` (R4). -/
  chorusLo : F
  /-- The chorus range in seconds, upper end: `0.005` (R4). -/
  chorusHi : F
  /-- The flanger range in seconds, lower end: `0.005` (R4). -/
  flangerLo : F
  /-- The flanger range in seconds, upper end: `0.03` (R4). -/
  flangerHi : F

/-- `DENORMAL_MODE` of R186: gradual underflow, or subnormal operands and results read as zeros of the same sign. -/
inductive DenormalMode where
  | ieee
  | flush
  deriving DecidableEq, Repr, Inhabited

/-- The operations whose result can be NaN; a name for the free choice of a NaN's pattern (log 1). -/
inductive NanSource where
  | add
  | sub
  | mul
  | div
  | sine
  deriving DecidableEq, Repr

/-- `LEN_MAX = 2^24` words per channel (R8). -/
def Config.lenMax : Nat := 2 ^ 24

/-- `DENORMAL_MODE`, open (R9, R186; D2). -/
opaque Config.denormalMode : DenormalMode

/-- The sign bit and the fraction field of a NaN result. The spec says that a result is NaN and not which pattern
(R124): a free value for each operation and pair of operands (log 1, DESIGN CHOICE). -/
opaque Config.nanBits : NanSource → Word → Word → BitVec 24

/-- The sign of `SIN2PI` at a finite argument other than `+0`, open (R163; D3; log 2). -/
opaque Config.sineSign : Word → Bool

/-- The magnitude of `SIN2PI` at a finite argument other than `+0`, as the low 31 bits of a binary32 pattern: any one
from `0` to that of `1.0`, which is law (a) of R163 (D3; log 2). -/
opaque Config.sineMagnitude : Word → Fin (0x3F800000 + 1)

/-- What an output port carries where the spec leaves it unspecified (R216, R219): a free value for each occurrence and
channel (log 7, log 8). -/
opaque Config.unspecifiedOutput : Nat → Channel → Word

/-- `TICK_LATENCY`, open and finite (R9, R262; D27); nothing reads it (log 15). -/
opaque Config.tickLatency : Nat

/-- `CFG_LATENCY`, open and finite (R9, R262; D27); nothing reads it (log 15). -/
opaque Config.cfgLatency : Nat

end Sys2Proof
end

