-- ==== Sys2Proof/Machine/Binary32.lean ====
section
/-! DEFINITION. `NUM` as IEEE 754 binary32, round to nearest, ties to even (R6, R7, R11, R13), with `DENORMAL_MODE`
(R186) and `SIN2PI` (R163).

A finite pattern is a whole multiple of `2^-149`. An operation computes the exact result as a ratio of two natural
numbers in that unit and rounds it once. -/

namespace Sys2Proof.Machine

/-- Bit 31 (R11). -/
def f32Sign (x : Word) : Bool := decide (2 ^ 31 ≤ x.toNat)

/-- Bits 30:0, the exponent and fraction fields read as one number (R11). -/
def f32Bits (x : Word) : Nat := x.toNat % 2 ^ 31

/-- Bits 30:0 of an infinity. -/
def infBits : Nat := 0x7F800000

/-- A pattern from its sign and its bits 30:0. -/
def f32Pack (sign : Bool) (bits : Nat) : Word := BitVec.ofNat 32 (if sign then 2 ^ 31 + bits else bits)

/-- NaN: exponent field all ones, fraction not 0. -/
def f32IsNaN (x : Word) : Bool := decide (infBits < f32Bits x)

/-- An infinity of either sign. -/
def f32IsInf (x : Word) : Bool := f32Bits x == infBits

/-- Finite: neither NaN nor an infinity. -/
def f32IsFinite (x : Word) : Bool := decide (f32Bits x < infBits)

/-- Subnormal: exponent field 0, fraction not 0. -/
def f32IsSubnormal (x : Word) : Bool := decide (0 < f32Bits x) && decide (f32Bits x < 2 ^ 23)

/-- A zero of either sign. -/
def f32IsZero (x : Word) : Bool := f32Bits x == 0

/-- The magnitude of bits 30:0 in units of `2^-149`. An infinity gets `2^277`, above every finite one, so that
magnitudes order the patterns. -/
def magOfBits (b : Nat) : Nat := if b < 2 ^ 23 then b else (2 ^ 23 + b % 2 ^ 23) * 2 ^ (b / 2 ^ 23 - 1)

/-- The magnitude of a pattern in units of `2^-149`. -/
def f32Mag (x : Word) : Nat := magOfBits (f32Bits x)

/-- The value of a pattern in units of `2^-149`. -/
def f32Int (x : Word) : Int := if f32Sign x then -(f32Mag x : Int) else (f32Mag x : Int)

/-- `n / d` rounded to the nearest natural number, a tie to the even one. -/
def roundEven (n d : Nat) : Nat :=
  if d < 2 * (n % d) ∨ (2 * (n % d) = d ∧ n / d % 2 = 1) then n / d + 1 else n / d

/-- The exponent of the last place kept of `n / d`: a binary32 significand has 24 bits. -/
def roundShift (n d : Nat) : Nat := (n / d).log2 - 23

/-- Bits 30:0 of `n / d` (in units of `2^-149`) rounded to nearest, ties to even, an infinity on overflow. -/
def roundBits (n d : Nat) : Nat :=
  min (2 ^ 23 * roundShift n d + roundEven n (d * 2 ^ roundShift n d)) infBits

/-- In mode `flush` a subnormal operand or result counts as a zero of its sign (R186); else it stays. -/
def flushSubnormal (x : Word) : Word :=
  if f32IsSubnormal x && Config.denormalMode == .flush then f32Pack (f32Sign x) 0 else x

/-- The rounded result of the exact value `± n / d` in units of `2^-149`. -/
def f32Round (sign : Bool) (n d : Nat) : Word := flushSubnormal (f32Pack sign (roundBits n d))

/-- A NaN result: any NaN pattern, free in the operation and its operands (log 1). -/
def f32NaN (op : NanSource) (a b : Word) : Word :=
  f32Pack (Config.nanBits op a b).msb (infBits + 1 + (Config.nanBits op a b).toNat % (2 ^ 23 - 1))

/-- The pattern with the other sign. -/
def f32Neg (x : Word) : Word := f32Pack (!f32Sign x) (f32Bits x)

/-- The sum of `x` and `y`, for the operation `op` on the operands `a` and `b`. An exact zero sum is `-0` only for two
operands of negative sign. -/
def f32Sum (op : NanSource) (a b x y : Word) : Word :=
  if f32IsNaN x || f32IsNaN y || (f32IsInf x && f32IsInf y && f32Sign x != f32Sign y) then f32NaN op a b
  else if f32IsInf x then x
  else if f32IsInf y then y
  else if f32Int x + f32Int y = 0 then f32Pack (f32Sign x && f32Sign y) 0
  else f32Round (decide (f32Int x + f32Int y < 0)) (f32Int x + f32Int y).natAbs 1

/-- `a + b` (R13). -/
def f32Add (a b : Word) : Word := f32Sum .add a b (flushSubnormal a) (flushSubnormal b)

/-- `a − b` (R13). -/
def f32Sub (a b : Word) : Word := f32Sum .sub a b (flushSubnormal a) (f32Neg (flushSubnormal b))

/-- The product of `x` and `y`, for the operands `a` and `b`. -/
def f32Product (a b x y : Word) : Word :=
  if f32IsNaN x || f32IsNaN y || (f32IsInf x && f32IsZero y) || (f32IsZero x && f32IsInf y) then f32NaN .mul a b
  else if f32IsInf x || f32IsInf y then f32Pack (f32Sign x != f32Sign y) infBits
  else f32Round (f32Sign x != f32Sign y) (f32Mag x * f32Mag y) (2 ^ 149)

/-- `a × b` (R13). -/
def f32Mul (a b : Word) : Word := f32Product a b (flushSubnormal a) (flushSubnormal b)

/-- The quotient of `x` and `y`, for the operands `a` and `b`. -/
def f32Quotient (a b x y : Word) : Word :=
  if f32IsNaN x || f32IsNaN y || (f32IsInf x && f32IsInf y) || (f32IsZero x && f32IsZero y) then f32NaN .div a b
  else if f32IsInf x || f32IsZero y then f32Pack (f32Sign x != f32Sign y) infBits
  else if f32IsInf y then f32Pack (f32Sign x != f32Sign y) 0
  else f32Round (f32Sign x != f32Sign y) (f32Mag x * 2 ^ 149) (f32Mag y)

/-- `a / b` (R13). -/
def f32Div (a b : Word) : Word := f32Quotient a b (flushSubnormal a) (flushSubnormal b)

/-- `a < b` (R13). -/
def f32Lt (a b : Word) : Bool :=
  !f32IsNaN a && !f32IsNaN b && decide (f32Int (flushSubnormal a) < f32Int (flushSubnormal b))

/-- `a ≤ b` (R13). -/
def f32Le (a b : Word) : Bool :=
  !f32IsNaN a && !f32IsNaN b && decide (f32Int (flushSubnormal a) ≤ f32Int (flushSubnormal b))

/-- The greatest integer not above a finite value (R13). -/
def f32Floor (a : Word) : Int := f32Int (flushSubnormal a) / 2 ^ 149

/-- The value of a natural number (R13); exact up to `2^24` (R129). -/
def f32OfNat (n : Nat) : Word := f32Round false (n * 2 ^ 149) 1

/-- `SIN2PI` (R163): NaN for a NaN or an infinity, `+0` at `+0`, else a free finite value of magnitude at most 1. Law (d),
the accuracy, is a premise of a claim (`SineAccurate` in Safety.lean; log 2). -/
def f32Sin2pi (x : Word) : Word :=
  if f32IsNaN x || f32IsInf x then f32NaN .sine x 0
  else if x = 0 then 0
  else f32Pack (Config.sineSign x) (Config.sineMagnitude x).val

/-- `NUM` of the machine: binary32 with the constants of R7 (D1). -/
def num : Num Word where
  fadd := f32Add
  fsub := f32Sub
  fmul := f32Mul
  fdiv := f32Div
  lt := f32Lt
  le := f32Le
  isNaN := f32IsNaN
  isInf := f32IsInf
  floor := f32Floor
  itof := f32OfNat
  sin2pi := f32Sin2pi
  zero := 0x00000000
  one := 0x3F800000
  two := 0x40000000
  ten := 0x41200000
  kSmooth := 0x38D1B717
  chorusLo := 0x3A83126F
  chorusHi := 0x3BA3D70A
  flangerLo := 0x3BA3D70A
  flangerHi := 0x3CF5C28F

end Sys2Proof.Machine
end

