-- ==== Sys2Proof/Syntax.lean ====
section
/-! DEFINITION. The commands of the block as data (R80, R82 to R87), and the source lines of R90 and R91. -/

namespace Sys2Proof

/-- The operands of format `T` as sampled at acceptance, in the order of R82 and R92 (R84). `P.type` is the row. -/
structure TickOperands where
  inL : Word
  inR : Word
  dryWet : Word
  feedback : Word
  depth : Word
  rate : Word
  phaseOffset : Word
  deriving DecidableEq, Repr

/-- One constructor per row of spec/opcode_table.json (R87). `typeBits` are the two bits of `p_type` that a row of the
form `00xx`, `01xx` or `11xx` ignores (R82, R88); they are kept so that a word is read back whole. -/
inductive Instr where
  /-- `NOP`, `00xx` (R85, R198). -/
  | nop (typeBits : BitVec 2)
  /-- `CFG`, `01xx`, with `cfg_sr`, `cfg_blk` and the sampled `P.rate` (R83, R190). -/
  | cfg (typeBits : BitVec 2) (sampleRate blockSize rate : Word)
  /-- `TICK.DELAY`, `1000` (R144). -/
  | tickDelay (o : TickOperands)
  /-- `TICK.CHORUS`, `1001` (R170). -/
  | tickChorus (o : TickOperands)
  /-- `TICK.FLANGER`, `1010` (R171). -/
  | tickFlanger (o : TickOperands)
  /-- The reserved type code 3 of `TICK`, `1011` (R88), a word of format `T` (R82). -/
  | reservedTickType3 (o : TickOperands)
  /-- The reserved command code 3, `11xx` (R88). -/
  | reservedCmdOp3 (typeBits : BitVec 2)
  deriving DecidableEq, Repr

/-- The five parameter registers of type `F` (R30 to R34, R37). -/
inductive FParam where
  | dryWet
  | feedback
  | depth
  | rate
  | phaseOffset
  deriving DecidableEq, Repr

/-- The effect types that have a name (R35): the states of the mode router (R105). -/
inductive EffectType where
  | delay
  | chorus
  | flanger
  deriving DecidableEq, Repr

/-- A line of the source syntax of R90 and R91. An `F` value is written as its pattern. -/
inductive Line where
  /-- `RESET`. -/
  | reset
  /-- `SETP` of an `F` parameter. -/
  | setp (p : FParam) (v : Word)
  /-- `SETP type, t`. -/
  | setType (t : Nat)
  /-- `CFG sampleRate, blockSize`. -/
  | cfg (sampleRate : Word) (blockSize : Nat)
  /-- `TICK inL, inR`, or with a full mnemonic that asserts the current type. -/
  | tick (asserted : Option EffectType) (inL inR : Word)
  /-- `NOP`. -/
  | nop
  /-- `PROCESS length, [inL …], [inR …]`. -/
  | process (length : Nat) (inL inR : List Word)
  deriving DecidableEq, Repr

end Sys2Proof
end

