-- ==== Sys2Proof/Machine/State.lean ====
section
/-! DEFINITION. The state of the block as plain data, its reset value, and the reasons a step can stop (R20, R26, R41). -/

namespace Sys2Proof.Machine

/-- A ring buffer (R60): the words that are not `+0.0`, each with its index, indices strictly rising. An index below
`LEN` that is not listed holds `+0.0` (R67, R70; log 11). -/
abbrev Memory := List (Nat × Word)

/-- The parameter registers `0x8` to `0xD`, owned and written by the store (R30 to R35, R37). -/
structure Params where
  dryWet : Word
  feedback : Word
  depth : Word
  rate : Word
  phaseOffset : Word
  type : BitVec 2
  deriving DecidableEq, Repr

/-- The command ports as the host presents them with `cmd_valid` (R81). The parameter ports are the parameter
registers. -/
structure CommandPorts where
  cmdOp : BitVec 2
  cfgSr : Word
  cfgBlk : Word
  inL : Word
  inR : Word
  deriving DecidableEq, Repr

/-- One action of the environment between or at commands (R81, R91, R240). -/
inductive HostEvent where
  /-- `rst` is asserted. -/
  | reset
  /-- `SETP` of an `F` parameter register. -/
  | setParam (p : FParam) (v : Word)
  /-- `SETP` of register `P.type`. -/
  | setType (t : BitVec 2)
  /-- A command is presented. -/
  | command (c : CommandPorts)
  deriving DecidableEq, Repr

/-- The state. INVENTORY.md lists each field with its rule and its reset value. -/
structure State where
  /-- `W`, the write head (R21). -/
  w : Index
  /-- `PH`, the LFO phase (R22). -/
  ph : Word
  /-- `SM`, the smoothed delay time in seconds (R23). -/
  sm : Word
  /-- `FB[0]`, the left feedback carry (R24). -/
  fbL : Word
  /-- `FB[1]`, the right feedback carry (R24). -/
  fbR : Word
  /-- `STATUS` (R26). -/
  status : BitVec 8
  /-- `SR`, the configured sample rate (R27). -/
  sr : Word
  /-- `LEN`, the buffer length in words (R28). -/
  len : Index
  /-- `BLK`, the block size, read by no rule (R29). -/
  blk : Word
  /-- `BUF[0]`, the left ring buffer (R39, R60). -/
  bufL : Memory
  /-- `BUF[1]`, the right ring buffer (R39, R60). -/
  bufR : Memory
  /-- The parameter registers (R30 to R35). -/
  params : Params
  /-- The port `out_l` (R81, R184). A value on it does not survive the next step (R43, log 7). -/
  outL : Word
  /-- The port `out_r` (R81, R184). A value on it does not survive the next step (R43, log 7). -/
  outR : Word
  /-- The port `done` (R81): the step accepted a command, and that command is over. -/
  done : Bool
  /-- The events the environment has yet to present, oldest first (log 9). -/
  inbox : List HostEvent
  /-- How many output pairs were left unspecified so far; picks the next free pair (log 8). -/
  freeIdx : Nat
  deriving DecidableEq, Repr

/-- Why a step stops with a fault. The spec's own faults are sticky status codes after which the block goes on (R216),
so they are next states and none of these. -/
inductive Fault where
  /-- Raised by a ring-buffer access at an index at or above `LEN`, where no word exists (R60, R62): the access has no
  meaning. Only a `TICK` in a state with `STATUS.CFG = 1` and `W ≥ LEN` raises it, which no run reaches (R42 (a)).
  Safe: the model stops. -/
  | noSuchWord (c : Channel) (index : Nat)
  deriving DecidableEq, Repr

/-- Why the model gives a step no meaning. -/
inductive Refusal where
  /-- An instruction of the opcode table without a meaning yet. No arm of `exec` answers it. Safe. -/
  | notModelled (mnemonic : String)
  /-- The words at the ports are no command. `step` would raise it; every operation word is in a row of the table
  (R87), so no step does. Safe: the model stops. -/
  | undecodable
  deriving DecidableEq, Repr

/-- The state right after `RESET` (R41, R240): `STATUS`, `PH`, `FB` as the spec gives them, no buffer word. `W`, `SM`,
`SR`, `LEN`, `BLK` are unspecified there and hold 0 (DESIGN CHOICE, log 5); the parameter registers (log 6), the
output ports (log 7), `done` (log 10) and `freeIdx` (log 8) hold named values too. -/
def State.reset : State where
  w := 0
  ph := 0
  sm := 0
  fbL := 0
  fbR := 0
  status := 0
  sr := 0
  len := 0
  blk := 0
  bufL := []
  bufR := []
  params := ⟨0, 0, 0, 0, 0, 0⟩
  outL := 0
  outR := 0
  done := false
  inbox := []
  freeIdx := 0

end Sys2Proof.Machine
end

