-- ==== Sys2Proof/Machine/Flags.lean ====
section
/-! DEFINITION. The fields of `STATUS` (R26), the modes that are functions of it (R225), and the fault codes (R210). No
command computes an arithmetic flag (R26). -/

namespace Sys2Proof.Machine

/-- `STATUS.CFG`, bit 0. -/
def statusCfg (st : BitVec 8) : Bool := st.getLsbD 0

/-- `STATUS.ERR`, bit 1. -/
def statusErr (st : BitVec 8) : Bool := st.getLsbD 1

/-- `STATUS.FLT`, bits 4:2. -/
def statusFlt (st : BitVec 8) : BitVec 3 := st.extractLsb' 2 3

/-- `STATUS.FCH`, bit 5. -/
def statusFch (st : BitVec 8) : Bool := st.getLsbD 5

/-- The reserved bits 7:6. -/
def statusReserved (st : BitVec 8) : BitVec 2 := st.extractLsb' 6 2

/-- `STATUS` with `CFG` and `ERR` written and the other fields kept (R192, R193). -/
def statusWithCfg (cfg err : Bool) (st : BitVec 8) : BitVec 8 :=
  st.extractLsb' 2 6 ++ BitVec.ofBool err ++ BitVec.ofBool cfg

/-- `STATUS` with `FLT` and `FCH` written and the other fields kept (R216). -/
def statusWithFault (code : BitVec 3) (fch : Bool) (st : BitVec 8) : BitVec 8 :=
  st.extractLsb' 6 2 ++ BitVec.ofBool fch ++ code ++ st.extractLsb' 0 2

/-- The sticky causes (R210). -/
inductive Cause where
  | bufferUnderflow (c : Channel)
  | notConfigured
  | illegalCommand
  deriving DecidableEq, Repr

/-- The code of a cause in `STATUS.FLT` (R210, R26). -/
def Cause.code : Cause → BitVec 3
  | .bufferUnderflow _ => 2
  | .notConfigured => 3
  | .illegalCommand => 4

/-- What a cause records in `STATUS.FCH` (R216): the right channel is 1, every other case 0. -/
def Cause.fch : Cause → Bool
  | .bufferUnderflow .right => true
  | .bufferUnderflow .left => false
  | .notConfigured => false
  | .illegalCommand => false

/-- The modes (R225). -/
inductive Mode where
  | unconfigured
  | ready
  | faulted
  deriving DecidableEq, Repr

/-- The mode is a function of `STATUS` (R225). -/
def modeOf (st : BitVec 8) : Mode :=
  if statusFlt st ≠ 0 then .faulted else if statusCfg st then .ready else .unconfigured

/-- The mode of a state (R225). -/
def State.mode (s : State) : Mode := modeOf s.status

end Sys2Proof.Machine
end

