-- ==== Sys2Proof/Machine/Ops.lean ====
section
/-! DEFINITION. The operations over the ring buffers and the registers, raising a fault (R216), refusing a command (R219),
the `RESET` event (R240), and writing a parameter register (R91). -/

namespace Sys2Proof.Machine

/-- The word at an index; an index that is not listed holds `+0.0` (R67, R70). -/
def Memory.read : Memory → Nat → Word
  | [], _ => 0#32
  | (j, x) :: rest, i => if j = i then x else Memory.read rest i

/-- The word `v` put in front of a list whose indices are all above `i`; `+0.0` is not listed. -/
def Memory.consWord (i : Nat) (v : Word) (m : Memory) : Memory := if v = 0#32 then m else (i, v) :: m

/-- The buffer with `v` at index `i` and every other word kept (R63), in the canonical form. -/
def Memory.write : Memory → Nat → Word → Memory
  | [], i, v => Memory.consWord i v []
  | (j, x) :: rest, i, v =>
    if i < j then Memory.consWord i v ((j, x) :: rest)
    else if i = j then Memory.consWord i v rest
    else (j, x) :: Memory.write rest i v

/-- The canonical form from index `lo` on: indices strictly rising and at least `lo`, no word `+0.0`. -/
def Memory.wfFrom : Nat → Memory → Bool
  | _, [] => true
  | lo, (j, x) :: rest => decide (lo ≤ j) && decide (x ≠ 0#32) && Memory.wfFrom (j + 1) rest

/-- The canonical form of a buffer: equal buffers are equal lists. -/
def Memory.wf (m : Memory) : Bool := Memory.wfFrom 0 m

/-- Every listed index is below `n` (R60: no word exists at or above `LEN`). -/
def Memory.within (n : Nat) : Memory → Bool
  | [] => true
  | (j, _) :: rest => decide (j < n) && Memory.within n rest

/-- `BUF[c]`. -/
def State.buf (s : State) : Channel → Memory
  | .left => s.bufL
  | .right => s.bufR

/-- The state with `BUF[c]` replaced. -/
def State.withBuf (s : State) (c : Channel) (m : Memory) : State :=
  match c with
  | .left => { s with bufL := m }
  | .right => { s with bufR := m }

/-- `MemRead(c, i)` (R12, R62): no meaning at an index at or above `LEN` (log 12). -/
def memRead (s : State) (c : Channel) (i : Nat) : Except Fault Word :=
  if i < s.len.toNat then .ok (Memory.read (s.buf c) i) else .error (.noSuchWord c i)

/-- `MemWrite(c, i, v)` (R12, R62): no meaning at an index at or above `LEN` (log 12). -/
def memWrite (s : State) (c : Channel) (i : Nat) (v : Word) : Except Fault State :=
  if i < s.len.toNat then .ok (s.withBuf c (Memory.write (s.buf c) i v)) else .error (.noSuchWord c i)

/-- The output ports carry values the spec leaves unspecified: the next free pair (R43, R216, R219; log 7, log 8). -/
def leaveOutputsOpen (s : State) : State :=
  { s with
    outL := Config.unspecifiedOutput s.freeIdx .left
    outR := Config.unspecifiedOutput s.freeIdx .right
    freeIdx := s.freeIdx + 1 }

/-- `raise` (R216): the first cause is recorded in `STATUS` and no other register changes; the outputs are unspecified. -/
def raise (cause : Cause) (s : State) : State :=
  leaveOutputsOpen
    (if statusFlt s.status = 0 then { s with status := statusWithFault cause.code cause.fch s.status } else s)

/-- A `TICK` refused in mode `FAULTED` (R219): no state changes, the outputs are unspecified. -/
def refuseTick (s : State) : State := leaveOutputsOpen s

/-- The next event is taken from the list, and `done` is `accepted` (log 10). The outputs of the tick before are local to
it and do not survive (R43): the ports are open until a `TICK` completes (log 7). -/
def takeEvent (rest : List HostEvent) (accepted : Bool) (s : State) : State :=
  leaveOutputsOpen { s with inbox := rest, done := accepted }

/-- The `RESET` event (R240, R41): the state after reset, but the parameter registers, which the store drives, the events
still to come and the count of free pairs stay; the outputs are unspecified (log 5, log 7). -/
def resetEvent (s : State) : State :=
  leaveOutputsOpen { State.reset with params := s.params, inbox := s.inbox, freeIdx := s.freeIdx }

/-- `SETP` of an `F` parameter register (R91, R37). -/
def Params.set (p : Params) (name : FParam) (v : Word) : Params :=
  match name with
  | .dryWet => { p with dryWet := v }
  | .feedback => { p with feedback := v }
  | .depth => { p with depth := v }
  | .rate => { p with rate := v }
  | .phaseOffset => { p with phaseOffset := v }

/-- The store writes an `F` parameter register between commands (R36, R91). -/
def setParam (name : FParam) (v : Word) (s : State) : State := { s with params := s.params.set name v }

/-- The store writes register `P.type` between commands (R35, R91). -/
def setType (t : BitVec 2) (s : State) : State := { s with params := { s.params with type := t } }

end Sys2Proof.Machine
end

