-- ==== Sys2Proof/Machine/Interp.lean ====
section
/-! DEFINITION. The circular buffer access and the fractional-delay unit (R120 to R131). The arithmetic is written over any
`NUM` (R6). -/

namespace Sys2Proof.Machine

/-- `Lerp(a, b, fr) = ((1 − fr) × a) + (fr × b)` (R122). -/
def lerp {F : Type} (N : Num F) (a b fr : F) : F := N.fadd (N.fmul (N.fsub N.one fr) a) (N.fmul fr b)

/-- The read position before the wrap, `itof(W) − D` (R125). -/
def rawPosition {F : Type} (N : Num F) (w : Nat) (d : F) : F := N.fsub (N.itof w) d

/-- The wrap, once and only forward (R126). -/
def wrapPosition {F : Type} (N : Num F) (len : Nat) (p : F) : F :=
  if N.lt p N.zero then N.fadd p (N.itof len) else p

/-- The two slots of an interpolated read and the weight of the second (R127). -/
structure Slots (F : Type) where
  i0 : Nat
  i1 : Nat
  fr : F
  deriving DecidableEq, Repr

/-- The slots of a read position (R127); `none` is `BufferUnderflow`. `i1` is reduced by the length, `i0` is not. -/
def slotsOf {F : Type} (N : Num F) (len : Nat) (p : F) : Option (Slots F) :=
  if N.isNaN p || N.isInf p then none
  else if N.floor p < 0 ∨ (len : Int) ≤ N.floor p then none
  else some
    { i0 := (N.floor p).toNat
      i1 := if len ≤ (N.floor p).toNat + 1 then (N.floor p).toNat + 1 - len else (N.floor p).toNat + 1
      fr := N.fsub p (N.itof (N.floor p).toNat) }

/-- The slots read for delay time `d` with the advanced write head `w` (R125 to R127). -/
def readSlots {F : Type} (N : Num F) (len w : Nat) (d : F) : Option (Slots F) :=
  slotsOf N len (wrapPosition N len (rawPosition N w d))

/-- How an interpolated read ends. -/
inductive ReadResult where
  /-- The wet sample (R128). -/
  | wet (v : Word)
  /-- The position has no slot: the cause to raise (R127). -/
  | raised (c : Cause)
  /-- A load at an index where no word exists (log 12); the check of R127 leaves none. -/
  | stuck (f : Fault)
  deriving DecidableEq, Repr

/-- A load that has no meaning stops the read. -/
def ReadResult.ofLoad (r : Except Fault Word) (k : Word → ReadResult) : ReadResult :=
  match r with
  | .ok v => k v
  | .error f => .stuck f

/-- The two loads and the interpolation (R128); both loads are performed whatever the weight. -/
def loadAndLerp (s : State) (c : Channel) (sl : Slots Word) : ReadResult :=
  .ofLoad (memRead s c sl.i0) fun a => .ofLoad (memRead s c sl.i1) fun b => .wet (lerp num a b sl.fr)

/-- `ReadInterp(c, D)` with `W` already advanced (R128). -/
def readInterp (s : State) (c : Channel) (d : Word) : ReadResult :=
  (readSlots num s.len.toNat s.w.toNat d).elim (.raised (.bufferUnderflow c)) (loadAndLerp s c)

end Sys2Proof.Machine
end

