-- ==== Sys2Proof/Machine/Mix.lean ====
section
/-! DEFINITION. The feedback mixer and the dry/wet blender: steps 4 to 6 of a tick (R180 to R188). -/

namespace Sys2Proof.Machine

/-- The feedback carry `wet × P.feedback` (R181). -/
def carry {F : Type} (N : Num F) (wet feedback : F) : F := N.fmul wet feedback

/-- The mix `(in × (1 − P.dryWet)) + (wet × P.dryWet)` (R182). -/
def mix {F : Type} (N : Num F) (input wet dryWet : F) : F :=
  N.fadd (N.fmul input (N.fsub N.one dryWet)) (N.fmul wet dryWet)

/-- Steps 4, 5 and 6: the carries are written, the outputs are driven (R181, R182, R184). -/
def mixAndEmit (o : TickOperands) (wetL wetR : Word) (s : State) : State :=
  { s with
    fbL := carry num wetL o.feedback
    fbR := carry num wetR o.feedback
    outL := mix num o.inL wetL o.dryWet
    outR := mix num o.inR wetR o.dryWet }

end Sys2Proof.Machine
end

