-- ==== Sys2Proof/Machine/Tick.lean ====
section
/-! DEFINITION. What the forms of `TICK` share: admission, the order of the six steps, the store and the advance of the
write head (R100 to R111). -/

namespace Sys2Proof.Machine

/-- The write head after step 2, `(W + 1) mod LEN` (R103). -/
def nextHead (len w : Nat) : Nat := (w + 1) % len

/-- Step 2 (R103). -/
def advanceHead (s : State) : State := { s with w := BitVec.ofNat 25 (nextHead s.len.toNat s.w.toNat) }

/-- Step 1 (R102): both channels store `in + FB` at `W`, left before right (R65). -/
def storeFrame (o : TickOperands) (s : State) : Except Fault State :=
  match memWrite s .left s.w.toNat (num.fadd o.inL s.fbL) with
  | .error f => .error f
  | .ok s1 => memWrite s1 .right s1.w.toNat (num.fadd o.inR s1.fbR)

/-- The delay times of step 3 and the state with `SM` or `PH` updated (R105). -/
structure Timed where
  dL : Word
  dR : Word
  s : State
  deriving DecidableEq, Repr

/-- A tick goes on with the wet sample of a read, or ends with its cause (R216) in state `s`. -/
def ReadResult.andThen (r : ReadResult) (s : State) (k : Word → Host.Outcome State Fault Refusal) :
    Host.Outcome State Fault Refusal :=
  match r with
  | .wet v => k v
  | .raised c => .next (raise c s)
  | .stuck f => .fault f

/-- The reads of step 3, left before right, then steps 4 to 6 (R108); a `BufferUnderflow` leaves what is committed by
then (R218). -/
def readAndFinish (o : TickOperands) (t : Timed) : Host.Outcome State Fault Refusal :=
  (readInterp t.s .left t.dL).andThen t.s fun wetL =>
    (readInterp t.s .right t.dR).andThen t.s fun wetR => .next (mixAndEmit o wetL wetR t.s)

/-- The six steps of R108 after admission. -/
def tickSteps (times : TickOperands → State → Timed) (o : TickOperands) (s : State) : Host.Outcome State Fault Refusal :=
  match storeFrame o s with
  | .error f => .fault f
  | .ok s1 => readAndFinish o (times o (advanceHead s1))

/-- Admission of a `TICK` in the order of R104 and R217: refused in mode `FAULTED`, `NotConfigured` in mode
`UNCONFIGURED`, else it goes on with `body`. -/
def admitTick (body : State → Host.Outcome State Fault Refusal) (s : State) : Host.Outcome State Fault Refusal :=
  match s.mode with
  | .faulted => .next (refuseTick s)
  | .unconfigured => .next (raise .notConfigured s)
  | .ready => body s

end Sys2Proof.Machine
end

