-- ==== Sys2Proof/Machine/Delay.lean ====
section
/-! DEFINITION. `TICK.DELAY` and the delay-time smoother (R140 to R147). -/

namespace Sys2Proof.Machine

/-- The target delay time in seconds, `P.rate / 10` (R140). -/
def targetTime {F : Type} (N : Num F) (rate : F) : F := N.fdiv rate N.ten

/-- The single-pole smoother, `SM − (0.0001 × (SM − target))` (R141). -/
def smooth {F : Type} (N : Num F) (sm target : F) : F := N.fsub sm (N.fmul N.kSmooth (N.fsub sm target))

/-- `DelayTimes(P)` (R144): `SM` is updated, then `D = SM × SR` for both channels (R142). -/
def delayTimes (o : TickOperands) (s : State) : Timed :=
  let sm := smooth num s.sm (targetTime num o.rate)
  { dL := num.fmul sm s.sr
    dR := num.fmul sm s.sr
    s := { s with sm := sm } }

/-- `TICK.DELAY` (R144). -/
def execTickDelay (o : TickOperands) (s : State) : Host.Outcome State Fault Refusal :=
  admitTick (tickSteps delayTimes o) s

end Sys2Proof.Machine
end

