-- ==== Sys2Proof/Machine/Configure.lean ====
section
/-! DEFINITION. `CFG` and `NOP` (R190 to R195, R198). -/

namespace Sys2Proof.Machine

/-- The validity test and the buffer length `floor(sampleRate × 2)` (R191); `none` is `InvalidSampleRate` (R211). -/
def bufferLength {F : Type} (N : Num F) (sampleRate : F) : Option Nat :=
  if N.isNaN sampleRate || N.isInf sampleRate || !N.lt N.zero sampleRate then none
  else if N.isInf (N.fmul sampleRate N.two) then none
  else if 1 ≤ N.floor (N.fmul sampleRate N.two) ∧ N.floor (N.fmul sampleRate N.two) ≤ (Config.lenMax : Int) then
    some (N.floor (N.fmul sampleRate N.two)).toNat
  else none

/-- The effects of a valid `CFG` (R192): the zero fill lists no word. It drives no output port: `step` has left both open
(R43, log 7). -/
def configure (sampleRate blockSize rate : Word) (n : Nat) (s : State) : State :=
  { s with
    sr := sampleRate
    blk := blockSize
    len := BitVec.ofNat 25 n
    bufL := []
    bufR := []
    w := 0
    sm := targetTime num rate
    status := statusWithCfg true false s.status }

/-- The effects of an invalid `CFG` (R193): the report, and no other change. -/
def reportInvalidSampleRate (s : State) : State := { s with status := statusWithCfg false true s.status }

/-- `CFG` (R190); the type bits are ignored (R83). -/
def execCfg (sampleRate blockSize rate : Word) (s : State) : Host.Outcome State Fault Refusal :=
  match s.mode with
  | .faulted => .next s
  | .unconfigured | .ready =>
    .next ((bufferLength num sampleRate).elim (reportInvalidSampleRate s)
      fun n => configure sampleRate blockSize rate n s)

/-- `NOP` (R198): it reads and writes no state in any mode; the type bits are ignored (R85). It produces no output sample:
`step` has left both ports open (R43, log 7). -/
def execNop (s : State) : Host.Outcome State Fault Refusal := .next s

end Sys2Proof.Machine
end

