-- ==== Sys2Proof/Machine/Modulated.lean ====
section
/-! DEFINITION. `TICK.CHORUS`, `TICK.FLANGER`, the LFO phase accumulator and the modulation router (R160 to R175). -/

namespace Sys2Proof.Machine

/-- One subtraction of 1 where the value exceeds 1 (R161, R168; C3: a value of exactly 1 stays). -/
def wrapPhase {F : Type} (N : Num F) (x : F) : F := if N.lt N.one x then N.fsub x N.one else x

/-- The right channel's LFO phase (R161). -/
def rightPhase {F : Type} (N : Num F) (ph phaseOffset : F) : F := wrapPhase N (N.fadd ph phaseOffset)

/-- The raw LFO value scaled by the depth (R162, R164). -/
def lfoValue {F : Type} (N : Num F) (ph depth : F) : F := N.fmul (N.sin2pi ph) depth

/-- `Map(v) = lo + ((hi − lo) × ((v + 1) / 2))` (R166). -/
def mapTime {F : Type} (N : Num F) (lo hi v : F) : F :=
  N.fadd lo (N.fmul (N.fsub hi lo) (N.fdiv (N.fadd v N.one) N.two))

/-- The delay time in samples for an LFO phase: steps 2 to 4 (R162 to R167). -/
def modulatedTime {F : Type} (N : Num F) (lo hi sr depth ph : F) : F :=
  N.fmul sr (mapTime N lo hi (lfoValue N ph depth))

/-- The phase advance (R168). -/
def advancePhase {F : Type} (N : Num F) (ph rate sr : F) : F := wrapPhase N (N.fadd ph (N.fdiv rate sr))

/-- A delay time `d` of a modulated tick with the sampled `P.rate`: a NaN rate gives a NaN time and faults the tick (R173
(f), R256). DEDUCED (log 20): by the order of R160, R168 and R169 the rate would not enter the time; the two rules that name
the case are followed. The NaN rate itself stands for the NaN time: a NaN has no slots (R127), so its pattern is not seen. -/
def timeWithRate (rate d : Word) : Word := if f32IsNaN rate then rate else d

/-- `ModulatedTimes(P)` for a range in seconds (R169): the times use `PH` as the tick found it (R160); for a NaN in `P.rate`
see `timeWithRate`. `PH` is NaN then (R168, R256). -/
def modulatedTimes (lo hi : Word) (o : TickOperands) (s : State) : Timed where
  dL := timeWithRate o.rate (modulatedTime num lo hi s.sr o.depth s.ph)
  dR := timeWithRate o.rate (modulatedTime num lo hi s.sr o.depth (rightPhase num s.ph o.phaseOffset))
  s := { s with ph := advancePhase num s.ph o.rate s.sr }

/-- `TICK.CHORUS` (R170). -/
def execTickChorus (o : TickOperands) (s : State) : Host.Outcome State Fault Refusal :=
  admitTick (tickSteps (modulatedTimes num.chorusLo num.chorusHi) o) s

/-- `TICK.FLANGER` (R171). -/
def execTickFlanger (o : TickOperands) (s : State) : Host.Outcome State Fault Refusal :=
  admitTick (tickSteps (modulatedTimes num.flangerLo num.flangerHi) o) s

end Sys2Proof.Machine
end

