-- ==== Sys2Proof/Machine/Reserved.lean ====
section
/-! DEFINITION. The reserved words: `IllegalCommand` (R88, R214), after the tests that come before it (R217). -/

namespace Sys2Proof.Machine

/-- `TICK` with the reserved type code 3 (R88, R104): `NotConfigured` comes first (R217). -/
def execReservedTickType3 (s : State) : Host.Outcome State Fault Refusal :=
  admitTick (fun t => .next (raise .illegalCommand t)) s

/-- The reserved command code 3 (R88, R217): refused in mode `FAULTED`, else `IllegalCommand`. -/
def execReservedCmdOp3 (s : State) : Host.Outcome State Fault Refusal :=
  match s.mode with
  | .faulted => .next s
  | .unconfigured | .ready => .next (raise .illegalCommand s)

end Sys2Proof.Machine
end

