-- ==== Sys2Proof/Machine/Dispatch.lean ====
section
/-! DEFINITION. `exec`: one arm per row of the opcode table (R87). -/

namespace Sys2Proof.Machine

def exec (i : Instr) (s : State) : Host.Outcome State Fault Refusal :=
  match i with
  | .nop _ => Sys2Proof.Machine.execNop s
  | .cfg _ sampleRate blockSize rate => Sys2Proof.Machine.execCfg sampleRate blockSize rate s
  | .tickDelay o => Sys2Proof.Machine.execTickDelay o s
  | .tickChorus o => Sys2Proof.Machine.execTickChorus o s
  | .tickFlanger o => Sys2Proof.Machine.execTickFlanger o s
  | .reservedTickType3 _ => Sys2Proof.Machine.execReservedTickType3 s
  | .reservedCmdOp3 _ => Sys2Proof.Machine.execReservedCmdOp3 s

end Sys2Proof.Machine
end

