-- ==== Sys2Proof/WellFormed.lean ====
section
/-! DEFINITION. What a term must satisfy beyond its type. The operands of an instruction are whole ports and every
pattern is accepted (R86), so the types of `Instr` already say all; the checks are those of the serialised frame (R82,
R92) and of the source lines (R90, R91). -/

namespace Sys2Proof

/-- How many words an instruction has in the serialised form of R92: formats `N`, `C` and `T` of R82. -/
def Instr.frameLength : Instr → Nat
  | .nop _ => 1
  | .cfg _ _ _ _ => 4
  | .tickDelay _ => 8
  | .tickChorus _ => 8
  | .tickFlanger _ => 8
  | .reservedTickType3 _ => 8
  | .reservedCmdOp3 _ => 1

/-- A serialised command is well formed: its header is `zext_32` of an operation word, and the operand words of its
format follow, none more and none fewer (R82, R92). -/
def frameWellFormed : List Word → Bool
  | [] => false
  | header :: operands =>
    if header.toNat < 4 then operands.length == 0
    else if header.toNat < 8 then operands.length == 3
    else if header.toNat < 12 then operands.length == 7
    else if header.toNat < 16 then operands.length == 0
    else false

/-- A source line is well formed: a written type is 0, 1 or 2 (R90), a block size fits its port (R83), and `PROCESS n`
has `n` samples for each channel (R91, R196). -/
def Line.wellFormed : Line → Bool
  | .reset => true
  | .setp _ _ => true
  | .setType t => decide (t < 3)
  | .cfg _ blockSize => decide (blockSize < 2 ^ 32)
  | .tick _ _ _ => true
  | .nop => true
  | .process n ls rs => ls.length == n && rs.length == n

end Sys2Proof
end

