-- ==== Sys2Proof/Decode.lean ====
section
/-! DEFINITION. The opcode table (R82, R87), the decoder over the serialised form of R92 and R61, and the encoder. -/

namespace Sys2Proof

/-- The rows of the opcode table. -/
inductive OpKind where
  | nop
  | cfg
  | tickDelay
  | tickChorus
  | tickFlanger
  | reservedTickType3
  | reservedCmdOp3
  deriving DecidableEq, Repr

/-- One row of the table of R87: a word belongs to it when its masked bits equal `pattern`. -/
structure OpcodeRow where
  mnemonic : String
  mask : Opword
  pattern : Opword
  kind : OpKind
  deriving DecidableEq, Repr

/-- The table of R87. -/
def opcodeTable : List OpcodeRow :=
  [ ⟨"NOP", 0b1100#4, 0b0000#4, .nop⟩,
    ⟨"CFG", 0b1100#4, 0b0100#4, .cfg⟩,
    ⟨"TICK.DELAY", 0b1111#4, 0b1000#4, .tickDelay⟩,
    ⟨"TICK.CHORUS", 0b1111#4, 0b1001#4, .tickChorus⟩,
    ⟨"TICK.FLANGER", 0b1111#4, 0b1010#4, .tickFlanger⟩,
    ⟨"reserved_TICK_type_3", 0b1111#4, 0b1011#4, .reservedTickType3⟩,
    ⟨"reserved_cmd_op_3", 0b1100#4, 0b1100#4, .reservedCmdOp3⟩ ]

/-- A word belongs to a row of the table. -/
def OpcodeRow.covers (r : OpcodeRow) (op : Opword) : Bool := op &&& r.mask == r.pattern

/-- The row of an operation word. -/
def findKind (op : Opword) : Option OpKind := (opcodeTable.find? (·.covers op)).map (·.kind)

/-- Why a list of words or bytes is no command. -/
inductive DecodeError where
  /-- No whole word is there. -/
  | noHeader
  /-- The first word is not `zext_32` of a 4-bit operation word (R92). -/
  | headerNotOpword
  /-- The operation word is in no row of the table (never: the rows cover all 16 values, R87). -/
  | noRow
  /-- Operand words of the format are missing (R82, R92). -/
  | truncated
  deriving DecidableEq, Repr

/-- The operands of format `C`, in the order of R92. -/
def takeCfg (typeBits : BitVec 2) : List Word → Except DecodeError (Instr × List Word)
  | sr :: blk :: rate :: rest => .ok (.cfg typeBits sr blk rate, rest)
  | _ => .error .truncated

/-- The operands of format `T`, in the order of R92. -/
def takeTick (make : TickOperands → Instr) : List Word → Except DecodeError (Instr × List Word)
  | l :: r :: dw :: fb :: dp :: rt :: ph :: rest => .ok (make ⟨l, r, dw, fb, dp, rt, ph⟩, rest)
  | _ => .error .truncated

/-- The operands that follow the header of a row (R82). -/
def takeOperands (typeBits : BitVec 2) (ws : List Word) : OpKind → Except DecodeError (Instr × List Word)
  | .nop => .ok (.nop typeBits, ws)
  | .cfg => takeCfg typeBits ws
  | .tickDelay => takeTick .tickDelay ws
  | .tickChorus => takeTick .tickChorus ws
  | .tickFlanger => takeTick .tickFlanger ws
  | .reservedTickType3 => takeTick .reservedTickType3 ws
  | .reservedCmdOp3 => .ok (.reservedCmdOp3 typeBits, ws)

/-- The first command of a list of words, and the words after it (R82, R92). -/
def decodeWords : List Word → Except DecodeError (Instr × List Word)
  | [] => .error .noHeader
  | header :: rest =>
    if header.toNat < 16 then
      match findKind (header.setWidth 4) with
      | some k => takeOperands (header.setWidth 2) rest k
      | none => .error .noRow
    else .error .headerNotOpword

/-- A word from its four bytes, byte 0 in bits 7:0 (R61). -/
def wordOfBytes (b0 b1 b2 b3 : Byte) : Word := b3 ++ b2 ++ b1 ++ b0

/-- The whole words at the front of a list of bytes (R61). -/
def wordsOfBytes : List Byte → List Word
  | b0 :: b1 :: b2 :: b3 :: rest => wordOfBytes b0 b1 b2 b3 :: wordsOfBytes rest
  | _ => []

/-- The four bytes of a word, byte 0 first (R61). -/
def bytesOfWord (w : Word) : List Byte :=
  [w.extractLsb' 0 8, w.extractLsb' 8 8, w.extractLsb' 16 8, w.extractLsb' 24 8]

/-- The bytes of a list of words (R61). -/
def bytesOfWords (ws : List Word) : List Byte := ws.flatMap bytesOfWord

/-- The decoder: total on any bytes. It answers the first command and the bytes after it, or says why there is none. -/
def decode (bs : List Byte) : Except DecodeError (Instr × List Byte) :=
  match decodeWords (wordsOfBytes bs) with
  | .ok (i, _) => .ok (i, bs.drop (4 * i.frameLength))
  | .error e => .error e

/-- The header of a command: `zext_32` of its command code and type bits (R82, R92). -/
def headerWord (cmdOp typeBits : BitVec 2) : Word := (cmdOp ++ typeBits).setWidth 32

/-- The operand words of format `T` (R92). -/
def TickOperands.words (o : TickOperands) : List Word :=
  [o.inL, o.inR, o.dryWet, o.feedback, o.depth, o.rate, o.phaseOffset]

/-- The encoder: the words of an instruction (R82, R87, R92). -/
def encode : Instr → List Word
  | .nop t => [headerWord 0b00#2 t]
  | .cfg t sr blk rate => [headerWord 0b01#2 t, sr, blk, rate]
  | .tickDelay o => headerWord 0b10#2 0b00#2 :: o.words
  | .tickChorus o => headerWord 0b10#2 0b01#2 :: o.words
  | .tickFlanger o => headerWord 0b10#2 0b10#2 :: o.words
  | .reservedTickType3 o => headerWord 0b10#2 0b11#2 :: o.words
  | .reservedCmdOp3 t => [headerWord 0b11#2 t]

/-- The bytes of an instruction (R61, R92). -/
def encodeBytes (i : Instr) : List Byte := bytesOfWords (encode i)

/-- Word `k` of an instruction whose bits are `w`, numbered from the least significant bit of its first word; bits at and
above `nbits` are 0. -/
def tableWord (nbits w k : Nat) : Word := BitVec.ofNat 32 ((w % 2 ^ nbits) / 2 ^ (32 * k))

/-- The eight words of the longest form of an instruction whose bits are `w` (`tableWord`). -/
def tableWords (nbits w : Nat) : List Word := (List.range 8).map (tableWord nbits w)

/-- The instruction the decoder reads from the bytes of an instruction whose bits are `w`. -/
def decodeTableWord (nbits w : Nat) : Option Instr :=
  match decode (bytesOfWords (tableWords nbits w)) with
  | .ok (i, _) => some i
  | .error _ => none

end Sys2Proof
end

