-- ==== Sys2Proof/Machine/Operands.lean ====
section
/-! DEFINITION. How the operands of a command are sampled from the ports and the parameter registers at acceptance (R36,
R81 to R86), as the words of R92. -/

namespace Sys2Proof.Machine

/-- The operand words of the three formats (R82): `N` samples nothing, `C` samples `cfg_sr`, `cfg_blk`, `p_rate`, `T`
samples the inputs and the five `F` parameters. The reserved code has no operand. -/
def sampledOperands (c : CommandPorts) (p : Params) : List Word :=
  if c.cmdOp = 0b01#2 then [c.cfgSr, c.cfgBlk, p.rate]
  else if c.cmdOp = 0b10#2 then [c.inL, c.inR, p.dryWet, p.feedback, p.depth, p.rate, p.phaseOffset]
  else []

/-- The operation word sampled at acceptance (R82). -/
def sampledOpword (c : CommandPorts) (p : Params) : Opword := c.cmdOp ++ p.type

/-- The command as sampled at acceptance (R82, R92). -/
def sampledCommand (c : CommandPorts) (p : Params) : List Word :=
  (sampledOpword c p).setWidth 32 :: sampledOperands c p

/-- The ports that present a command whose words are `ws` (R92), the inverse of sampling. -/
def portsOfWords (ws : List Word) : CommandPorts where
  cmdOp := (ws.getD 0 0).extractLsb' 2 2
  cfgSr := ws.getD 1 0
  cfgBlk := ws.getD 2 0
  inL := ws.getD 1 0
  inR := ws.getD 2 0

/-- The parameter registers driven with the words of a command (R92); a register the command does not sample keeps its
value. -/
def paramsOfWords (ws : List Word) (p : Params) : Params :=
  if (ws.getD 0 0).extractLsb' 2 2 = 0b01#2 then
    { p with type := (ws.getD 0 0).extractLsb' 0 2, rate := ws.getD 3 0 }
  else if (ws.getD 0 0).extractLsb' 2 2 = 0b10#2 then
    { dryWet := ws.getD 3 0
      feedback := ws.getD 4 0
      depth := ws.getD 5 0
      rate := ws.getD 6 0
      phaseOffset := ws.getD 7 0
      type := (ws.getD 0 0).extractLsb' 0 2 }
  else { p with type := (ws.getD 0 0).extractLsb' 0 2 }

end Sys2Proof.Machine
end

