-- ==== Sys2Proof/Machine/Step.lean ====
section
/-! DEFINITION. One step: the next event of the environment (R10, R81, R91, R240; log 9), and where an instruction stands
so that the next step runs it. -/

namespace Sys2Proof.Machine

/-- A command is accepted: the ports and parameter registers are sampled (R36), the operation word is decoded (R82), and
the command runs to its end. `s` is the state with the event taken. -/
def acceptCommand (c : CommandPorts) (s : State) : Host.Outcome State Fault Refusal :=
  match decodeWords (sampledCommand c s.params) with
  | .ok (i, _) => exec i s
  | .error _ => .refused .undecodable

/-- One step: the event is taken (log 9) and acts. With no event left the block idles and keeps all state (R231). An
accepted command signals `done` (R81). -/
def step (s : State) : Host.Outcome State Fault Refusal :=
  match s.inbox with
  | [] => .next (takeEvent [] false s)
  | .reset :: rest => .next (resetEvent (takeEvent rest false s))
  | .setParam p v :: rest => .next (setParam p v (takeEvent rest false s))
  | .setType t :: rest => .next (setType t (takeEvent rest false s))
  | .command c :: rest => acceptCommand c (takeEvent rest true s)

/-- `s` with the instruction whose bits are `w` presented at the ports, its parameter words in the parameter registers
(R81, R92), as the next event. A header that is no operation word cannot be presented: no event is left then. -/
def State.withFetchWord (s : State) (nbits w : Nat) : State :=
  if (tableWord nbits w 0).toNat < 16 then
    { s with
      params := paramsOfWords (tableWords nbits w) s.params
      inbox := [.command (portsOfWords (tableWords nbits w))] }
  else { s with inbox := [] }

end Sys2Proof.Machine
end

