-- ==== Sys2Proof/Machine/Process.lean ====
section
/-! DEFINITION. The source lines of R90 and R91 as events of the environment, and `PROCESS` with the outputs it collects
(R91, R196). -/

namespace Sys2Proof.Machine

/-- The code of a named type (R35). -/
def typeCode : EffectType → BitVec 2
  | .delay => 0
  | .chorus => 1
  | .flanger => 2

/-- A `NOP` as the host presents it (R82). -/
def nopEvent : HostEvent := .command ⟨0b00, 0, 0, 0, 0⟩

/-- A `CFG` as the host presents it (R83). -/
def cfgEvent (sampleRate : Word) (blockSize : Nat) : HostEvent :=
  .command ⟨0b01, sampleRate, BitVec.ofNat 32 blockSize, 0, 0⟩

/-- A `TICK` as the host presents it (R84). -/
def tickEvent (inL inR : Word) : HostEvent := .command ⟨0b10, 0, 0, inL, inR⟩

/-- `PROCESS` expands to one `TICK` per frame (R91, R196). -/
def processEvents : List Word → List Word → List HostEvent
  | l :: ls, r :: rs => tickEvent l r :: processEvents ls rs
  | _, _ => []

/-- What `PROCESS` gives the host: the collected outputs of each channel, one for each tick in order, and the state of the
block after it (R71, R91, R196). -/
structure Processed where
  outL : List Word
  outR : List Word
  s : State
  deriving DecidableEq, Repr

/-- The output pair of an earlier tick in front. -/
def Processed.cons (l r : Word) (p : Processed) : Processed := { p with outL := l :: p.outL, outR := r :: p.outR }

/-- An outcome goes on where it is a next state; a stop stays a stop. -/
def andNext {σ τ : Type} (r : Host.Outcome σ Fault Refusal) (k : σ → Host.Outcome τ Fault Refusal) :
    Host.Outcome τ Fault Refusal :=
  match r with
  | .next t => k t
  | .fault f => .fault f
  | .refused e => .refused e

/-- `n` steps, and what the output ports carry after each of them. -/
def collect : Nat → State → Host.Outcome Processed Fault Refusal
  | 0, s => .next ⟨[], [], s⟩
  | n + 1, s => andNext (step s) fun t => andNext (collect n t) fun p => .next (p.cons t.outL t.outR)

/-- The host presents events before those that are still to come. -/
def present (es : List HostEvent) (s : State) : State := { s with inbox := es ++ s.inbox }

/-- `PROCESS n, [l …], [r …]` (R91, R196): its ticks are presented with no parameter write between them, and their output
pairs are collected. -/
def process (n : Nat) (ls rs : List Word) (s : State) : Host.Outcome Processed Fault Refusal :=
  collect (processEvents (ls.take n) (rs.take n)).length (present (processEvents (ls.take n) (rs.take n)) s)

/-- The events of a line; `none` where a full mnemonic asserts a type that is not the current one (R90). -/
def lineEvents (type : BitVec 2) : Line → Option (List HostEvent)
  | .reset => some [.reset]
  | .setp p v => some [.setParam p v]
  | .setType t => some [.setType (BitVec.ofNat 2 t)]
  | .cfg sr blk => some [cfgEvent sr blk]
  | .tick none l r => some [tickEvent l r]
  | .tick (some t) l r => if typeCode t = type then some [tickEvent l r] else none
  | .nop => some [nopEvent]
  | .process n ls rs => some (processEvents (ls.take n) (rs.take n))

/-- The type in force after a line (R91). -/
def typeAfter (type : BitVec 2) : Line → BitVec 2
  | .setType t => BitVec.ofNat 2 t
  | .reset => type
  | .setp _ _ => type
  | .cfg _ _ => type
  | .tick _ _ _ => type
  | .nop => type
  | .process _ _ _ => type

/-- The events of a program, from the type in force before it (R90, R91). -/
def programEvents : BitVec 2 → List Line → Option (List HostEvent)
  | _, [] => some []
  | type, l :: rest =>
    match lineEvents type l, programEvents (typeAfter type l) rest with
    | some here, some later => some (here ++ later)
    | _, _ => none

end Sys2Proof.Machine
end

