-- ==== Sys2Proof/Safety.lean ====
section
/-! DEFINITION. The terms claims use: the value of a pattern, ideal arithmetic, the invariant, the premises a claim may
carry, and what it compares two runs by. -/

namespace Sys2Proof.Machine

/-- The value of a finite pattern (R11). -/
def f32Rat (x : Word) : ℚ := (f32Int x : ℚ) / 2 ^ 149

/-- No subnormal: the value claims of R186 carry this premise, or hold in both modes. -/
def NotSubnormal (x : Word) : Prop := f32IsSubnormal x = false

/-- `r` is the value `v` rounded to nearest, ties to even (R6): finite, no finite pattern is nearer to `v`, and where
another value is as near, the last bit of `r` is 0. -/
def NearestEven (v : ℚ) (r : Word) : Prop :=
  f32IsFinite r = true ∧
    ∀ z : Word, f32IsFinite z = true →
      |f32Rat r - v| ≤ |f32Rat z - v| ∧
      (|f32Rat z - v| = |f32Rat r - v| → f32Rat z = f32Rat r ∨ r.getLsbD 0 = false)

/-- A value whose rounding is neither subnormal nor an infinity: at least the least normal number in magnitude, and
below the midpoint between the greatest finite number and `2^128`. -/
def InNormalRange (v : ℚ) : Prop := 1 / 2 ^ 126 ≤ |v| ∧ |v| < 2 ^ 128 - 2 ^ 103

/-- Law (d) of R163 for a bound `SIN_ERR = err`: the premise of a claim that needs the accuracy of `SIN2PI`. -/
def SineAccurate (err : ℝ) : Prop :=
  ∀ x : Word, f32IsFinite x = true → 0 ≤ f32Rat x → f32Rat x ≤ 1 →
    |(f32Rat (f32Sin2pi x) : ℝ) - Real.sin (2 * Real.pi * (f32Rat x : ℝ))| ≤ err

/-- Ideal arithmetic (R6): the rules read over the real numbers, with the exact sine. -/
noncomputable def idealNum : Num ℝ where
  fadd := fun a b => a + b
  fsub := fun a b => a - b
  fmul := fun a b => a * b
  fdiv := fun a b => a / b
  lt := fun a b => decide (a < b)
  le := fun a b => decide (a ≤ b)
  isNaN := fun _ => false
  isInf := fun _ => false
  floor := fun a => ⌊a⌋
  itof := fun n => (n : ℝ)
  sin2pi := fun x => Real.sin (2 * Real.pi * x)
  zero := 0
  one := 1
  two := 2
  ten := 10
  kSmooth := 1 / 10000
  chorusLo := 1 / 1000
  chorusHi := 5 / 1000
  flangerLo := 5 / 1000
  flangerHi := 3 / 100

/-- The parameter ranges the store guarantees (R5), a premise of claims, in the sampled operands of a `TICK`. -/
def ParametersInRange (o : TickOperands) : Prop :=
  (f32IsFinite o.dryWet = true ∧ 0 ≤ f32Rat o.dryWet ∧ f32Rat o.dryWet ≤ 1) ∧
  (f32IsFinite o.feedback = true ∧ 0 ≤ f32Rat o.feedback ∧ f32Rat o.feedback ≤ f32Rat 0x3F7AE148) ∧
  (f32IsFinite o.depth = true ∧ 0 ≤ f32Rat o.depth ∧ f32Rat o.depth ≤ 1) ∧
  (f32IsFinite o.rate = true ∧ f32Rat 0x3DCCCCCD ≤ f32Rat o.rate ∧ f32Rat o.rate ≤ 20) ∧
  (f32IsFinite o.phaseOffset = true ∧ 0 ≤ f32Rat o.phaseOffset ∧ f32Rat o.phaseOffset ≤ 1)

/-- The invariant of the machine, from R42 (a), (b), R26, R60 and R192: what every step keeps from every state that has it. -/
structure State.Inv (s : State) : Prop where
  /-- The buffers are in their canonical form. -/
  bufL_wf : s.bufL.wf = true
  bufR_wf : s.bufR.wf = true
  /-- No word exists at or above `LEN` (R60). -/
  bufL_within : Memory.within s.len.toNat s.bufL = true
  bufR_within : Memory.within s.len.toNat s.bufR = true
  /-- `LEN ≤ LEN_MAX` (R42 (b)). -/
  len_le : s.len.toNat ≤ Config.lenMax
  /-- While `STATUS.CFG = 1`: `W < LEN` and `LEN` is the length of `SR` (R42 (a), (b)). -/
  configured : statusCfg s.status = true → s.w.toNat < s.len.toNat ∧ bufferLength num s.sr = some s.len.toNat
  /-- Bits 7:6 read as 0 (R26). -/
  reserved : statusReserved s.status = 0
  /-- The codes 1, 5, 6, 7 are never written to `FLT` (R26). -/
  code : statusFlt s.status = 0 ∨ statusFlt s.status = 2 ∨ statusFlt s.status = 3 ∨ statusFlt s.status = 4
  /-- `FCH` is 0 but with `BufferUnderflow` (R26). -/
  fch : statusFch s.status = true → statusFlt s.status = 2
  /-- A valid configuration and the report of an invalid one exclude each other (R26, R192, R193). -/
  cfg_err : ¬ (statusCfg s.status = true ∧ statusErr s.status = true)

/-- A final state that a run may certify (R219): not in mode `FAULTED`. -/
def State.certifiable (s : State) : Bool := s.mode != .faulted

/-- The three commands that process a frame. -/
def tickForms (o : TickOperands) : List Instr := [.tickDelay o, .tickChorus o, .tickFlanger o]

/-- The words of format `T` (R82), the reserved type code among them. -/
def formatT (o : TickOperands) : List Instr := [.tickDelay o, .tickChorus o, .tickFlanger o, .reservedTickType3 o]

/-- The delay times of a command in a state, and the state with `SM` or `PH` updated (R144, R169). -/
def timedOf (s : State) : Instr → Option Timed
  | .nop _ => none
  | .cfg _ _ _ _ => none
  | .tickDelay o => some (delayTimes o s)
  | .tickChorus o => some (modulatedTimes num.chorusLo num.chorusHi o s)
  | .tickFlanger o => some (modulatedTimes num.flangerLo num.flangerHi o s)
  | .reservedTickType3 _ => none
  | .reservedCmdOp3 _ => none

/-- The slots that a tick of state `s` reads for a delay time: with the advanced write head (R101, R125). -/
def slotsInTick (s : State) (d : Word) : Option (Slots Word) :=
  readSlots num s.len.toNat (nextHead s.len.toNat s.w.toNat) d

/-- The outcome is the next state `t`, but for the output ports, which the spec leaves unspecified (R216, R219). -/
def NextButOutputs (r : Host.Outcome State Fault Refusal) (t : State) : Prop :=
  ∃ (l rr : Word) (n : Nat), r = .next { t with outL := l, outR := rr, freeIdx := n }

/-- A function applied to the next state of an outcome. -/
def onNext (f : State → State) : Host.Outcome State Fault Refusal → Host.Outcome State Fault Refusal
  | .next t => .next (f t)
  | .fault r => .fault r
  | .refused r => .refused r

/-- A state without its right lane (R106). -/
def State.eraseRight (s : State) : State := { s with fbR := 0, bufR := [], outR := 0 }

/-- A state without its left lane (R106). -/
def State.eraseLeft (s : State) : State := { s with fbL := 0, bufL := [], outL := 0 }

/-- A state without the values that are unspecified in mode `UNCONFIGURED` (R41, U9). -/
def State.eraseUnconfigured (s : State) : State :=
  { s with w := 0, sm := 0, sr := 0, len := 0, blk := 0, bufL := [], bufR := [] }

/-- The bits of the word stored by a tick: `in + FB` (R102). -/
def storedWord (o : TickOperands) (s : State) : Channel → Word
  | .left => f32Add o.inL s.fbL
  | .right => f32Add o.inR s.fbR

end Sys2Proof.Machine
end

