-- ==== Sys2Proof/Certificates/Slice0/Obligations.lean ====
section
/-! DEFINITION. The statements for the provers. -/

open Sys2Proof Sys2Proof.Machine

/-! ## Commands and their encoding -/

/-- R87: the table, and that its seven rows partition the 16 operation words, so the decoder finds a row for each. -/
def Obligations.OpcodeRowsPartition : Prop :=
  opcodeTable.map (fun r => (r.mask, r.pattern, r.kind)) =
    [(0b1100#4, 0b0000#4, .nop), (0b1100#4, 0b0100#4, .cfg), (0b1111#4, 0b1000#4, .tickDelay),
      (0b1111#4, 0b1001#4, .tickChorus), (0b1111#4, 0b1010#4, .tickFlanger), (0b1111#4, 0b1011#4, .reservedTickType3),
      (0b1100#4, 0b1100#4, .reservedCmdOp3)] ∧
  (∀ op : Opword, (findKind op).isSome = true) ∧
  ∀ op : Opword, ∃ r ∈ opcodeTable, r.covers op = true ∧ ∀ r' ∈ opcodeTable, r'.covers op = true → r' = r

/-- R82, R92 (section 6 of 30_encoding.md): the decoder reads back every instruction the encoder writes, with every
operand, whatever words follow. -/
def Obligations.DecodeReadsEncodedWords : Prop :=
  ∀ (i : Instr) (rest : List Word), decodeWords (encode i ++ rest) = .ok (i, rest)

/-- R61, R92: the same through the little-endian bytes. -/
def Obligations.DecodeReadsEncodedBytes : Prop :=
  ∀ (i : Instr) (rest : List Byte), decode (encodeBytes i ++ rest) = .ok (i, rest)

/-- R89, R92: one format per word and no second spelling; a list of words that decodes begins with the encoding of what it
decodes to. That a header at or above 16 is refused is the model's reading of R92 (log 14). -/
def Obligations.DecodedWordsAreTheEncoding : Prop :=
  ∀ (ws rest : List Word) (i : Instr), decodeWords ws = .ok (i, rest) → ws = encode i ++ rest

/-- R82, R92: exactly the well-formed frames decode without a word left over. -/
def Obligations.WellFormedFramesAreTheDecodable : Prop :=
  ∀ ws : List Word, frameWellFormed ws = true ↔ ∃ i : Instr, decodeWords ws = .ok (i, [])

/-- R87: one word of each row, written out from the table, with operands of P1 and P3 (95_test_vectors.md). -/
def Obligations.WrittenOutWordsDecode : Prop :=
  decodeWords [0x00000002] = .ok (.nop 2, []) ∧
  decodeWords [0x00000006, 0x44800000, 0x00000040, 0x3F800000] = .ok (.cfg 2 0x44800000 0x00000040 0x3F800000, []) ∧
  decodeWords [0x00000008, 0x3F800000, 0x3F800000, 0x3F800000, 0, 0, 0x40A00000, 0]
    = .ok (.tickDelay ⟨0x3F800000, 0x3F800000, 0x3F800000, 0, 0, 0x40A00000, 0⟩, []) ∧
  decodeWords [0x00000009, 0, 0, 0x3F800000, 0x3F000000, 0, 0x41800000, 0x3F000000]
    = .ok (.tickChorus ⟨0, 0, 0x3F800000, 0x3F000000, 0, 0x41800000, 0x3F000000⟩, []) ∧
  decodeWords [0x0000000A, 0, 0, 0x3F800000, 0, 0x3F800000, 0x3F800000, 0x3E800000]
    = .ok (.tickFlanger ⟨0, 0, 0x3F800000, 0, 0x3F800000, 0x3F800000, 0x3E800000⟩, []) ∧
  decodeWords [0x0000000D] = .ok (.reservedCmdOp3 1, []) ∧
  decodeWords [0x00000010] = .error .headerNotOpword

/-! ## The step -/

/-- R36, R81, R82 (sections 2 and 3 of 30_encoding.md): when the words sampled from the ports and the parameter registers
are those of instruction `i`, the step is `exec i`; around it the step only takes the event from the list (log 9), signals
`done` (log 10), and leaves the output ports open, since the outputs of the tick before do not survive (R43, log 7). -/
def Obligations.StepRunsPresentedCommand : Prop :=
  ∀ (s : State) (c : CommandPorts) (rest : List HostEvent) (i : Instr),
    s.inbox = .command c :: rest → sampledCommand c s.params = encode i →
    step s = exec i (leaveOutputsOpen { s with inbox := rest, done := true })

/-- R82, R87: every command the host can present is some instruction, with the operands the ports and the parameter
registers hold (R36). -/
def Obligations.EveryPresentedCommandIsSampled : Prop :=
  ∀ (c : CommandPorts) (p : Params),
    sampledCommand c p =
      encode (if c.cmdOp = 0b00#2 then .nop p.type
        else if c.cmdOp = 0b01#2 then .cfg p.type c.cfgSr c.cfgBlk p.rate
        else if c.cmdOp = 0b11#2 then .reservedCmdOp3 p.type
        else if p.type = 0 then .tickDelay ⟨c.inL, c.inR, p.dryWet, p.feedback, p.depth, p.rate, p.phaseOffset⟩
        else if p.type = 1 then .tickChorus ⟨c.inL, c.inR, p.dryWet, p.feedback, p.depth, p.rate, p.phaseOffset⟩
        else if p.type = 2 then .tickFlanger ⟨c.inL, c.inR, p.dryWet, p.feedback, p.depth, p.rate, p.phaseOffset⟩
        else .reservedTickType3 ⟨c.inL, c.inR, p.dryWet, p.feedback, p.depth, p.rate, p.phaseOffset⟩)

/-- The model's loading interface (log 9): the next step after `withFetchWord` runs the instruction that the decoder reads
from the same bits. -/
def Obligations.FetchWordIsRunNext : Prop :=
  ∀ (s : State) (nbits w : Nat) (i : Instr), decodeTableWord nbits w = some i →
    step (s.withFetchWord nbits w) =
      exec i (leaveOutputsOpen
        { s with params := paramsOfWords (tableWords nbits w) s.params, inbox := [], done := true })

/-- R36, R69: a parameter write changes that register and nothing the block owns, and it is what the next command samples;
R231: with no event the block keeps all state. `done` is 0 then (log 10) and the output ports are open (log 7). R43: no
step reads what the ports carry, and no step keeps it. -/
def Obligations.ParameterWritesAndIdle : Prop :=
  (∀ (s : State) (p : FParam) (v : Word) (rest : List HostEvent), s.inbox = .setParam p v :: rest →
    step s = .next (leaveOutputsOpen { s with params := s.params.set p v, inbox := rest, done := false })) ∧
  (∀ (s : State) (t : BitVec 2) (rest : List HostEvent), s.inbox = .setType t :: rest →
    step s = .next (leaveOutputsOpen { s with params := { s.params with type := t }, inbox := rest, done := false })) ∧
  (∀ s : State, s.inbox = [] → step s = .next (leaveOutputsOpen { s with done := false })) ∧
  (∀ (s : State) (l r : Word), step { s with outL := l, outR := r } = step s)

/-- R240, R41: the `RESET` event, in any mode: `STATUS`, `PH` and `FB` as the rule says, no buffer word, mode
`UNCONFIGURED`; the parameter registers stay with the store. -/
def Obligations.ResetEventEffects : Prop :=
  ∀ (s : State) (rest : List HostEvent), s.inbox = .reset :: rest →
    ∃ t : State, step s = .next t ∧ t.status = 0 ∧ t.ph = 0 ∧ t.fbL = 0 ∧ t.fbR = 0 ∧ t.mode = .unconfigured ∧
      (∀ c i, Memory.read (t.buf c) i = 0) ∧ t.params = s.params ∧ t.inbox = rest

/-- R41, U9: in mode `UNCONFIGURED` no command reads `W`, `SM`, `SR`, `LEN`, `BLK` or a buffer. Two states that differ only
there go on alike, and a valid `CFG` makes them equal; so no claim rests on the values the model names (log 5). -/
def Obligations.UnspecifiedValuesAreUnreadable : Prop :=
  ∀ (s s' : State) (i : Instr), statusCfg s.status = false → s.eraseUnconfigured = s'.eraseUnconfigured →
    onNext State.eraseUnconfigured (exec i s) = onNext State.eraseUnconfigured (exec i s') ∧
    ∀ (tb : BitVec 2) (sr blk rate : Word) (n : Nat), i = .cfg tb sr blk rate → bufferLength num sr = some n →
      s.mode ≠ .faulted → exec i s = exec i s'

/-! ## NOP and CFG -/

/-- R198: `NOP` has the words `00xx`, completes in every mode and changes nothing. -/
def Obligations.NopChangesNothing : Prop :=
  ∀ (tb : BitVec 2) (s : State),
    decodeWords [(0b00#2 ++ tb).setWidth 32] = .ok (.nop tb, []) ∧ exec (.nop tb) s = .next s

/-- R191, R195 (f), in exact arithmetic: a sample rate is valid exactly when it is finite and positive with
`1 ≤ floor(2 s) ≤ LEN_MAX`, and the length is that number. Consequences: valid are exactly the sample rates from 0.5 to
8 388 608. -/
def Obligations.BufferLengthIsFloorOfTwice : Prop :=
  (∀ (sr : Word) (n : Nat),
    bufferLength num sr = some n ↔
      f32IsFinite sr = true ∧ 0 < f32Rat sr ∧ (n : ℤ) = ⌊2 * f32Rat sr⌋ ∧ 1 ≤ n ∧ n ≤ 2 ^ 24) ∧
  ∀ sr : Word, (bufferLength num sr).isSome = true ↔ f32Le 0x3F000000 sr = true ∧ f32Le sr 0x4B000000 = true

/-- R192: the effects of a valid `CFG`, and all that it leaves unchanged; the length is `floor(sampleRate × 2)`. The model's
choices: `exec` leaves the output ports as the step has opened them (log 7), an index at or above `LEN` reads `+0.0` (log
11), and `done`, `inbox`, `freeIdx` are the model's own fields (logs 8 to 10). -/
def Obligations.ValidCfgEffects : Prop :=
  ∀ (tb : BitVec 2) (sr blk rate : Word) (s : State) (n : Nat),
    s.mode ≠ .faulted → bufferLength num sr = some n →
    ∃ t : State, exec (.cfg tb sr blk rate) s = .next t ∧
      t.sr = sr ∧ t.blk = blk ∧ t.len.toNat = n ∧ (n : ℤ) = ⌊2 * f32Rat sr⌋ ∧ (∀ c i, Memory.read (t.buf c) i = 0) ∧ t.w = 0 ∧
      t.sm = f32Div rate 0x41200000 ∧ statusCfg t.status = true ∧ statusErr t.status = false ∧
      t.ph = s.ph ∧ t.fbL = s.fbL ∧ t.fbR = s.fbR ∧ statusFlt t.status = statusFlt s.status ∧
      statusFch t.status = statusFch s.status ∧ statusReserved t.status = statusReserved s.status ∧
      t.params = s.params ∧ t.outL = s.outL ∧ t.outR = s.outR ∧ t.done = s.done ∧ t.inbox = s.inbox ∧
      t.freeIdx = s.freeIdx

/-- R193: the effects of an invalid `CFG`: `CFG` 0, `ERR` 1, nothing else; it completes. -/
def Obligations.InvalidCfgReports : Prop :=
  ∀ (tb : BitVec 2) (sr blk rate : Word) (s : State),
    s.mode ≠ .faulted → bufferLength num sr = none →
    ∃ st : BitVec 8, exec (.cfg tb sr blk rate) s = .next { s with status := st } ∧
      statusCfg st = false ∧ statusErr st = true ∧ statusFlt st = statusFlt s.status ∧
      statusFch st = statusFch s.status ∧ statusReserved st = statusReserved s.status

/-- R194: a second valid `CFG` with the same operands changes nothing more; after some ticks a `CFG` does change: it zeroes
the buffers and `W` and restarts `SM`, and keeps `PH` and `FB`. The model's choices: `exec` leaves the output ports as the
step has opened them (log 7), and an index at or above `LEN` reads `+0.0` (log 11). -/
def Obligations.CfgIsIdempotent : Prop :=
  ∀ (tb tb' : BitVec 2) (sr blk rate : Word) (s t : State) (n : Nat),
    bufferLength num sr = some n → exec (.cfg tb sr blk rate) s = .next t →
    exec (.cfg tb' sr blk rate) t = .next t ∧
    (s.mode ≠ .faulted →
      (∀ c i, Memory.read (t.buf c) i = 0) ∧ t.w = 0 ∧ t.sm = f32Div rate 0x41200000 ∧
      t.ph = s.ph ∧ t.fbL = s.fbL ∧ t.fbR = s.fbR)

/-! ## TICK -/

/-- R144, R108 (sections 2 of 42_delay_mode.md, 8 of 40_tick_sequence.md): `TICK.DELAY` in mode `READY` completes when its
read position has slots, with exactly these values; nothing else changes. -/
def Obligations.TickDelayCompletes : Prop :=
  ∀ (o : TickOperands) (s : State) (sm d : Word) (m0 m1 : Memory) (sl : Slots Word) (wetL wetR : Word),
    s.mode = .ready → s.w.toNat < s.len.toNat →
    sm = f32Sub s.sm (f32Mul 0x38D1B717 (f32Sub s.sm (f32Div o.rate 0x41200000))) →
    d = f32Mul sm s.sr →
    readSlots num s.len.toNat ((s.w.toNat + 1) % s.len.toNat) d = some sl →
    m0 = Memory.write s.bufL s.w.toNat (f32Add o.inL s.fbL) →
    m1 = Memory.write s.bufR s.w.toNat (f32Add o.inR s.fbR) →
    wetL = f32Add (f32Mul (f32Sub 0x3F800000 sl.fr) (Memory.read m0 sl.i0)) (f32Mul sl.fr (Memory.read m0 sl.i1)) →
    wetR = f32Add (f32Mul (f32Sub 0x3F800000 sl.fr) (Memory.read m1 sl.i0)) (f32Mul sl.fr (Memory.read m1 sl.i1)) →
    exec (.tickDelay o) s = .next { s with
      bufL := m0
      bufR := m1
      w := BitVec.ofNat 25 ((s.w.toNat + 1) % s.len.toNat)
      sm := sm
      fbL := f32Mul wetL o.feedback
      fbR := f32Mul wetR o.feedback
      outL := f32Add (f32Mul o.inL (f32Sub 0x3F800000 o.dryWet)) (f32Mul wetL o.dryWet)
      outR := f32Add (f32Mul o.inR (f32Sub 0x3F800000 o.dryWet)) (f32Mul wetR o.dryWet) }

/-- R169, R170, R171 (sections 1 and 2 of 43_modulated_mode.md): `TICK.CHORUS` and `TICK.FLANGER` in mode `READY` complete
when both read positions have slots, with exactly these values; nothing else changes. With a NaN
`P.rate` the times are NaN, and so without slots (R173 (f), R256 against the order of R169: log 20). -/
def Obligations.ModulatedTicksComplete : Prop :=
  ∀ (o : TickOperands) (i : Instr) (lo hi : Word) (s : State) (ph' phR dL dR : Word) (m0 m1 : Memory)
    (slL slR : Slots Word) (wetL wetR : Word),
    (i = .tickChorus o ∧ lo = 0x3A83126F ∧ hi = 0x3BA3D70A ∨ i = .tickFlanger o ∧ lo = 0x3BA3D70A ∧ hi = 0x3CF5C28F) →
    s.mode = .ready → s.w.toNat < s.len.toNat →
    phR = (let x := f32Add s.ph o.phaseOffset
           if f32Lt 0x3F800000 x then f32Sub x 0x3F800000 else x) →
    ph' = (let x := f32Add s.ph (f32Div o.rate s.sr)
           if f32Lt 0x3F800000 x then f32Sub x 0x3F800000 else x) →
    dL = (if f32IsNaN o.rate then o.rate
      else f32Mul s.sr (f32Add lo (f32Mul (f32Sub hi lo)
        (f32Div (f32Add (f32Mul (f32Sin2pi s.ph) o.depth) 0x3F800000) 0x40000000)))) →
    dR = (if f32IsNaN o.rate then o.rate
      else f32Mul s.sr (f32Add lo (f32Mul (f32Sub hi lo)
        (f32Div (f32Add (f32Mul (f32Sin2pi phR) o.depth) 0x3F800000) 0x40000000)))) →
    readSlots num s.len.toNat ((s.w.toNat + 1) % s.len.toNat) dL = some slL →
    readSlots num s.len.toNat ((s.w.toNat + 1) % s.len.toNat) dR = some slR →
    m0 = Memory.write s.bufL s.w.toNat (f32Add o.inL s.fbL) →
    m1 = Memory.write s.bufR s.w.toNat (f32Add o.inR s.fbR) →
    wetL = f32Add (f32Mul (f32Sub 0x3F800000 slL.fr) (Memory.read m0 slL.i0)) (f32Mul slL.fr (Memory.read m0 slL.i1)) →
    wetR = f32Add (f32Mul (f32Sub 0x3F800000 slR.fr) (Memory.read m1 slR.i0)) (f32Mul slR.fr (Memory.read m1 slR.i1)) →
    exec i s = .next { s with
      bufL := m0
      bufR := m1
      w := BitVec.ofNat 25 ((s.w.toNat + 1) % s.len.toNat)
      ph := ph'
      fbL := f32Mul wetL o.feedback
      fbR := f32Mul wetR o.feedback
      outL := f32Add (f32Mul o.inL (f32Sub 0x3F800000 o.dryWet)) (f32Mul wetL o.dryWet)
      outR := f32Add (f32Mul o.inR (f32Sub 0x3F800000 o.dryWet)) (f32Mul wetR o.dryWet) }

/-- R104: admission of a word of format `T`, in its order, and all that it changes; the output ports are unspecified. -/
def Obligations.AdmissionOrder : Prop :=
  ∀ (o : TickOperands) (i : Instr) (s : State), i ∈ formatT o →
    (statusFlt s.status ≠ 0 → NextButOutputs (exec i s) s) ∧
    (statusFlt s.status = 0 → statusCfg s.status = false →
      NextButOutputs (exec i s) { s with status := statusWithFault 3 false s.status }) ∧
    (statusFlt s.status = 0 → statusCfg s.status = true → i = .reservedTickType3 o →
      NextButOutputs (exec i s) { s with status := statusWithFault 4 false s.status })

/-- R212, R217 (5), (6), R218: a `TICK` whose left position has no slot raises `BufferUnderflow(0)`, one whose right
position only has none raises `BufferUnderflow(1)`; the stores, the advance of `W` and the update of `SM` or `PH` are
committed, and `FB` and everything else is not changed. With a NaN `P.rate` in a modulated state the times
are NaN (log 20). -/
def Obligations.UnderflowCommitsStepsOneToThree : Prop :=
  ∀ (o : TickOperands) (i : Instr) (s : State) (tm : Timed) (fch : Bool), i ∈ tickForms o →
    s.mode = .ready → s.w.toNat < s.len.toNat → timedOf s i = some tm →
    (slotsInTick s tm.dL = none ∧ fch = false ∨ slotsInTick s tm.dL ≠ none ∧ slotsInTick s tm.dR = none ∧ fch = true) →
    NextButOutputs (exec i s) { s with
      bufL := Memory.write s.bufL s.w.toNat (f32Add o.inL s.fbL)
      bufR := Memory.write s.bufR s.w.toNat (f32Add o.inR s.fbR)
      w := BitVec.ofNat 25 ((s.w.toNat + 1) % s.len.toNat)
      sm := tm.s.sm
      ph := tm.s.ph
      status := statusWithFault 2 fch s.status }

/-- R103: a tick that is admitted advances `W` by one modulo `LEN`; with `LEN = 1` it stays at 0; after exactly `LEN`
advances the head is back where it was, and not before. -/
def Obligations.HeadAdvancesModuloLength : Prop :=
  ∀ (o : TickOperands) (i : Instr) (s t : State), i ∈ tickForms o →
    s.mode = .ready → s.w.toNat < s.len.toNat → exec i s = .next t →
    t.w.toNat = (s.w.toNat + 1) % s.len.toNat ∧
    t.w.toNat = (if s.w.toNat + 1 = s.len.toNat then 0 else s.w.toNat + 1) ∧
    (s.len.toNat = 1 → t.w.toNat = 0) ∧
    (∀ k : Nat, ((nextHead s.len.toNat)^[k] s.w.toNat = s.w.toNat) ↔ s.len.toNat ∣ k)

/-- R102: an admitted tick stores `in + FB` at `W` in both buffers; R63: every other word of both is unchanged. The premise
is the canonical form of the buffer, which every step keeps (`StepKeepsInvariant`). -/
def Obligations.TickStoresOneWordPerBuffer : Prop :=
  ∀ (o : TickOperands) (i : Instr) (s t : State) (c : Channel) (j : Nat), i ∈ tickForms o →
    (s.buf c).wf = true → s.mode = .ready → exec i s = .next t →
    Memory.read (t.buf c) j = if j = s.w.toNat then storedWord o s c else Memory.read (s.buf c) j

/-- R62, R12: a tick whose `W` is no index of a word has no meaning; only states with `STATUS.CFG = 1` and `W ≥ LEN`, which
no run reaches, stop so (log 12). -/
def Obligations.StoreOutsideTheBufferStops : Prop :=
  ∀ (o : TickOperands) (i : Instr) (s : State), i ∈ tickForms o → s.mode = .ready → s.len.toNat ≤ s.w.toNat →
    exec i s = .fault (.noSuchWord .left s.w.toNat)

/-- R109: what no word of format `T` writes; `FLT` and `FCH` change only by a fault, from `FLT = 0`. The step's own fields
`done` and `inbox` stay too. -/
def Obligations.TickFrame : Prop :=
  ∀ (o : TickOperands) (i : Instr) (s t : State), i ∈ formatT o → exec i s = .next t →
    t.sr = s.sr ∧ t.len = s.len ∧ t.blk = s.blk ∧ t.params = s.params ∧
    statusCfg t.status = statusCfg s.status ∧ statusErr t.status = statusErr s.status ∧
    statusReserved t.status = statusReserved s.status ∧ t.done = s.done ∧ t.inbox = s.inbox ∧
    (t.status = s.status ∨
      statusFlt s.status = 0 ∧ (statusFlt t.status = 2 ∨ statusFlt t.status = 3 ∨ statusFlt t.status = 4))

/-- R84, R144: `TICK.DELAY` ignores `P.depth` and `P.phaseOffset` and leaves `PH`; the modulated ticks leave `SM`. -/
def Obligations.UnusedOperandsAndRegisters : Prop :=
  ∀ (o : TickOperands) (s t : State) (x y : Word),
    exec (.tickDelay { o with depth := x, phaseOffset := y }) s = exec (.tickDelay o) s ∧
    (exec (.tickDelay o) s = .next t → t.ph = s.ph) ∧
    (exec (.tickChorus o) s = .next t → t.sm = s.sm) ∧
    (exec (.tickFlanger o) s = .next t → t.sm = s.sm)

/-! ## Faults and modes -/

/-- R88, R214: the reserved words raise `IllegalCommand` and change no other state; this is their whole effect. -/
def Obligations.ReservedWordsRaiseIllegalCommand : Prop :=
  ∀ (tb : BitVec 2) (o : TickOperands) (s : State),
    (s.mode ≠ .faulted →
      NextButOutputs (exec (.reservedCmdOp3 tb) s) { s with status := statusWithFault 4 false s.status }) ∧
    (s.mode = .ready →
      NextButOutputs (exec (.reservedTickType3 o) s) { s with status := statusWithFault 4 false s.status })

/-- R210, R216, R26: a cause is recorded by its code only while `FLT = 0`, with the channel of a `BufferUnderflow`; the
other fields of `STATUS` and every other register stay, and the block is in mode `FAULTED`. -/
def Obligations.RaiseRecordsTheFirstCause : Prop :=
  ∀ (cause : Cause) (s t : State), t = raise cause s →
    NextButOutputs (.next t) { s with status := t.status } ∧ t.mode = .faulted ∧
    statusCfg t.status = statusCfg s.status ∧ statusErr t.status = statusErr s.status ∧
    statusReserved t.status = statusReserved s.status ∧
    (statusFlt s.status ≠ 0 → t.status = s.status) ∧
    (statusFlt s.status = 0 →
      statusFlt t.status = (match cause with
        | .bufferUnderflow _ => 2
        | .notConfigured => 3
        | .illegalCommand => 4) ∧
      statusFch t.status = decide (cause = .bufferUnderflow .right))

/-- R219: in mode `FAULTED` every command is refused: no state change, no new cause, `done` signalled; only the output
ports are left open. Such a state is none that a run may certify. -/
def Obligations.FaultedModeRefusesEveryCommand : Prop :=
  ∀ (s : State) (c : CommandPorts) (rest : List HostEvent), statusFlt s.status ≠ 0 → s.inbox = .command c :: rest →
    NextButOutputs (step s) { s with inbox := rest, done := true } ∧ s.certifiable = false

/-- R220: nothing but the `RESET` event leaves mode `FAULTED`, and that event does; a valid `CFG` clears the report of an
invalid one. -/
def Obligations.OnlyResetLeavesFaulted : Prop :=
  (∀ s t : State, s.mode = .faulted → step s = .next t → t.mode ≠ .faulted → ∃ rest, s.inbox = .reset :: rest) ∧
  (∀ (s : State) (rest : List HostEvent), s.inbox = .reset :: rest →
    ∃ t, step s = .next t ∧ t.status = 0 ∧ t.mode = .unconfigured) ∧
  (∀ (s t : State) (tb : BitVec 2) (sr blk rate : Word) (n : Nat), s.mode ≠ .faulted → bufferLength num sr = some n →
    exec (.cfg tb sr blk rate) s = .next t → statusErr t.status = false ∧ t.mode = .ready)

/-- R225: the modes are a function of `STATUS`, and the table of what each command does in each. -/
def Obligations.ModeTable : Prop :=
  ∀ (s t : State) (tb : BitVec 2) (sr blk rate : Word) (o : TickOperands) (rest : List HostEvent),
    (s.mode = .unconfigured ↔ statusFlt s.status = 0 ∧ statusCfg s.status = false) ∧
    (s.mode = .ready ↔ statusFlt s.status = 0 ∧ statusCfg s.status = true) ∧
    (s.mode = .faulted ↔ statusFlt s.status ≠ 0) ∧
    (exec (.nop tb) s = .next t → t.mode = s.mode) ∧
    (exec (.cfg tb sr blk rate) s = .next t →
      t.mode = (if s.mode = .faulted then .faulted
        else if (bufferLength num sr).isSome = true then .ready else .unconfigured)) ∧
    (∀ i ∈ tickForms o, exec i s = .next t →
      (s.mode = .unconfigured → t.mode = .faulted ∧ statusFlt t.status = 3) ∧
      (s.mode = .ready → t.mode = .ready ∨ t.mode = .faulted) ∧
      (s.mode = .faulted → t.mode = .faulted)) ∧
    (s.inbox = .reset :: rest → step s = .next t → t.mode = .unconfigured)

/-- R217: the cause a command records, in the fixed order; `FCH` tells the channel of a `BufferUnderflow`. The times of a tick
are `timedOf`: that a modulated tick with a NaN `P.rate` has NaN times is log 20. -/
def Obligations.CausePriority : Prop :=
  ∀ (s t : State) (i : Instr) (o : TickOperands), exec i s = .next t →
    (s.mode = .faulted → t.status = s.status) ∧
    (s.mode ≠ .faulted → (∃ tb, i = .reservedCmdOp3 tb) → statusFlt t.status = 4) ∧
    (s.mode = .unconfigured → i ∈ formatT o → statusFlt t.status = 3) ∧
    (s.mode = .ready → i = .reservedTickType3 o → statusFlt t.status = 4) ∧
    (s.mode = .ready → i ∈ tickForms o → ∀ tm, timedOf s i = some tm →
      (slotsInTick s tm.dL = none → statusFlt t.status = 2 ∧ statusFch t.status = false) ∧
      (slotsInTick s tm.dL ≠ none → slotsInTick s tm.dR = none →
        statusFlt t.status = 2 ∧ statusFch t.status = true) ∧
      (slotsInTick s tm.dL ≠ none → slotsInTick s tm.dR ≠ none → t.status = s.status)) ∧
    (s.mode ≠ .faulted → (∃ tb sr blk rate, i = .cfg tb sr blk rate) → statusFlt t.status = 0)

/-! ## The whole machine -/

/-- R41: the state after reset meets the invariant, in mode `UNCONFIGURED` with `PH` and `FB` at `+0.0`. -/
def Obligations.ResetMeetsInvariant : Prop :=
  State.reset.Inv ∧ State.reset.mode = .unconfigured ∧ State.reset.ph = 0 ∧ State.reset.fbL = 0 ∧ State.reset.fbR = 0

/-- R42 (a), (b), R26, R60: every step keeps the invariant. -/
def Obligations.StepKeepsInvariant : Prop :=
  ∀ s t : State, s.Inv → step s = .next t → t.Inv

/-- R109, R14: a step of a state that meets the invariant always answers a next state: no command hangs, and none is
without a meaning. -/
def Obligations.StepAlwaysAnswers : Prop :=
  ∀ s : State, s.Inv → ∃ t : State, step s = .next t

/-- R22, R23, R24, R27 to R29, R39: which events can change each register and buffer. -/
def Obligations.RegisterWriters : Prop :=
  ∀ (s t : State) (i : Instr), exec i s = .next t →
    (t.ph ≠ s.ph → ∃ o, i = .tickChorus o ∨ i = .tickFlanger o) ∧
    (t.sm ≠ s.sm → (∃ o, i = .tickDelay o) ∨ ∃ tb sr blk rate, i = .cfg tb sr blk rate) ∧
    (t.fbL ≠ s.fbL ∨ t.fbR ≠ s.fbR → ∃ o, i ∈ tickForms o) ∧
    (t.w ≠ s.w → (∃ o, i ∈ tickForms o) ∨ ∃ tb sr blk rate, i = .cfg tb sr blk rate) ∧
    (t.bufL ≠ s.bufL ∨ t.bufR ≠ s.bufR → (∃ o, i ∈ tickForms o) ∨ ∃ tb sr blk rate, i = .cfg tb sr blk rate) ∧
    (t.sr ≠ s.sr ∨ t.len ≠ s.len ∨ t.blk ≠ s.blk →
      ∃ tb sr blk rate, i = .cfg tb sr blk rate ∧ bufferLength num sr ≠ none ∧ s.mode ≠ .faulted) ∧
    t.params = s.params ∧ t.inbox = s.inbox ∧ t.done = s.done

/-- R106, R187 (d): no lane's outcome depends on the other lane's samples, carry or buffer. -/
def Obligations.LanesDoNotMix : Prop :=
  (∀ (o : TickOperands) (s s' : State) (x : Word), s.eraseRight = s'.eraseRight →
    onNext State.eraseRight (exec (.tickDelay o) s) = onNext State.eraseRight (exec (.tickDelay { o with inR := x }) s') ∧
    onNext State.eraseRight (exec (.tickChorus o) s) =
      onNext State.eraseRight (exec (.tickChorus { o with inR := x }) s') ∧
    onNext State.eraseRight (exec (.tickFlanger o) s) =
      onNext State.eraseRight (exec (.tickFlanger { o with inR := x }) s')) ∧
  (∀ (o : TickOperands) (s s' : State) (x : Word), s.eraseLeft = s'.eraseLeft →
    onNext State.eraseLeft (exec (.tickDelay o) s) = onNext State.eraseLeft (exec (.tickDelay { o with inL := x }) s') ∧
    onNext State.eraseLeft (exec (.tickChorus o) s) =
      onNext State.eraseLeft (exec (.tickChorus { o with inL := x }) s') ∧
    onNext State.eraseLeft (exec (.tickFlanger o) s) =
      onNext State.eraseLeft (exec (.tickFlanger { o with inL := x }) s'))

/-- R29, R195 (b): no command depends on `BLK`. -/
def Obligations.BlockSizeIsNeverRead : Prop :=
  ∀ (i : Instr) (s : State) (b : Word),
    onNext (fun t => { t with blk := 0 }) (exec i { s with blk := b }) = onNext (fun t => { t with blk := 0 }) (exec i s)

/-- R91, R196, R197: `PROCESS` is one `TICK` per frame in order, it collects the output pair of each, `PROCESS 0` is
nothing, and a block may be cut anywhere: the parts give the same outputs and the same final state. -/
def Obligations.ProcessIsTicksInOrder : Prop :=
  (∀ (type : BitVec 2) (n : Nat) (ls rs : List Word), (Line.process n ls rs).wellFormed = true →
    lineEvents type (.process n ls rs) = some ((ls.zip rs).map fun x => tickEvent x.1 x.2)) ∧
  (∀ type : BitVec 2, lineEvents type (.process 0 [] []) = some []) ∧
  (∀ (type : BitVec 2) (a b : Nat) (ls rs ls' rs' : List Word), (Line.process a ls rs).wellFormed = true →
    (Line.process b ls' rs').wellFormed = true →
    programEvents type [.process (a + b) (ls ++ ls') (rs ++ rs')] =
      programEvents type [.process a ls rs, .process b ls' rs']) ∧
  (∀ s : State, process 0 [] [] s = .next ⟨[], [], s⟩) ∧
  (∀ (n : Nat) (ls rs : List Word) (s : State) (p : Processed), (Line.process n ls rs).wellFormed = true →
    process n ls rs s = .next p →
    p.outL.length = n ∧ p.outR.length = n ∧
    core.run n (present (processEvents ls rs) s) = .next p.s ∧
    ∀ k, k < n → ∃ t : State, core.run (k + 1) (present (processEvents ls rs) s) = .next t ∧
      p.outL[k]? = some t.outL ∧ p.outR[k]? = some t.outR) ∧
  (∀ (a b : Nat) (ls rs ls' rs' : List Word) (s : State) (p q : Processed),
    (Line.process a ls rs).wellFormed = true → (Line.process b ls' rs').wellFormed = true →
    process a ls rs s = .next p → process b ls' rs' p.s = .next q →
    process (a + b) (ls ++ ls') (rs ++ rs') s = .next ⟨p.outL ++ q.outL, p.outR ++ q.outR, q.s⟩)

/-! ## Arithmetic: binary32 -/

/-- R6 (D1): additions and subtractions are rounded to nearest, ties to even, where no operand and no result is
subnormal. -/
def Obligations.SumsRoundToNearestEven : Prop :=
  ∀ a b : Word, f32IsFinite a = true → f32IsFinite b = true → NotSubnormal a → NotSubnormal b →
    (InNormalRange (f32Rat a + f32Rat b) → NearestEven (f32Rat a + f32Rat b) (f32Add a b)) ∧
    (InNormalRange (f32Rat a - f32Rat b) → NearestEven (f32Rat a - f32Rat b) (f32Sub a b))

/-- R6 (D1): multiplications and divisions are rounded to nearest, ties to even, where no operand and no result is
subnormal. -/
def Obligations.ProductsAndQuotientsRoundToNearestEven : Prop :=
  ∀ a b : Word, f32IsFinite a = true → f32IsFinite b = true → NotSubnormal a → NotSubnormal b →
    (InNormalRange (f32Rat a * f32Rat b) → NearestEven (f32Rat a * f32Rat b) (f32Mul a b)) ∧
    (InNormalRange (f32Rat a / f32Rat b) → NearestEven (f32Rat a / f32Rat b) (f32Div a b))

/-- R13, R124 (G2, G3): a NaN operand makes every result NaN and every comparison false. R256, R173 (f): a NaN in `P.rate`
makes `SM` (state DELAY) or `PH` (modulated states) NaN and faults the tick (log 20); a NaN `PH` stays NaN and faults every
admitted modulated tick; NaN in `P.depth` or `P.phaseOffset` faults a modulated tick. -/
def Obligations.NanPropagates : Prop :=
  (∀ a b : Word, f32IsNaN a = true ∨ f32IsNaN b = true →
    f32IsNaN (f32Add a b) = true ∧ f32IsNaN (f32Sub a b) = true ∧ f32IsNaN (f32Mul a b) = true ∧
    f32IsNaN (f32Div a b) = true ∧ f32Lt a b = false ∧ f32Le a b = false) ∧
  (∀ (o : TickOperands) (s : State), s.mode = .ready → s.w.toNat < s.len.toNat → f32IsNaN o.rate = true →
    ∃ t : State, exec (.tickDelay o) s = .next t ∧ f32IsNaN t.sm = true ∧ statusFlt t.status = 2 ∧
      statusFch t.status = false) ∧
  (∀ (o : TickOperands) (i : Instr) (s : State), i = .tickChorus o ∨ i = .tickFlanger o → s.mode = .ready →
    s.w.toNat < s.len.toNat →
    (f32IsNaN o.rate = true ∨ f32IsNaN s.ph = true →
      ∃ t : State, exec i s = .next t ∧ f32IsNaN t.ph = true ∧ statusFlt t.status = 2 ∧ statusFch t.status = false) ∧
    (f32IsNaN o.depth = true → ∃ t : State, exec i s = .next t ∧ statusFlt t.status = 2 ∧ statusFch t.status = false) ∧
    (f32IsNaN o.phaseOffset = true → ∃ t : State, exec i s = .next t ∧ statusFlt t.status = 2))

/-- R129: `itof` is exact up to `2^24`, and the fraction of a read position is exact and in `[0, 1)` (for a position that
is not subnormal, R186). -/
def Obligations.IndexConversionsAreExact : Prop :=
  (∀ n : Nat, n ≤ 2 ^ 24 → f32IsFinite (f32OfNat n) = true ∧ f32Rat (f32OfNat n) = n) ∧
  (∀ (len : Nat) (p : Word) (sl : Slots Word), len ≤ 2 ^ 24 → NotSubnormal p → slotsOf num len p = some sl →
    f32Rat sl.fr = f32Rat p - sl.i0 ∧ 0 ≤ f32Rat sl.fr ∧ f32Rat sl.fr < 1)

/-- R163 (a), (b) and the sentence on NaN: the laws of `SIN2PI`; with law (a) some `SIN_ERR` always exists (d). -/
def Obligations.SineLaws : Prop :=
  (∀ x : Word, f32IsFinite x = true →
    f32IsFinite (f32Sin2pi x) = true ∧ -1 ≤ f32Rat (f32Sin2pi x) ∧ f32Rat (f32Sin2pi x) ≤ 1) ∧
  f32Sin2pi 0 = 0 ∧
  (∀ x : Word, f32IsFinite x = false → f32IsNaN (f32Sin2pi x) = true) ∧
  SineAccurate 2

/-- R127: the slots of a position are words of the buffer and adjacent modulo the length; a NaN or infinite delay time
has none. -/
def Obligations.SlotsAreAdjacentWords : Prop :=
  (∀ (len w : Nat) (d : Word) (sl : Slots Word), readSlots num len w d = some sl →
    sl.i0 < len ∧ sl.i1 = (sl.i0 + 1) % len) ∧
  (∀ (len w : Nat) (d : Word), w ≤ 2 ^ 24 → len ≤ 2 ^ 24 → f32IsFinite d = false → readSlots num len w d = none)

/-- R130 (a), (b), R66: delay time 1 reads the word the same tick has stored, delay time 0 the oldest word, each with
weight 1, for every length and write head. -/
def Obligations.DelayOneReadsTheStoredWord : Prop :=
  ∀ len w : Nat, w < len → len ≤ 2 ^ 24 →
    readSlots num len (nextHead len w) 0x3F800000 = some ⟨w, nextHead len w, 0⟩ ∧
    readSlots num len (nextHead len w) 0 = some ⟨nextHead len w, nextHead len (nextHead len w), 0⟩

/-- R123: the ends of the interpolation are exact in binary32, for finite words none of which is subnormal. -/
def Obligations.LerpEndpoints : Prop :=
  ∀ a b : Word, f32IsFinite a = true → f32IsFinite b = true → NotSubnormal a → NotSubnormal b →
    f32IsFinite (lerp num a b 0) = true ∧ f32Rat (lerp num a b 0) = f32Rat a ∧
    f32IsFinite (lerp num a b 0x3F800000) = true ∧ f32Rat (lerp num a b 0x3F800000) = f32Rat b

/-- R183 (a), (b): with `dryWet = 0` the output is the input, with `dryWet = 1` the wet sample, in value, for finite samples
none of which is subnormal. -/
def Obligations.DryAndWetIdentities : Prop :=
  ∀ input wet : Word, f32IsFinite input = true → f32IsFinite wet = true → NotSubnormal input → NotSubnormal wet →
    f32IsFinite (mix num input wet 0) = true ∧ f32Rat (mix num input wet 0) = f32Rat input ∧
    f32IsFinite (mix num input wet 0x3F800000) = true ∧ f32Rat (mix num input wet 0x3F800000) = f32Rat wet

/-- R143: at its target the smoother is at rest exactly, for every finite value that is not subnormal. -/
def Obligations.SmootherRestsAtItsTarget : Prop :=
  ∀ sm : Word, f32IsFinite sm = true → NotSubnormal sm → smooth num sm sm = sm

/-- R143, R42 (d): in binary32 each update leaves `SM` between its value and the target, for values from 0.01 to 2. -/
def Obligations.SmootherStaysBetweenValueAndTarget : Prop :=
  ∀ sm target : Word, f32IsFinite sm = true → f32IsFinite target = true →
    f32Rat 0x3C23D70A ≤ f32Rat sm → f32Rat sm ≤ 2 → f32Rat 0x3C23D70A ≤ f32Rat target → f32Rat target ≤ 2 →
    f32IsFinite (smooth num sm target) = true ∧
    (f32Rat sm ≤ f32Rat target →
      f32Rat sm ≤ f32Rat (smooth num sm target) ∧ f32Rat (smooth num sm target) ≤ f32Rat target) ∧
    (f32Rat target ≤ f32Rat sm →
      f32Rat target ≤ f32Rat (smooth num sm target) ∧ f32Rat (smooth num sm target) ≤ f32Rat sm)

/-- R42 (c), R168: with parameters in range and `SR ≥ 20` a modulated tick keeps `PH` in `[0, 1]`, in binary32. -/
def Obligations.PhaseStaysInUnitInterval : Prop :=
  ∀ (o : TickOperands) (s t : State), ParametersInRange o → f32IsFinite s.sr = true → 20 ≤ f32Rat s.sr →
    f32IsFinite s.ph = true → 0 ≤ f32Rat s.ph → f32Rat s.ph ≤ 1 →
    exec (.tickChorus o) s = .next t ∨ exec (.tickFlanger o) s = .next t →
    f32IsFinite t.ph = true ∧ 0 ≤ f32Rat t.ph ∧ f32Rat t.ph ≤ 1

/-- R173 (a), R166: with depth 0 the delay time is `SR × Map(0)`, the middle of the range, whatever the sine and the
phase. -/
def Obligations.DepthZeroIgnoresTheSine : Prop :=
  ∀ sr ph : Word, f32IsFinite ph = true →
    modulatedTime num num.chorusLo num.chorusHi sr 0 ph = f32Mul sr 0x3B449BA6 ∧
    modulatedTime num num.flangerLo num.flangerHi sr 0 ph = f32Mul sr 0x3C8F5C28

/-! ## Arithmetic: the rules over the real numbers -/

/-- R143: the smoother's closed form with a constant target, in ideal arithmetic. -/
def Obligations.IdealSmootherClosedForm : Prop :=
  ∀ (sm target : ℝ) (n : Nat),
    (fun x => smooth idealNum x target)^[n] sm = target + (sm - target) * (9999 / 10000) ^ n

/-- R123: in ideal arithmetic the interpolation lies between its two words and meets them at its ends. -/
def Obligations.IdealLerpIsConvex : Prop :=
  ∀ a b fr : ℝ, 0 ≤ fr → fr ≤ 1 →
    min a b ≤ lerp idealNum a b fr ∧ lerp idealNum a b fr ≤ max a b ∧
    lerp idealNum a b 0 = a ∧ lerp idealNum a b 1 = b ∧ lerp idealNum a a fr = a

/-- R163, R164, R166: in ideal arithmetic, with the depth in `[0, 1]`, the delay times of the two modulated states stay in
their ranges; the map takes `-1`, `0`, `1` to the lower end, the middle and the upper end. -/
def Obligations.IdealDelayTimesStayInRange : Prop :=
  (∀ sr depth ph : ℝ, 0 ≤ sr → 0 ≤ depth → depth ≤ 1 →
    1 / 1000 * sr ≤ modulatedTime idealNum idealNum.chorusLo idealNum.chorusHi sr depth ph ∧
    modulatedTime idealNum idealNum.chorusLo idealNum.chorusHi sr depth ph ≤ 5 / 1000 * sr ∧
    5 / 1000 * sr ≤ modulatedTime idealNum idealNum.flangerLo idealNum.flangerHi sr depth ph ∧
    modulatedTime idealNum idealNum.flangerLo idealNum.flangerHi sr depth ph ≤ 3 / 100 * sr) ∧
  (∀ lo hi : ℝ, mapTime idealNum lo hi (-1) = lo ∧ mapTime idealNum lo hi 0 = (lo + hi) / 2 ∧
    mapTime idealNum lo hi 1 = hi)

/-- R170: in ideal arithmetic a modulated tick with parameters in range never underflows. -/
def Obligations.IdealModulatedReadsHaveSlots : Prop :=
  ∀ (sr depth ph : ℝ) (len w : Nat), 0 < sr → 0 ≤ depth → depth ≤ 1 → (len : ℤ) = ⌊sr * 2⌋ → w < len →
    readSlots idealNum len w (modulatedTime idealNum idealNum.chorusLo idealNum.chorusHi sr depth ph) ≠ none ∧
    readSlots idealNum len w (modulatedTime idealNum idealNum.flangerLo idealNum.flangerHi sr depth ph) ≠ none

/-- R252, R130 (f): in ideal arithmetic a delay time above `W + LEN` has no slots, and one above `LEN` but not above
`W + LEN` reads as `D − LEN` does. -/
def Obligations.IdealDelayBeyondTheLength : Prop :=
  ∀ (len w : Nat) (d : ℝ), w < len → (len : ℝ) < d →
    (w + len < d → readSlots idealNum len w d = none) ∧
    (d ≤ w + len → readSlots idealNum len w d ≠ none ∧ readSlots idealNum len w d = readSlots idealNum len w (d - len))

/-- R185, one tick of the induction: in ideal arithmetic, with inputs up to `A`, a feedback gain `g < 1`, and stored words
and carry bounded by `A / (1 − g)` and `g` times that, the new stored word, the wet sample, the new carry and the output
keep the bounds; for `g ≤ 0.98` the bound is at most `50 A`. -/
def Obligations.IdealFeedbackStaysBounded : Prop :=
  ∀ A g input fb a b fr dryWet : ℝ, 0 ≤ g → g < 1 → |input| ≤ A → |fb| ≤ g * (A / (1 - g)) →
    |a| ≤ A / (1 - g) → |b| ≤ A / (1 - g) → 0 ≤ fr → fr ≤ 1 → 0 ≤ dryWet → dryWet ≤ 1 →
    |idealNum.fadd input fb| ≤ A / (1 - g) ∧ |lerp idealNum a b fr| ≤ A / (1 - g) ∧
    |carry idealNum (lerp idealNum a b fr) g| ≤ g * (A / (1 - g)) ∧
    |mix idealNum input (lerp idealNum a b fr) dryWet| ≤ A / (1 - g) ∧
    (g ≤ 98 / 100 → A / (1 - g) ≤ 50 * A)

/-- R113: in ideal arithmetic the read of tick `n` with delay time `D` interpolates the stored sequence at time
`n − (D − 1)`; `u` is what the slots hold, indexed by tick and so periodic in the length. -/
def Obligations.IdealRealisedDelay : Prop :=
  ∀ (len n : Nat) (d : ℝ) (u : ℤ → ℝ), 1 ≤ d → d ≤ len → (∀ z : ℤ, u (z + len) = u z) →
    ∃ sl : Slots ℝ, readSlots idealNum len ((n + 1) % len) d = some sl ∧
      lerp idealNum (u sl.i0) (u sl.i1) sl.fr =
        (d - ⌊d⌋) * u (n - ⌊d⌋) + (1 - (d - ⌊d⌋)) * u (n - ⌊d⌋ + 1)

/-- R168, R172: in ideal arithmetic, with an increment `r` in `[0, 1]`, the phase stays in `[0, 1]` and after `n` advances
is the start plus `n × r` up to a whole number of cycles. -/
def Obligations.IdealPhaseAdvances : Prop :=
  ∀ (ph rate sr : ℝ) (n : Nat), 0 ≤ ph → ph ≤ 1 → 0 ≤ rate / sr → rate / sr ≤ 1 →
    0 ≤ (fun x => advancePhase idealNum x rate sr)^[n] ph ∧
    (fun x => advancePhase idealNum x rate sr)^[n] ph ≤ 1 ∧
    ∃ k : ℤ, (fun x => advancePhase idealNum x rate sr)^[n] ph = ph + n * (rate / sr) - k
end

