-- ==== Sys2Proof/Laws/Binary32.lean ====
section
/-! SUPPORT. Binary32 patterns and rounding: what a pattern's fields are, and that rounding keeps exact values, keeps
order, and picks a nearest pattern with ties to even. -/

namespace Sys2Proof.Machine

/-! ### The fields of `num` -/

@[simp] theorem num_fadd : num.fadd = f32Add := rfl
@[simp] theorem num_fsub : num.fsub = f32Sub := rfl
@[simp] theorem num_fmul : num.fmul = f32Mul := rfl
@[simp] theorem num_fdiv : num.fdiv = f32Div := rfl
@[simp] theorem num_lt : num.lt = f32Lt := rfl
@[simp] theorem num_le : num.le = f32Le := rfl
@[simp] theorem num_isNaN : num.isNaN = f32IsNaN := rfl
@[simp] theorem num_isInf : num.isInf = f32IsInf := rfl
@[simp] theorem num_floor : num.floor = f32Floor := rfl
@[simp] theorem num_itof : num.itof = f32OfNat := rfl
@[simp] theorem num_sin2pi : num.sin2pi = f32Sin2pi := rfl
@[simp] theorem num_zero : num.zero = 0x00000000 := rfl
@[simp] theorem num_one : num.one = 0x3F800000 := rfl
@[simp] theorem num_two : num.two = 0x40000000 := rfl
@[simp] theorem num_ten : num.ten = 0x41200000 := rfl
@[simp] theorem num_kSmooth : num.kSmooth = 0x38D1B717 := rfl
@[simp] theorem num_chorusLo : num.chorusLo = 0x3A83126F := rfl
@[simp] theorem num_chorusHi : num.chorusHi = 0x3BA3D70A := rfl
@[simp] theorem num_flangerLo : num.flangerLo = 0x3BA3D70A := rfl
@[simp] theorem num_flangerHi : num.flangerHi = 0x3CF5C28F := rfl

/-! ### Patterns -/

theorem f32Bits_lt (x : Word) : f32Bits x < 2 ^ 31 := Nat.mod_lt _ (by norm_num)

theorem f32Pack_toNat (s : Bool) (b : Nat) (h : b < 2 ^ 31) :
    (f32Pack s b).toNat = if s then 2 ^ 31 + b else b := by
  have h2 : (if s then 2 ^ 31 + b else b) < 2 ^ 32 := by
    cases s <;> simp at h ⊢ <;> omega
  simp only [f32Pack, BitVec.toNat_ofNat]
  exact Nat.mod_eq_of_lt h2

@[simp] theorem f32Bits_pack (s : Bool) (b : Nat) (h : b < 2 ^ 31) : f32Bits (f32Pack s b) = b := by
  simp only [f32Bits, f32Pack_toNat s b h]
  cases s <;> simp at h ⊢ <;> omega

@[simp] theorem f32Sign_pack (s : Bool) (b : Nat) (h : b < 2 ^ 31) : f32Sign (f32Pack s b) = s := by
  simp only [f32Sign, f32Pack_toNat s b h]
  cases s <;> simp at h ⊢; omega

/-- A pattern is its sign and its bits 30:0. -/
theorem f32Pack_self (x : Word) : f32Pack (f32Sign x) (f32Bits x) = x := by
  apply BitVec.eq_of_toNat_eq
  rw [f32Pack_toNat _ _ (f32Bits_lt x)]
  have hx := x.isLt
  simp only [f32Sign, f32Bits, decide_eq_true_eq]
  split <;> omega

theorem f32_ext {x y : Word} (hs : f32Sign x = f32Sign y) (hb : f32Bits x = f32Bits y) : x = y := by
  rw [← f32Pack_self x, ← f32Pack_self y, hs, hb]

/-- Every NaN result is NaN (R124). -/
@[simp] theorem f32IsNaN_f32NaN (op : NanSource) (a b : Word) : f32IsNaN (f32NaN op a b) = true := by
  have h : infBits + 1 + (Config.nanBits op a b).toNat % (2 ^ 23 - 1) < 2 ^ 31 := by
    have := Nat.mod_lt (Config.nanBits op a b).toNat (show 0 < 2 ^ 23 - 1 by norm_num)
    unfold infBits; omega
  simp only [f32IsNaN, f32NaN, f32Bits_pack _ _ h, decide_eq_true_eq]
  omega

/-- A NaN is not flushed (R186). -/
theorem flushSubnormal_of_nan {x : Word} (h : f32IsNaN x = true) : flushSubnormal x = x := by
  have hs : f32IsSubnormal x = false := by
    have h1 : infBits < f32Bits x := of_decide_eq_true h
    have h2 : infBits = 0x7F800000 := rfl
    simp only [f32IsSubnormal, Bool.and_eq_false_iff, decide_eq_false_iff_not]
    omega
  simp [flushSubnormal, hs]

theorem f32IsNaN_neg (x : Word) : f32IsNaN (f32Neg x) = f32IsNaN x := by
  simp only [f32IsNaN, f32Neg, f32Bits_pack _ _ (f32Bits_lt x)]

/-- A sum with a NaN is NaN (R124). -/
theorem f32Sum_nan {op : NanSource} {a b x y : Word} (h : f32IsNaN x = true ∨ f32IsNaN y = true) :
    f32IsNaN (f32Sum op a b x y) = true := by
  rw [f32Sum, if_pos (by rcases h with h | h <;> simp [h]), f32IsNaN_f32NaN]

/-- A product with a NaN is NaN (R124). -/
theorem f32Product_nan {a b x y : Word} (h : f32IsNaN x = true ∨ f32IsNaN y = true) :
    f32IsNaN (f32Product a b x y) = true := by
  rw [f32Product, if_pos (by rcases h with h | h <;> simp [h]), f32IsNaN_f32NaN]

/-- A quotient with a NaN is NaN (R124). -/
theorem f32Quotient_nan {a b x y : Word} (h : f32IsNaN x = true ∨ f32IsNaN y = true) :
    f32IsNaN (f32Quotient a b x y) = true := by
  rw [f32Quotient, if_pos (by rcases h with h | h <;> simp [h]), f32IsNaN_f32NaN]

theorem f32IsFinite_iff (x : Word) : f32IsFinite x = true ↔ f32IsNaN x = false ∧ f32IsInf x = false := by
  simp only [f32IsFinite, f32IsNaN, f32IsInf, decide_eq_true_eq, decide_eq_false_iff_not, beq_eq_false_iff_ne]
  omega

theorem f32Bits_neg (x : Word) : f32Bits (f32Neg x) = f32Bits x := f32Bits_pack _ _ (f32Bits_lt x)

theorem f32Sign_neg (x : Word) : f32Sign (f32Neg x) = !f32Sign x := f32Sign_pack _ _ (f32Bits_lt x)

theorem f32Mag_neg (x : Word) : f32Mag (f32Neg x) = f32Mag x := by simp [f32Mag, f32Bits_neg]

theorem f32Int_neg (x : Word) : f32Int (f32Neg x) = -f32Int x := by
  simp only [f32Int, f32Sign_neg, f32Mag_neg]
  cases f32Sign x <;> simp

@[simp] theorem f32Mag_pack (s : Bool) (b : Nat) (h : b < 2 ^ 31) : f32Mag (f32Pack s b) = magOfBits b := by
  simp [f32Mag, f32Bits_pack s b h]

/-- A pattern that is no subnormal is not flushed (R186). -/
theorem flushSubnormal_of_not_subnormal (x : Word) (h : f32IsSubnormal x = false) : flushSubnormal x = x := by
  simp [flushSubnormal, h]

/-- Flushing leaves the pattern or makes it a zero of its sign, and the second only for a subnormal (R186). -/
theorem flushSubnormal_cases (x : Word) :
    flushSubnormal x = x ∨ f32IsSubnormal x = true ∧ flushSubnormal x = f32Pack (f32Sign x) 0 := by
  unfold flushSubnormal
  split
  · next h => exact .inr ⟨by simp_all, rfl⟩
  · exact .inl rfl

/-! ### Magnitudes -/

/-- A significand `m` with the exponent `sh` of its last place gives the bits `sh * 2^23 + m`. -/
theorem magOfBits_parts (sh m : Nat) (h : sh = 0 ∨ 2 ^ 23 ≤ m) (hm : m ≤ 2 ^ 24) :
    magOfBits (sh * 2 ^ 23 + m) = m * 2 ^ sh := by
  unfold magOfBits
  rcases Nat.lt_or_ge m (2 ^ 23) with hlt | hge
  · have : sh = 0 := by omega
    subst this
    rw [if_pos (by omega)]
    simp
  · have hnot : ¬ sh * 2 ^ 23 + m < 2 ^ 23 := by omega
    rw [if_neg hnot]
    rcases Nat.lt_or_ge m (2 ^ 24) with hlt2 | hge2
    · have hdiv : (sh * 2 ^ 23 + m) / 2 ^ 23 = sh + 1 := by omega
      have hmod : (sh * 2 ^ 23 + m) % 2 ^ 23 = m - 2 ^ 23 := by omega
      rw [hdiv, hmod, Nat.add_sub_cancel' hge]
      rfl
    · have hm' : m = 2 ^ 24 := by omega
      subst hm'
      have hdiv : (sh * 2 ^ 23 + 2 ^ 24) / 2 ^ 23 = sh + 2 := by omega
      have hmod : (sh * 2 ^ 23 + 2 ^ 24) % 2 ^ 23 = 0 := by omega
      rw [hdiv, hmod]
      simp only [show sh + 2 - 1 = sh + 1 by omega, pow_succ]
      ring

/-- The significand and the exponent of its last place of given bits. -/
theorem magOfBits_cases (b : Nat) :
    ∃ sh m, b = sh * 2 ^ 23 + m ∧ (sh = 0 ∨ 2 ^ 23 ≤ m) ∧ m < 2 ^ 24 ∧ magOfBits b = m * 2 ^ sh := by
  refine ⟨b / 2 ^ 23 - 1, b - (b / 2 ^ 23 - 1) * 2 ^ 23, by omega, by omega, by omega, ?_⟩
  have h := magOfBits_parts (b / 2 ^ 23 - 1) (b - (b / 2 ^ 23 - 1) * 2 ^ 23) (by omega) (by omega)
  rwa [show (b / 2 ^ 23 - 1) * 2 ^ 23 + (b - (b / 2 ^ 23 - 1) * 2 ^ 23) = b by omega] at h

/-- Magnitudes order bits strictly. -/
theorem magOfBits_lt {b b' : Nat} (h : b < b') : magOfBits b < magOfBits b' := by
  obtain ⟨sh, m, hb, hsh, hm, hmag⟩ := magOfBits_cases b
  obtain ⟨sh', m', hb', hsh', hm', hmag'⟩ := magOfBits_cases b'
  rw [hmag, hmag']
  rcases Nat.lt_trichotomy sh sh' with hlt | heq | hgt
  · obtain ⟨k, rfl⟩ : ∃ k, sh' = sh + 1 + k := ⟨sh' - (sh + 1), by omega⟩
    have hm2 : 2 ^ 23 ≤ m' := by omega
    calc m * 2 ^ sh < 2 ^ 24 * 2 ^ sh := Nat.mul_lt_mul_of_pos_right hm (by positivity)
      _ = 2 ^ 23 * 2 ^ (sh + 1) := by rw [pow_succ]; ring
      _ ≤ m' * 2 ^ (sh + 1 + k) := Nat.mul_le_mul hm2 (Nat.pow_le_pow_right (by norm_num) (by omega))
  · subst heq
    exact Nat.mul_lt_mul_of_pos_right (by omega) (by positivity)
  · omega

theorem magOfBits_le {b b' : Nat} (h : b ≤ b') : magOfBits b ≤ magOfBits b' := by
  rcases Nat.eq_or_lt_of_le h with rfl | hlt
  · exact le_rfl
  · exact (magOfBits_lt hlt).le

theorem magOfBits_le_iff {b b' : Nat} : magOfBits b ≤ magOfBits b' ↔ b ≤ b' :=
  ⟨fun h => by by_contra hc; exact absurd (magOfBits_lt (Nat.lt_of_not_le hc)) (by omega), magOfBits_le⟩

@[simp] theorem magOfBits_zero : magOfBits 0 = 0 := by decide

theorem magOfBits_eq_zero {b : Nat} : magOfBits b = 0 ↔ b = 0 := by
  constructor
  · intro h
    by_contra hb
    have := magOfBits_lt (Nat.pos_of_ne_zero hb)
    simp [h] at this
  · rintro rfl; decide

theorem f32Mag_eq_zero (x : Word) : f32Mag x = 0 ↔ f32IsZero x = true := by
  simp [f32Mag, f32IsZero, magOfBits_eq_zero]

theorem f32Int_eq_zero (x : Word) : f32Int x = 0 ↔ f32IsZero x = true := by
  rw [← f32Mag_eq_zero]
  unfold f32Int
  split <;> omega

theorem f32Int_natAbs (x : Word) : (f32Int x).natAbs = f32Mag x := by
  unfold f32Int; split <;> omega

/-! ### Rounding -/

/-- What rounding to a whole number says: within a half, and even at exactly a half. -/
theorem roundEven_spec (n d : Nat) (hd : 0 < d) :
    2 * roundEven n d * d ≤ 2 * n + d ∧ 2 * n ≤ 2 * roundEven n d * d + d ∧
    (2 * roundEven n d * d = 2 * n + d → roundEven n d % 2 = 0) ∧
    (2 * n = 2 * roundEven n d * d + d → roundEven n d % 2 = 0) := by
  have hn := Nat.div_add_mod n d
  have hr := Nat.mod_lt n hd
  unfold roundEven
  generalize hq : n / d = q at *
  generalize hrr : n % d = r at *
  have e1 : 2 * q * d = 2 * (d * q) := by ring
  have e2 : 2 * (q + 1) * d = 2 * (d * q) + 2 * d := by ring
  split
  · next h =>
    rw [e2]
    refine ⟨by omega, by omega, fun h' => by omega, fun h' => by omega⟩
  · next h =>
    rw [e1]
    refine ⟨by omega, by omega, fun h' => by omega, fun h' => by omega⟩

/-- Rounding a ratio that is a whole number gives that number. -/
theorem roundEven_exact (k d : Nat) (hd : 0 < d) : roundEven (k * d) d = k := by
  unfold roundEven
  rw [Nat.mul_mod_left, Nat.mul_div_cancel _ hd]
  simp [hd.ne]

/-- Rounding to a whole number keeps order. -/
theorem roundEven_mono {n d n' d' : Nat} (hd : 0 < d) (hd' : 0 < d') (h : n * d' ≤ n' * d) :
    roundEven n d ≤ roundEven n' d' := by
  obtain ⟨a1, -, a3, -⟩ := roundEven_spec n d hd
  obtain ⟨-, b2, -, b4⟩ := roundEven_spec n' d' hd'
  generalize roundEven n d = k at *
  generalize roundEven n' d' = k' at *
  by_contra hc
  have hk : k' + 1 ≤ k := by omega
  have s1 : (2 * k' + 1) * d ≤ 2 * n := by
    have := Nat.mul_le_mul_right d (show 2 * k' + 2 ≤ 2 * k by omega)
    have e : (2 * k' + 2) * d = (2 * k' + 1) * d + d := by ring
    omega
  have s2 : 2 * n' ≤ (2 * k' + 1) * d' := by
    have e : (2 * k' + 1) * d' = 2 * k' * d' + d' := by ring
    omega
  have c1 : (2 * k' + 1) * d * d' ≤ 2 * n * d' := Nat.mul_le_mul_right d' s1
  have c2 : 2 * n' * d ≤ (2 * k' + 1) * d' * d := Nat.mul_le_mul_right d s2
  have c3 : 2 * n * d' ≤ 2 * n' * d := by nlinarith
  have e3 : (2 * k' + 1) * d * d' = (2 * k' + 1) * d' * d := by ring
  have t1 : 2 * n = (2 * k' + 1) * d := by
    have : 2 * n * d' = (2 * k' + 1) * d * d' := by omega
    exact Nat.eq_of_mul_eq_mul_right hd' this
  have t2 : 2 * n' = (2 * k' + 1) * d' := by
    have : 2 * n' * d = (2 * k' + 1) * d' * d := by omega
    exact Nat.eq_of_mul_eq_mul_right hd this
  have ek : k = k' + 1 := by
    by_contra hne
    have := Nat.mul_le_mul_right d (show 2 * k' + 4 ≤ 2 * k by omega)
    have e : (2 * k' + 4) * d = (2 * k' + 1) * d + 3 * d := by ring
    omega
  have p1 := a3 (by rw [ek, t1]; ring)
  have p2 := b4 (by rw [t2]; ring)
  omega

/-- Bits 30:0 of a rounded value, before the bound of an infinity. -/
theorem roundBits_parts (n d : Nat) (hd : 0 < d) :
    roundEven n (d * 2 ^ roundShift n d) ≤ 2 ^ 24 ∧
    (roundShift n d = 0 ∨ 2 ^ 23 ≤ roundEven n (d * 2 ^ roundShift n d)) := by
  have hD : 0 < d * 2 ^ roundShift n d := by positivity
  have hqlt : n / (d * 2 ^ roundShift n d) < 2 ^ 24 := by
    rw [← Nat.div_div_eq_div_mul, Nat.div_lt_iff_lt_mul (by positivity), ← pow_add]
    rcases Nat.eq_zero_or_pos (n / d) with h0 | hpos
    · rw [h0]; positivity
    · rw [← Nat.log2_lt (by omega)]
      unfold roundShift; omega
  have hle : roundEven n (d * 2 ^ roundShift n d) ≤ n / (d * 2 ^ roundShift n d) + 1 := by
    unfold roundEven; split <;> omega
  have hge : n / (d * 2 ^ roundShift n d) ≤ roundEven n (d * 2 ^ roundShift n d) := by
    unfold roundEven; split <;> omega
  refine ⟨by omega, ?_⟩
  rcases Nat.eq_zero_or_pos (roundShift n d) with h0 | hpos
  · exact .inl h0
  · refine .inr (le_trans ?_ hge)
    rw [← Nat.div_div_eq_div_mul, Nat.le_div_iff_mul_le (by positivity), ← pow_add]
    have hs : roundShift n d = (n / d).log2 - 23 := rfl
    have hne : n / d ≠ 0 := by
      intro h0
      rw [h0] at hs
      simp at hs
      omega
    rw [← Nat.le_log2 hne]
    omega

theorem roundShift_mono {n d n' d' : Nat} (hd : 0 < d) (hd' : 0 < d') (h : n * d' ≤ n' * d) :
    roundShift n d ≤ roundShift n' d' := by
  have hq : n / d ≤ n' / d' := by
    rw [Nat.le_div_iff_mul_le hd']
    have h1 : n / d * d ≤ n := Nat.div_mul_le_self n d
    have h2 : n / d * d * d' ≤ n' * d := le_trans (Nat.mul_le_mul_right d' h1) h
    have e : n / d * d * d' = n / d * d' * d := by ring
    rw [e] at h2
    exact Nat.le_of_mul_le_mul_right h2 hd
  unfold roundShift
  rcases Nat.eq_zero_or_pos (n / d) with h0 | hpos
  · rw [h0]; simp
  · have : (n / d).log2 ≤ (n' / d').log2 := by
      rw [Nat.le_log2 (by omega)]
      exact le_trans (Nat.log2_self_le (by omega)) hq
    omega

/-- Rounding keeps order: if `n / d ≤ n' / d'` then so are the results. -/
theorem roundBits_mono {n d n' d' : Nat} (hd : 0 < d) (hd' : 0 < d') (h : n * d' ≤ n' * d) :
    roundBits n d ≤ roundBits n' d' := by
  have hs := roundShift_mono hd hd' h
  obtain ⟨a1, -⟩ := roundBits_parts n d hd
  obtain ⟨-, b2⟩ := roundBits_parts n' d' hd'
  unfold roundBits
  rw [Nat.mul_comm (2 ^ 23), Nat.mul_comm (2 ^ 23)]
  refine min_le_min_right _ ?_
  rcases Nat.eq_or_lt_of_le hs with heq | hlt
  · rw [← heq] at b2 ⊢
    have := roundEven_mono (n := n) (d := d * 2 ^ roundShift n d) (n' := n') (d' := d' * 2 ^ roundShift n d)
      (by positivity) (by positivity) (by
        have := Nat.mul_le_mul_right (2 ^ roundShift n d) h
        calc n * (d' * 2 ^ roundShift n d) = n * d' * 2 ^ roundShift n d := by ring
          _ ≤ n' * d * 2 ^ roundShift n d := this
          _ = n' * (d * 2 ^ roundShift n d) := by ring)
    omega
  · rcases b2 with h0 | hge
    · omega
    · have := Nat.mul_le_mul_right (2 ^ 23) (show roundShift n d + 1 ≤ roundShift n' d' by omega)
      omega

theorem roundBits_le_inf (n d : Nat) : roundBits n d ≤ infBits := min_le_right _ _

theorem roundBits_lt (n d : Nat) : roundBits n d < 2 ^ 31 :=
  lt_of_le_of_lt (roundBits_le_inf n d) (by decide)

/-- Rounding keeps a value that some bits have. -/
theorem roundBits_exact (b d : Nat) (hd : 0 < d) (hb : b ≤ infBits) : roundBits (magOfBits b * d) d = b := by
  obtain ⟨sh, m, hb', hsh, hm, hmag⟩ := magOfBits_cases b
  have hs : roundShift (magOfBits b * d) d = sh := by
    unfold roundShift
    rw [Nat.mul_div_cancel _ hd, hmag]
    rcases hsh with h0 | hge
    · subst h0
      rcases Nat.eq_zero_or_pos m with h0 | hpos
      · subst h0; rfl
      · have : (m * 2 ^ 0).log2 < 24 := by
          rw [Nat.log2_lt (by simp; omega)]; simpa using hm
        omega
    · have hne : m * 2 ^ sh ≠ 0 := by positivity
      have h1 : 23 + sh ≤ (m * 2 ^ sh).log2 := by
        rw [Nat.le_log2 hne, pow_add]; exact Nat.mul_le_mul_right _ hge
      have h2 : (m * 2 ^ sh).log2 < 24 + sh := by
        rw [Nat.log2_lt hne, pow_add]; exact Nat.mul_lt_mul_of_pos_right hm (by positivity)
      omega
  unfold roundBits
  rw [Nat.mul_comm (2 ^ 23), hs, hmag, show m * 2 ^ sh * d = m * (d * 2 ^ sh) by ring, roundEven_exact _ _ (by positivity), ← hb']
  exact min_eq_left hb

/-- A value at or below that of some bits rounds to bits at or below them. -/
theorem roundBits_le {n d b : Nat} (hd : 0 < d) (hb : b ≤ infBits) (h : n ≤ magOfBits b * d) : roundBits n d ≤ b := by
  have := roundBits_mono (n := n) (d := d) (n' := magOfBits b * d) (d' := d) hd hd (Nat.mul_le_mul_right d h)
  rwa [roundBits_exact b d hd hb] at this

/-- A value at or above that of some bits rounds to bits at or above them. -/
theorem le_roundBits {n d b : Nat} (hd : 0 < d) (hb : b ≤ infBits) (h : magOfBits b * d ≤ n) : b ≤ roundBits n d := by
  have := roundBits_mono (n := magOfBits b * d) (d := d) (n' := n) (d' := d) hd hd (Nat.mul_le_mul_right d h)
  rwa [roundBits_exact b d hd hb] at this

theorem roundBits_zero (d : Nat) (hd : 0 < d) : roundBits 0 d = 0 := by
  have := roundBits_exact 0 d hd (by decide)
  simpa using this

/-- Below the overflow, the rounded bits have the significand and the exponent that rounding picked. -/
theorem roundBits_of_lt_inf {n d : Nat} (h : roundBits n d < infBits) :
    roundBits n d = roundShift n d * 2 ^ 23 + roundEven n (d * 2 ^ roundShift n d) := by
  unfold roundBits at *
  rw [Nat.mul_comm (2 ^ 23)] at *
  omega

/-- Below the overflow, no bits are nearer to the value than the rounded ones, and where other bits are as near, the
rounded ones are even: round to nearest, ties to even (R6). -/
theorem roundBits_nearest {n d : Nat} (hd : 0 < d) (h : roundBits n d < infBits) (b : Nat) :
    |(magOfBits (roundBits n d) * d : Int) - n| ≤ |(magOfBits b * d : Int) - n| ∧
    (|(magOfBits b * d : Int) - n| = |(magOfBits (roundBits n d) * d : Int) - n| →
      b = roundBits n d ∨ roundBits n d % 2 = 0) := by
  obtain ⟨p1, p2⟩ := roundBits_parts n d hd
  have hbits := roundBits_of_lt_inf h
  have hmag : magOfBits (roundBits n d) = roundEven n (d * 2 ^ roundShift n d) * 2 ^ roundShift n d := by
    rw [hbits]; exact magOfBits_parts _ _ p2 p1
  obtain ⟨s1, s2, s3, s4⟩ := roundEven_spec n (d * 2 ^ roundShift n d) (by positivity)
  obtain ⟨sh, m, hb, hsh, hm, hmagb⟩ := magOfBits_cases b
  have hpar : roundBits n d % 2 = roundEven n (d * 2 ^ roundShift n d) % 2 := by rw [hbits]; omega
  rw [hmag, hmagb, hpar]
  generalize hr : roundEven n (d * 2 ^ roundShift n d) = r at *
  generalize hs : roundShift n d = s at *
  -- `v` is the distance of the grid `D` apart; `b` lies on the grid, or below all of the rounded binade
  set D := d * 2 ^ s with hD
  have hDpos : 0 < D := by positivity
  have hrd : (r * 2 ^ s : Nat) * d = r * D := by rw [hD]; ring
  have hgoal1 : ((r * 2 ^ s : Nat) : Int) * d - n = (r * D : Nat) - n := by rw [← hrd]; push_cast; ring
  rw [hgoal1]
  rcases Nat.lt_or_ge sh s with hlt | hge
  · -- `b` is in a lower binade, so at most `2^23` units of the grid, which is at most `r` and below the value
    have hs0 : s ≠ 0 := by omega
    have hr23 : 2 ^ 23 ≤ r := by omega
    have hbelow : m * 2 ^ sh * d < 2 ^ 23 * D := by
      obtain ⟨k, rfl⟩ : ∃ k, s = sh + 1 + k := ⟨s - (sh + 1), by omega⟩
      have h1 : m * 2 ^ sh < 2 ^ 24 * 2 ^ sh := Nat.mul_lt_mul_of_pos_right hm (by positivity)
      have h2 : 2 ^ 24 * 2 ^ sh ≤ 2 ^ 23 * 2 ^ (sh + 1 + k) := by
        calc 2 ^ 24 * 2 ^ sh = 2 ^ 23 * 2 ^ (sh + 1) := by rw [pow_succ]; ring
          _ ≤ 2 ^ 23 * 2 ^ (sh + 1 + k) := Nat.mul_le_mul_left _ (Nat.pow_le_pow_right (by norm_num) (by omega))
      calc m * 2 ^ sh * d < 2 ^ 23 * 2 ^ (sh + 1 + k) * d := Nat.mul_lt_mul_of_pos_right (by omega) hd
        _ = 2 ^ 23 * D := by rw [hD]; ring
    have hn : 2 ^ 23 * D ≤ n := by
      have hsd : s = (n / d).log2 - 23 := by rw [← hs]; rfl
      have hne : n / d ≠ 0 := by
        intro h0; rw [h0] at hsd; simp at hsd; omega
      have hlog : 2 ^ (23 + s) ≤ n / d := by
        rw [← Nat.le_log2 hne]; omega
      calc 2 ^ 23 * D = 2 ^ (23 + s) * d := by rw [hD, pow_add]; ring
        _ ≤ n / d * d := Nat.mul_le_mul_right _ hlog
        _ ≤ n := Nat.div_mul_le_self n d
    have hrn : 2 ^ 23 * D ≤ r * D := Nat.mul_le_mul_right _ hr23
    have hlow : ((m * 2 ^ sh : Nat) : Int) * d < n := by
      have : m * 2 ^ sh * d < n := by omega
      exact_mod_cast this
    have hb23 : ((m * 2 ^ sh : Nat) : Int) * d < (2 ^ 23 * D : Nat) := by exact_mod_cast hbelow
    rw [abs_of_neg (show ((m * 2 ^ sh : Nat) : Int) * d - n < 0 by omega)]
    have s1' : ((2 * r * D : Nat) : Int) ≤ 2 * n + D := by exact_mod_cast s1
    have s2' : 2 * (n : Int) ≤ (2 * r * D : Nat) + D := by exact_mod_cast s2
    have e2r : ((2 * r * D : Nat) : Int) = 2 * (r * D : Nat) := by push_cast; ring
    rcases abs_cases (((r * D : Nat) : Int) - n) with ⟨ha, hsgn⟩ | ⟨ha, hsgn⟩
    · rw [ha]
      -- the value is below `r`: then `r > 2^23`, and the unit below `r` is at least `2^23`
      rcases Nat.eq_or_lt_of_le hr23 with heq | hgt
      · have : ((2 ^ 23 * D : Nat) : Int) = (r * D : Nat) := by rw [heq]
        constructor
        · omega
        · intro; omega
      · have hstep : (2 ^ 23 * D : Nat) + D ≤ r * D := by
          calc 2 ^ 23 * D + D = (2 ^ 23 + 1) * D := by ring
            _ ≤ r * D := Nat.mul_le_mul_right _ (by omega)
        have hstep' : ((2 ^ 23 * D : Nat) : Int) + D ≤ (r * D : Nat) := by exact_mod_cast hstep
        constructor
        · omega
        · intro; omega
    · rw [ha]
      have hrn' : ((2 ^ 23 * D : Nat) : Int) ≤ (r * D : Nat) := by exact_mod_cast hrn
      constructor
      · omega
      · intro; omega
  · -- `b` lies on the grid
    obtain ⟨k, rfl⟩ : ∃ k, sh = s + k := ⟨sh - s, by omega⟩
    have hgrid : ((m * 2 ^ (s + k) : Nat) : Int) * d = ((m * 2 ^ k * D : Nat) : Int) := by
      rw [hD, pow_add]; push_cast; ring
    rw [hgrid]
    have s1' : ((2 * r * D : Nat) : Int) ≤ 2 * n + D := by exact_mod_cast s1
    have s2' : 2 * (n : Int) ≤ (2 * r * D : Nat) + D := by exact_mod_cast s2
    have e2r : ((2 * r * D : Nat) : Int) = 2 * (r * D : Nat) := by push_cast; ring
    have hDi : (0 : Int) < D := by exact_mod_cast hDpos
    rcases Nat.lt_trichotomy (m * 2 ^ k) r with hlt2 | heq | hgt
    · have hstep : m * 2 ^ k * D + D ≤ r * D := by
        calc m * 2 ^ k * D + D = (m * 2 ^ k + 1) * D := by ring
          _ ≤ r * D := Nat.mul_le_mul_right _ (by omega)
      have hstep' : ((m * 2 ^ k * D : Nat) : Int) + D ≤ (r * D : Nat) := by exact_mod_cast hstep
      rw [abs_of_neg (show ((m * 2 ^ k * D : Nat) : Int) - n < 0 by omega)]
      rcases abs_cases (((r * D : Nat) : Int) - n) with ⟨ha, hsgn⟩ | ⟨ha, hsgn⟩ <;> rw [ha]
      · refine ⟨by omega, fun h' => .inr (s3 ?_)⟩
        have : ((2 * r * D : Nat) : Int) = 2 * n + D := by omega
        exact_mod_cast this
      · refine ⟨by omega, fun h' => by omega⟩
    · have hz : ((m * 2 ^ k * D : Nat) : Int) = (r * D : Nat) := by rw [heq]
      rw [hz]
      refine ⟨le_rfl, fun _ => ?_⟩
      have hbb : b = roundBits n d := by
        have h1 : magOfBits b = magOfBits (roundBits n d) := by
          rw [hmagb, hmag, ← heq, pow_add]; ring
        exact le_antisymm (magOfBits_le_iff.mp h1.le) (magOfBits_le_iff.mp h1.ge)
      exact .inl hbb
    · have hstep : r * D + D ≤ m * 2 ^ k * D := by
        calc r * D + D = (r + 1) * D := by ring
          _ ≤ m * 2 ^ k * D := Nat.mul_le_mul_right _ (by omega)
      have hstep' : ((r * D : Nat) : Int) + D ≤ (m * 2 ^ k * D : Nat) := by exact_mod_cast hstep
      rw [abs_of_pos (show (0 : Int) < ((m * 2 ^ k * D : Nat) : Int) - n by omega)]
      rcases abs_cases (((r * D : Nat) : Int) - n) with ⟨ha, hsgn⟩ | ⟨ha, hsgn⟩ <;> rw [ha]
      · refine ⟨by omega, fun h' => by omega⟩
      · refine ⟨by omega, fun h' => .inr (s4 ?_)⟩
        have : 2 * (n : Int) = (2 * r * D : Nat) + D := by omega
        exact_mod_cast this

end Sys2Proof.Machine
end

