-- ==== Sys2Proof/Laws/Arithmetic.lean ====
section
/-! SUPPORT. The operations of binary32 over the rationals: each rounds the exact result once, rounding keeps order against
every finite pattern that is not subnormal, and in the normal range it picks a nearest one, ties to even. -/

namespace Sys2Proof.Machine

/-! ### Values -/

theorem f32Rat_neg (x : Word) : f32Rat (f32Neg x) = -f32Rat x := by
  rw [f32Rat, f32Rat, f32Int_neg]; push_cast; ring

/-- The value of a pattern from its sign and magnitude. -/
theorem f32Rat_eq (x : Word) : f32Rat x = (if f32Sign x then -1 else 1) * (f32Mag x : ℚ) / 2 ^ 149 := by
  rw [f32Rat, f32Int]
  split <;> push_cast <;> ring

theorem f32Rat_pack (s : Bool) {b : ℕ} (h : b < 2 ^ 31) :
    f32Rat (f32Pack s b) = (if s then -1 else 1) * (magOfBits b : ℚ) / 2 ^ 149 := by
  rw [f32Rat_eq, f32Sign_pack s b h, f32Mag_pack s b h]

theorem abs_f32Rat (x : Word) : |f32Rat x| = (f32Mag x : ℚ) / 2 ^ 149 := by
  rw [f32Rat_eq, abs_div, abs_mul, Nat.abs_cast, abs_of_pos (show (0 : ℚ) < 2 ^ 149 by positivity)]
  cases f32Sign x <;> simp

theorem f32Rat_eq_zero (x : Word) : f32Rat x = 0 ↔ f32IsZero x = true := by
  rw [← abs_eq_zero, abs_f32Rat, ← f32Mag_eq_zero, div_eq_zero_iff]
  constructor
  · rintro (h | h)
    · exact_mod_cast h
    · exact absurd h (by positivity)
  · intro h; left; exact_mod_cast h

/-! ### One rounding -/

/-- `r` is the rounded result of the exact value `v`. -/
def RoundsTo (v : ℚ) (r : Word) : Prop :=
  ∃ (s : Bool) (n d : ℕ), 0 < d ∧ r = f32Round s n d ∧ v = (if s then -1 else 1) * ((n : ℚ) / d) / 2 ^ 149

theorem flushSubnormal_zero (s : Bool) : flushSubnormal (f32Pack s 0) = f32Pack s 0 := by
  refine flushSubnormal_of_not_subnormal _ ?_
  rw [f32IsSubnormal, f32Bits_pack s 0 (by norm_num)]
  rfl

theorem f32Round_zero (s : Bool) {d : ℕ} (hd : 0 < d) : f32Round s 0 d = f32Pack s 0 := by
  rw [f32Round, roundBits_zero d hd, flushSubnormal_zero]

/-- A zero of either sign is the rounded 0. -/
theorem roundsTo_zero (s : Bool) : RoundsTo 0 (f32Pack s 0) :=
  ⟨s, 0, 1, one_pos, (f32Round_zero s one_pos).symm, by simp⟩

theorem f32Neg_round (s : Bool) (n d : ℕ) : f32Neg (f32Round s n d) = f32Round (!s) n d := by
  have hb := roundBits_lt n d
  have hneg : f32Neg (f32Pack s (roundBits n d)) = f32Pack (!s) (roundBits n d) := by
    rw [f32Neg, f32Sign_pack s _ hb, f32Bits_pack s _ hb]
  have hsub : f32IsSubnormal (f32Pack (!s) (roundBits n d)) = f32IsSubnormal (f32Pack s (roundBits n d)) := by
    rw [f32IsSubnormal, f32IsSubnormal, f32Bits_pack _ _ hb, f32Bits_pack _ _ hb]
  rw [f32Round, f32Round, flushSubnormal, flushSubnormal, hsub, f32Sign_pack _ _ hb, f32Sign_pack _ _ hb]
  split
  · rw [f32Neg, f32Sign_pack s 0 (by norm_num), f32Bits_pack s 0 (by norm_num)]
  · exact hneg

theorem RoundsTo.neg {v : ℚ} {r : Word} (h : RoundsTo v r) : RoundsTo (-v) (f32Neg r) := by
  obtain ⟨s, n, d, hd, rfl, rfl⟩ := h
  refine ⟨!s, n, d, hd, f32Neg_round s n d, ?_⟩
  cases s <;> simp <;> ring

/-- The bits of a rounded result: those of the rounding, or 0 after a flush. -/
theorem f32Round_cases (s : Bool) (n d : ℕ) :
    f32Round s n d = f32Pack s (roundBits n d) ∨ roundBits n d < 2 ^ 23 ∧ f32Round s n d = f32Pack s 0 := by
  have hb := roundBits_lt n d
  rcases flushSubnormal_cases (f32Pack s (roundBits n d)) with h | ⟨h, h'⟩
  · exact .inl h
  · refine .inr ⟨?_, ?_⟩
    · rw [f32IsSubnormal, f32Bits_pack s _ hb, Bool.and_eq_true, decide_eq_true_eq, decide_eq_true_eq] at h
      exact h.2
    · rw [f32Round, h', f32Sign_pack s _ hb]

/-- The magnitude of a rounded result is at most that of bits which are not below the exact value. -/
theorem f32Mag_round_le (s : Bool) {n d b : ℕ} (hd : 0 < d) (hb : b ≤ infBits) (h : n ≤ magOfBits b * d) :
    f32Mag (f32Round s n d) ≤ magOfBits b := by
  have hr := roundBits_le hd hb h
  rcases f32Round_cases s n d with e | ⟨-, e⟩ <;> rw [e]
  · rw [f32Mag_pack s _ (roundBits_lt n d)]; exact magOfBits_le hr
  · rw [f32Mag_pack s 0 (by norm_num)]; simp

theorem f32Sign_round (s : Bool) (n d : ℕ) : f32Sign (f32Round s n d) = s := by
  rcases f32Round_cases s n d with e | ⟨-, e⟩ <;> rw [e]
  · exact f32Sign_pack s _ (roundBits_lt n d)
  · exact f32Sign_pack s 0 (by norm_num)

theorem f32Bits_le_inf_of_finite {z : Word} (h : f32IsFinite z = true) : f32Bits z ≤ infBits := by
  rw [f32IsFinite, decide_eq_true_eq] at h
  exact h.le

/-- Rounding keeps order against a finite pattern that is not subnormal: upper bounds. -/
theorem RoundsTo.le {v : ℚ} {r z : Word} (h : RoundsTo v r) (hz : f32IsFinite z = true) (hs : NotSubnormal z)
    (hv : v ≤ f32Rat z) : f32Rat r ≤ f32Rat z := by
  obtain ⟨s, n, d, hd, rfl, rfl⟩ := h
  have hd' : (0 : ℚ) < d := by exact_mod_cast hd
  have hp : (0 : ℚ) < 2 ^ 149 := by positivity
  rw [f32Rat_eq z] at hv ⊢
  rw [f32Rat_eq, f32Sign_round]
  rw [div_le_div_iff_of_pos_right hp] at hv ⊢
  have hbz := f32Bits_le_inf_of_finite hz
  cases s with
  | false =>
    simp only [Bool.false_eq_true, if_false, one_mul] at hv ⊢
    cases hzs : f32Sign z with
    | true =>
      rw [hzs] at hv
      simp only [if_true] at hv ⊢
      have h0 : (0 : ℚ) ≤ (n : ℚ) / d := by positivity
      have hm : (0 : ℚ) ≤ f32Mag z := by positivity
      have hn : (n : ℚ) / d = 0 := by linarith
      have hn0 : n = 0 := by
        rcases div_eq_zero_iff.1 hn with h | h
        · exact_mod_cast h
        · exact absurd h hd'.ne'
      have hm0 : (f32Mag z : ℚ) = 0 := by linarith
      rw [hn0, f32Round_zero false hd, f32Mag_pack false 0 (by norm_num), magOfBits_zero, hm0]
      simp
    | false =>
      rw [hzs] at hv
      simp only [Bool.false_eq_true, if_false, one_mul] at hv ⊢
      rw [div_le_iff₀ hd'] at hv
      have : n ≤ magOfBits (f32Bits z) * d := by exact_mod_cast hv
      exact_mod_cast f32Mag_round_le false hd hbz this
  | true =>
    simp only [if_true] at hv ⊢
    cases hzs : f32Sign z with
    | false =>
      simp only [Bool.false_eq_true, if_false]
      have h1 : (0 : ℚ) ≤ f32Mag z := by positivity
      have h2 : (0 : ℚ) ≤ f32Mag (f32Round true n d) := by positivity
      linarith
    | true =>
      rw [hzs] at hv
      simp only [if_true] at hv ⊢
      have hv' : (f32Mag z : ℚ) ≤ (n : ℚ) / d := by linarith
      rw [le_div_iff₀ hd'] at hv'
      have hn : magOfBits (f32Bits z) * d ≤ n := by exact_mod_cast hv'
      have hb := le_roundBits hd hbz hn
      have hle : f32Mag z ≤ f32Mag (f32Round true n d) := by
        rcases f32Round_cases true n d with e | ⟨hlt, e⟩ <;> rw [e]
        · rw [f32Mag_pack true _ (roundBits_lt n d)]; exact magOfBits_le hb
        · have hz0 : f32Bits z = 0 := by
            rw [NotSubnormal, f32IsSubnormal, Bool.and_eq_false_iff, decide_eq_false_iff_not, decide_eq_false_iff_not] at hs
            omega
          rw [f32Mag, hz0]; simp
      have : (f32Mag z : ℚ) ≤ f32Mag (f32Round true n d) := by exact_mod_cast hle
      linarith

theorem notSubnormal_neg {z : Word} (h : NotSubnormal z) : NotSubnormal (f32Neg z) := by
  rw [NotSubnormal, f32IsSubnormal, f32Bits_neg]; exact h

theorem f32IsFinite_neg (z : Word) : f32IsFinite (f32Neg z) = f32IsFinite z := by
  rw [f32IsFinite, f32IsFinite, f32Bits_neg]

/-- Rounding keeps order against a finite pattern that is not subnormal: lower bounds. -/
theorem RoundsTo.ge {v : ℚ} {r z : Word} (h : RoundsTo v r) (hz : f32IsFinite z = true) (hs : NotSubnormal z)
    (hv : f32Rat z ≤ v) : f32Rat z ≤ f32Rat r := by
  have := h.neg.le (z := f32Neg z) (by rw [f32IsFinite_neg]; exact hz) (notSubnormal_neg hs)
    (by rw [f32Rat_neg]; linarith)
  rw [f32Rat_neg, f32Rat_neg] at this
  linarith

/-- A value that a finite pattern has, not a subnormal one, is kept. -/
theorem RoundsTo.exact {v : ℚ} {r z : Word} (h : RoundsTo v r) (hz : f32IsFinite z = true) (hs : NotSubnormal z)
    (hv : v = f32Rat z) : f32Rat r = f32Rat z :=
  le_antisymm (h.le hz hs hv.le) (h.ge hz hs hv.ge)

/-- A value no larger in magnitude than a finite pattern rounds to a finite pattern. -/
theorem RoundsTo.finite {v : ℚ} {r z : Word} (h : RoundsTo v r) (hz : f32IsFinite z = true) (hv : |v| ≤ |f32Rat z|) :
    f32IsFinite r = true := by
  obtain ⟨s, n, d, hd, rfl, rfl⟩ := h
  have hd' : (0 : ℚ) < d := by exact_mod_cast hd
  have hp : (0 : ℚ) < 2 ^ 149 := by positivity
  have hv1 : |(if s then (-1 : ℚ) else 1) * ((n : ℚ) / d) / 2 ^ 149| = (n : ℚ) / d / 2 ^ 149 := by
    rw [abs_div, abs_mul, abs_of_pos hp, abs_of_nonneg (show (0 : ℚ) ≤ (n : ℚ) / d by positivity)]
    cases s <;> simp
  rw [hv1, abs_f32Rat, div_le_div_iff_of_pos_right hp, div_le_iff₀ hd'] at hv
  have hn : n ≤ magOfBits (f32Bits z) * d := by exact_mod_cast hv
  have hr := roundBits_le hd (f32Bits_le_inf_of_finite hz) hn
  have hzf : f32Bits z < infBits := by simpa [f32IsFinite] using hz
  rcases f32Round_cases s n d with e | ⟨-, e⟩ <;> rw [e, f32IsFinite, decide_eq_true_eq]
  · rw [f32Bits_pack s _ (roundBits_lt n d)]; exact lt_of_le_of_lt hr hzf
  · rw [f32Bits_pack s 0 (by norm_num)]; decide

/-- Below the midpoint between the greatest finite number and `2^128`, rounding does not overflow. -/
theorem roundBits_lt_inf {n d : ℕ} (hd : 0 < d) (h : n < (2 ^ 25 - 1) * (2 ^ 252 * d)) : roundBits n d < infBits := by
  obtain ⟨hm, -⟩ := roundBits_parts n d hd
  have hs : roundShift n d ≤ 253 := by
    unfold roundShift
    have hq : n / d < 2 ^ (25 + 252) := by
      rw [Nat.div_lt_iff_lt_mul hd, pow_add, Nat.mul_assoc]
      exact h.trans_le (Nat.mul_le_mul_right _ (Nat.sub_le _ _))
    generalize n / d = q at *
    have hl : q.log2 < 277 := by
      rcases Nat.eq_zero_or_pos q with h0 | h0
      · rw [h0]; decide
      · exact (Nat.log2_lt h0.ne').2 hq
    clear hq
    omega
  have hinf : infBits = 255 * 2 ^ 23 := by decide
  unfold roundBits
  refine lt_of_le_of_lt (min_le_left _ _) ?_
  rw [hinf]
  by_contra hc
  have hsh : roundShift n d = 253 := by omega
  have hmm : roundEven n (d * 2 ^ roundShift n d) = 2 ^ 24 := by omega
  obtain ⟨h1, -⟩ := roundEven_spec n (d * 2 ^ roundShift n d) (by positivity)
  have h2 : d * 2 ^ 253 = 2 * (2 ^ 252 * d) := by rw [pow_succ 2 252]; ring
  rw [hmm, hsh, h2] at h1
  generalize 2 ^ 252 * d = B at *
  omega

/-- In the normal range the rounded result is finite, is not flushed, and has the bits of the rounding. -/
theorem roundsTo_normal {s : Bool} {n d : ℕ} (hd : 0 < d)
    (hv : InNormalRange ((if s then (-1 : ℚ) else 1) * ((n : ℚ) / d) / 2 ^ 149)) :
    f32Round s n d = f32Pack s (roundBits n d) ∧ roundBits n d < infBits ∧ 2 ^ 23 ≤ roundBits n d := by
  have hd' : (0 : ℚ) < d := by exact_mod_cast hd
  have hp : (0 : ℚ) < 2 ^ 149 := by positivity
  have habs : |(if s then (-1 : ℚ) else 1) * ((n : ℚ) / d) / 2 ^ 149| = (n : ℚ) / d / 2 ^ 149 := by
    rw [abs_div, abs_mul, abs_of_pos hp, abs_of_nonneg (show (0 : ℚ) ≤ (n : ℚ) / d by positivity)]
    cases s <;> simp
  obtain ⟨h1, h2⟩ := hv
  rw [habs] at h1 h2
  rw [le_div_iff₀ hp, le_div_iff₀ hd'] at h1
  rw [div_lt_iff₀ hp, div_lt_iff₀ hd'] at h2
  have hlo : magOfBits (2 ^ 23) * d ≤ n := by
    have hm : magOfBits (2 ^ 23) = 2 ^ 23 := by decide
    have : (2 ^ 23 : ℚ) * d ≤ n := by
      refine le_trans (le_of_eq ?_) h1
      norm_num
    rw [hm]; exact_mod_cast this
  have hb := le_roundBits hd (by decide) hlo
  have hhi : n < (2 ^ 25 - 1) * (2 ^ 252 * d) := by
    have : (n : ℚ) < ((2 ^ 25 - 1 : ℕ) : ℚ) * (2 ^ 252 * d) := by
      refine lt_of_lt_of_eq h2 ?_
      norm_num
      ring
    exact_mod_cast this
  refine ⟨?_, roundBits_lt_inf hd hhi, hb⟩
  rcases f32Round_cases s n d with e | ⟨hlt, -⟩
  · exact e
  · omega

/-- The last bit of a pattern is that of its bits 30:0. -/
theorem f32Pack_lsb (s : Bool) {b : ℕ} (h : b < 2 ^ 31) : (f32Pack s b).getLsbD 0 = decide (b % 2 = 1) := by
  rw [BitVec.getLsbD, f32Pack_toNat s b h, Nat.testBit_zero]
  cases s
  · simp
  · rw [if_pos rfl]
    congr 1
    simp only [eq_iff_iff]
    omega

/-- In the normal range the rounded result is a nearest pattern, with ties to even. -/
theorem RoundsTo.nearest {v : ℚ} {r : Word} (h : RoundsTo v r) (hv : InNormalRange v) : NearestEven v r := by
  obtain ⟨s, n, d, hd, rfl, rfl⟩ := h
  obtain ⟨hr, hinf, -⟩ := roundsTo_normal hd hv
  have hd' : (0 : ℚ) < d := by exact_mod_cast hd
  have hp : (0 : ℚ) < 2 ^ 149 := by positivity
  have hlt := roundBits_lt n d
  have near : ∀ b : ℕ, |(magOfBits (roundBits n d) : ℚ) - (n : ℚ) / d| ≤ |(magOfBits b : ℚ) - (n : ℚ) / d| ∧
      (|(magOfBits b : ℚ) - (n : ℚ) / d| = |(magOfBits (roundBits n d) : ℚ) - (n : ℚ) / d| →
        b = roundBits n d ∨ roundBits n d % 2 = 0) := by
    intro b
    obtain ⟨g1, g2⟩ := roundBits_nearest hd hinf b
    have key : ∀ m : ℕ, |(m : ℚ) - (n : ℚ) / d| = ((|(m * d : ℤ) - n| : ℤ) : ℚ) / d := by
      intro m
      rw [Int.cast_abs, ← abs_of_pos hd', ← abs_div, abs_of_pos hd']
      congr 1
      push_cast
      field_simp
    rw [key, key, div_le_div_iff_of_pos_right hd', div_left_inj' hd'.ne']
    exact ⟨by exact_mod_cast g1, fun e => g2 (by exact_mod_cast e)⟩
  rw [hr]
  refine ⟨by rw [f32IsFinite, f32Bits_pack s _ hlt]; exact decide_eq_true hinf, ?_⟩
  intro z _
  have hlsb : (f32Pack s (roundBits n d)).getLsbD 0 = false ↔ roundBits n d % 2 = 0 := by
    rw [f32Pack_lsb s hlt, decide_eq_false_iff_not]; omega
  rw [hlsb, f32Rat_pack s hlt, f32Rat_eq z]
  have split3 : ∀ a b : ℚ, a / 2 ^ 149 - b / 2 ^ 149 = (a - b) / 2 ^ 149 := fun a b => by ring
  rw [split3, split3, abs_div, abs_div, abs_of_pos hp, div_le_div_iff_of_pos_right hp, div_left_inj' hp.ne',
    div_left_inj' hp.ne']
  have hq : (0 : ℚ) ≤ (n : ℚ) / d := by positivity
  have hmz : (0 : ℚ) ≤ f32Mag z := by positivity
  obtain ⟨n1, n2⟩ := near (f32Bits z)
  obtain ⟨z1, z2⟩ := near 0
  rw [magOfBits_zero, Nat.cast_zero, zero_sub, abs_neg, abs_of_nonneg hq] at z1 z2
  change |(magOfBits (roundBits n d) : ℚ) - (n : ℚ) / d| ≤ |(f32Mag z : ℚ) - (n : ℚ) / d| at n1
  change |(f32Mag z : ℚ) - (n : ℚ) / d| = _ → _ at n2
  have flip : ∀ a b : ℚ, |-a - -b| = |a - b| := fun a b => by rw [← abs_neg]; congr 1; ring
  have same : f32Sign z = s →
      |(if s then (-1 : ℚ) else 1) * (magOfBits (roundBits n d) : ℚ) - (if s then (-1 : ℚ) else 1) * ((n : ℚ) / d)| ≤
        |(if f32Sign z then (-1 : ℚ) else 1) * (f32Mag z : ℚ) - (if s then (-1 : ℚ) else 1) * ((n : ℚ) / d)| ∧
      (|(if f32Sign z then (-1 : ℚ) else 1) * (f32Mag z : ℚ) - (if s then (-1 : ℚ) else 1) * ((n : ℚ) / d)| =
        |(if s then (-1 : ℚ) else 1) * (magOfBits (roundBits n d) : ℚ) - (if s then (-1 : ℚ) else 1) * ((n : ℚ) / d)| →
        (if f32Sign z then (-1 : ℚ) else 1) * (f32Mag z : ℚ) =
          (if s then (-1 : ℚ) else 1) * (magOfBits (roundBits n d) : ℚ) ∨ roundBits n d % 2 = 0) := by
    intro e
    rw [e]
    have tie : |(f32Mag z : ℚ) - (n : ℚ) / d| = |(magOfBits (roundBits n d) : ℚ) - (n : ℚ) / d| →
        (f32Mag z : ℚ) = magOfBits (roundBits n d) ∨ roundBits n d % 2 = 0 := fun e2 =>
      (n2 e2).imp (fun e3 => by rw [f32Mag, e3]) id
    cases s
    · simpa using And.intro n1 tie
    · simp only [if_true, neg_one_mul, flip, neg_inj]
      exact ⟨n1, tie⟩
  have opp : f32Sign z ≠ s →
      |(if f32Sign z then (-1 : ℚ) else 1) * (f32Mag z : ℚ) - (if s then (-1 : ℚ) else 1) * ((n : ℚ) / d)| =
        f32Mag z + (n : ℚ) / d ∧
      |(if s then (-1 : ℚ) else 1) * (magOfBits (roundBits n d) : ℚ) - (if s then (-1 : ℚ) else 1) * ((n : ℚ) / d)| =
        |(magOfBits (roundBits n d) : ℚ) - (n : ℚ) / d| := by
    intro e
    have habs : |(f32Mag z : ℚ) + (n : ℚ) / d| = f32Mag z + (n : ℚ) / d := abs_of_nonneg (by linarith)
    cases hs : s <;> cases hz : f32Sign z <;> rw [hs, hz] at e
    · exact absurd rfl e
    · refine ⟨?_, by simp⟩
      simp only [if_true, Bool.false_eq_true, if_false, neg_one_mul, one_mul]
      rw [← habs, ← abs_neg]; congr 1; ring
    · refine ⟨?_, by simp only [if_true, neg_one_mul, flip]⟩
      simp only [if_true, Bool.false_eq_true, if_false, neg_one_mul, one_mul]
      rw [← habs]; congr 1; ring
    · exact absurd rfl e
  by_cases e : f32Sign z = s
  · exact same e
  · obtain ⟨e1, e2⟩ := opp e
    rw [e1, e2]
    refine ⟨by linarith, fun e3 => ?_⟩
    have hz0 : (f32Mag z : ℚ) = 0 := by linarith
    have hv0 : (n : ℚ) / d = |(magOfBits (roundBits n d) : ℚ) - (n : ℚ) / d| := by linarith
    rcases z2 hv0 with hb | hb
    · left
      rw [hz0, ← hb, magOfBits_zero]; simp
    · exact .inr hb

/-! ### The operations -/

/-- A sum of two finite patterns is rounded once (R13). -/
theorem f32Sum_rounds (op : NanSource) (a b : Word) {x y : Word} (hx : f32IsFinite x = true) (hy : f32IsFinite y = true) :
    RoundsTo (f32Rat x + f32Rat y) (f32Sum op a b x y) := by
  obtain ⟨hx1, hx2⟩ := (f32IsFinite_iff x).1 hx
  obtain ⟨hy1, hy2⟩ := (f32IsFinite_iff y).1 hy
  have hv : f32Rat x + f32Rat y = ((f32Int x + f32Int y : ℤ) : ℚ) / 2 ^ 149 := by
    rw [f32Rat, f32Rat]; push_cast; ring
  rw [f32Sum, if_neg (by simp [hx1, hx2, hy1]), if_neg (by simp [hx2]), if_neg (by simp [hy2]), hv]
  generalize f32Int x + f32Int y = q
  split
  · next h => rw [h]; simpa using roundsTo_zero _
  · refine ⟨_, _, 1, one_pos, rfl, ?_⟩
    by_cases hq : q < 0
    · have : ((q.natAbs : ℕ) : ℤ) = -q := by omega
      have hc : ((q.natAbs : ℕ) : ℚ) = -(q : ℚ) := by rw [← Int.cast_natCast, this, Int.cast_neg]
      simp [hq, hc]
    · have : ((q.natAbs : ℕ) : ℤ) = q := by omega
      have hc : ((q.natAbs : ℕ) : ℚ) = (q : ℚ) := by rw [← Int.cast_natCast, this]
      simp [hq, hc]

/-- A product of two finite patterns is rounded once (R13). -/
theorem f32Product_rounds (a b : Word) {x y : Word} (hx : f32IsFinite x = true) (hy : f32IsFinite y = true) :
    RoundsTo (f32Rat x * f32Rat y) (f32Product a b x y) := by
  obtain ⟨hx1, hx2⟩ := (f32IsFinite_iff x).1 hx
  obtain ⟨hy1, hy2⟩ := (f32IsFinite_iff y).1 hy
  rw [f32Product, if_neg (by simp [hx1, hx2, hy1, hy2]), if_neg (by simp [hx2, hy2])]
  refine ⟨_, _, 2 ^ 149, by positivity, rfl, ?_⟩
  rw [f32Rat_eq, f32Rat_eq]
  cases f32Sign x <;> cases f32Sign y <;> simp <;> ring

/-- A quotient of two finite patterns, the second not a zero, is rounded once (R13). -/
theorem f32Quotient_rounds (a b : Word) {x y : Word} (hx : f32IsFinite x = true) (hy : f32IsFinite y = true)
    (h0 : f32IsZero y = false) : RoundsTo (f32Rat x / f32Rat y) (f32Quotient a b x y) := by
  obtain ⟨hx1, hx2⟩ := (f32IsFinite_iff x).1 hx
  obtain ⟨hy1, hy2⟩ := (f32IsFinite_iff y).1 hy
  have hm : f32Mag y ≠ 0 := by rw [Ne, f32Mag_eq_zero, h0]; decide
  have hm' : (f32Mag y : ℚ) ≠ 0 := by exact_mod_cast hm
  rw [f32Quotient, if_neg (by simp [hx1, hx2, hy1, h0]), if_neg (by simp [hx2, h0]), if_neg (by simp [hy2])]
  refine ⟨_, _, f32Mag y, Nat.pos_of_ne_zero hm, rfl, ?_⟩
  rw [f32Rat_eq, f32Rat_eq]
  cases f32Sign x <;> cases f32Sign y <;> simp <;> field_simp <;> norm_num

theorem f32IsFinite_flush {x : Word} (h : f32IsFinite x = true) : f32IsFinite (flushSubnormal x) = true := by
  rcases flushSubnormal_cases x with e | ⟨-, e⟩ <;> rw [e]
  · exact h
  · rw [f32IsFinite, f32Bits_pack _ 0 (by norm_num)]; decide

/-- `a + b` of finite patterns: the rounded sum of the flushed values. -/
theorem f32Add_rounds {a b : Word} (ha : f32IsFinite a = true) (hb : f32IsFinite b = true) :
    RoundsTo (f32Rat (flushSubnormal a) + f32Rat (flushSubnormal b)) (f32Add a b) :=
  f32Sum_rounds _ _ _ (f32IsFinite_flush ha) (f32IsFinite_flush hb)

/-- `a − b` of finite patterns: the rounded difference of the flushed values. -/
theorem f32Sub_rounds {a b : Word} (ha : f32IsFinite a = true) (hb : f32IsFinite b = true) :
    RoundsTo (f32Rat (flushSubnormal a) - f32Rat (flushSubnormal b)) (f32Sub a b) := by
  have := f32Sum_rounds .sub a b (f32IsFinite_flush ha) (y := f32Neg (flushSubnormal b))
    (by rw [f32IsFinite_neg]; exact f32IsFinite_flush hb)
  rwa [f32Rat_neg, ← sub_eq_add_neg] at this

/-- `a × b` of finite patterns: the rounded product of the flushed values. -/
theorem f32Mul_rounds {a b : Word} (ha : f32IsFinite a = true) (hb : f32IsFinite b = true) :
    RoundsTo (f32Rat (flushSubnormal a) * f32Rat (flushSubnormal b)) (f32Mul a b) :=
  f32Product_rounds _ _ (f32IsFinite_flush ha) (f32IsFinite_flush hb)

/-- `a / b` of finite patterns, `b` not a zero: the rounded quotient of the flushed values. -/
theorem f32Div_rounds {a b : Word} (ha : f32IsFinite a = true) (hb : f32IsFinite b = true)
    (h0 : f32IsZero (flushSubnormal b) = false) :
    RoundsTo (f32Rat (flushSubnormal a) / f32Rat (flushSubnormal b)) (f32Div a b) :=
  f32Quotient_rounds _ _ (f32IsFinite_flush ha) (f32IsFinite_flush hb) h0

/-! ### Exact results -/

/-- A pattern whose value a pattern that is not subnormal has is not subnormal. -/
theorem notSubnormal_of_rat_eq {r z : Word} (h : f32Rat r = f32Rat z) (hz : NotSubnormal z) : NotSubnormal r := by
  have ha : |f32Rat r| = |f32Rat z| := by rw [h]
  rw [abs_f32Rat, abs_f32Rat, div_left_inj' (by positivity)] at ha
  have hm : f32Mag r = f32Mag z := by exact_mod_cast ha
  have hb : f32Bits r = f32Bits z := by
    rw [f32Mag, f32Mag] at hm
    exact le_antisymm (magOfBits_le_iff.1 hm.le) (magOfBits_le_iff.1 hm.ge)
  rw [NotSubnormal, f32IsSubnormal, hb]; exact hz

/-- A value of at least the least normal number is not that of a subnormal. -/
theorem notSubnormal_of_ge {z : Word} (h : 1 / 2 ^ 126 ≤ |f32Rat z|) : NotSubnormal z := by
  rw [abs_f32Rat, div_le_div_iff₀ (by positivity) (by positivity)] at h
  have hm : magOfBits (2 ^ 23) ≤ magOfBits (f32Bits z) := by
    have h1 : magOfBits (2 ^ 23) = 2 ^ 23 := by decide
    rw [h1]
    have h2 : (2 : ℚ) ^ 126 * 2 ^ 23 ≤ 2 ^ 126 * f32Mag z := by
      linarith [(by norm_num : (1 : ℚ) * 2 ^ 149 = 2 ^ 126 * 2 ^ 23)]
    have h3 := le_of_mul_le_mul_left h2 (by positivity)
    exact_mod_cast h3
  have hb := magOfBits_le_iff.1 hm
  rw [NotSubnormal, f32IsSubnormal, Bool.and_eq_false_iff, decide_eq_false_iff_not, decide_eq_false_iff_not]
  omega

/-- A sum that a pattern has is exact. -/
theorem f32Add_exact {a b z : Word} (ha : f32IsFinite a = true) (hb : f32IsFinite b = true) (na : NotSubnormal a)
    (nb : NotSubnormal b) (hz : f32IsFinite z = true) (nz : NotSubnormal z) (h : f32Rat a + f32Rat b = f32Rat z) :
    f32IsFinite (f32Add a b) = true ∧ f32Rat (f32Add a b) = f32Rat z := by
  have hr := f32Add_rounds ha hb
  rw [flushSubnormal_of_not_subnormal a na, flushSubnormal_of_not_subnormal b nb] at hr
  exact ⟨hr.finite hz (by rw [h]), hr.exact hz nz h⟩

/-- A difference that a pattern has is exact. -/
theorem f32Sub_exact {a b z : Word} (ha : f32IsFinite a = true) (hb : f32IsFinite b = true) (na : NotSubnormal a)
    (nb : NotSubnormal b) (hz : f32IsFinite z = true) (nz : NotSubnormal z) (h : f32Rat a - f32Rat b = f32Rat z) :
    f32IsFinite (f32Sub a b) = true ∧ f32Rat (f32Sub a b) = f32Rat z := by
  have hr := f32Sub_rounds ha hb
  rw [flushSubnormal_of_not_subnormal a na, flushSubnormal_of_not_subnormal b nb] at hr
  exact ⟨hr.finite hz (by rw [h]), hr.exact hz nz h⟩

/-- A product that a pattern has is exact. -/
theorem f32Mul_exact {a b z : Word} (ha : f32IsFinite a = true) (hb : f32IsFinite b = true) (na : NotSubnormal a)
    (nb : NotSubnormal b) (hz : f32IsFinite z = true) (nz : NotSubnormal z) (h : f32Rat a * f32Rat b = f32Rat z) :
    f32IsFinite (f32Mul a b) = true ∧ f32Rat (f32Mul a b) = f32Rat z := by
  have hr := f32Mul_rounds ha hb
  rw [flushSubnormal_of_not_subnormal a na, flushSubnormal_of_not_subnormal b nb] at hr
  exact ⟨hr.finite hz (by rw [h]), hr.exact hz nz h⟩

end Sys2Proof.Machine
end

