-- ==== Sys2Proof/Laws/State.lean ====
section
/-! SUPPORT. What each update of the state does to each field: one lemma per field and update. -/

namespace Sys2Proof.Machine

@[simp] theorem advanceHead_w (s : State) :
    (advanceHead s).w = BitVec.ofNat 25 (nextHead s.len.toNat s.w.toNat) := by simp only [advanceHead]
@[simp] theorem advanceHead_ph (s : State) : (advanceHead s).ph = s.ph := by simp only [advanceHead]
@[simp] theorem advanceHead_sm (s : State) : (advanceHead s).sm = s.sm := by simp only [advanceHead]
@[simp] theorem advanceHead_fbL (s : State) : (advanceHead s).fbL = s.fbL := by simp only [advanceHead]
@[simp] theorem advanceHead_fbR (s : State) : (advanceHead s).fbR = s.fbR := by simp only [advanceHead]
@[simp] theorem advanceHead_status (s : State) : (advanceHead s).status = s.status := by simp only [advanceHead]
@[simp] theorem advanceHead_sr (s : State) : (advanceHead s).sr = s.sr := by simp only [advanceHead]
@[simp] theorem advanceHead_len (s : State) : (advanceHead s).len = s.len := by simp only [advanceHead]
@[simp] theorem advanceHead_blk (s : State) : (advanceHead s).blk = s.blk := by simp only [advanceHead]
@[simp] theorem advanceHead_bufL (s : State) : (advanceHead s).bufL = s.bufL := by simp only [advanceHead]
@[simp] theorem advanceHead_bufR (s : State) : (advanceHead s).bufR = s.bufR := by simp only [advanceHead]
@[simp] theorem advanceHead_params (s : State) : (advanceHead s).params = s.params := by simp only [advanceHead]
@[simp] theorem advanceHead_outL (s : State) : (advanceHead s).outL = s.outL := by simp only [advanceHead]
@[simp] theorem advanceHead_outR (s : State) : (advanceHead s).outR = s.outR := by simp only [advanceHead]
@[simp] theorem advanceHead_done (s : State) : (advanceHead s).done = s.done := by simp only [advanceHead]
@[simp] theorem advanceHead_inbox (s : State) : (advanceHead s).inbox = s.inbox := by simp only [advanceHead]
@[simp] theorem advanceHead_freeIdx (s : State) : (advanceHead s).freeIdx = s.freeIdx := by simp only [advanceHead]

@[simp] theorem leaveOutputsOpen_w (s : State) : (leaveOutputsOpen s).w = s.w := rfl
@[simp] theorem leaveOutputsOpen_ph (s : State) : (leaveOutputsOpen s).ph = s.ph := rfl
@[simp] theorem leaveOutputsOpen_sm (s : State) : (leaveOutputsOpen s).sm = s.sm := rfl
@[simp] theorem leaveOutputsOpen_fbL (s : State) : (leaveOutputsOpen s).fbL = s.fbL := rfl
@[simp] theorem leaveOutputsOpen_fbR (s : State) : (leaveOutputsOpen s).fbR = s.fbR := rfl
@[simp] theorem leaveOutputsOpen_status (s : State) : (leaveOutputsOpen s).status = s.status := rfl
@[simp] theorem leaveOutputsOpen_sr (s : State) : (leaveOutputsOpen s).sr = s.sr := rfl
@[simp] theorem leaveOutputsOpen_len (s : State) : (leaveOutputsOpen s).len = s.len := rfl
@[simp] theorem leaveOutputsOpen_blk (s : State) : (leaveOutputsOpen s).blk = s.blk := rfl
@[simp] theorem leaveOutputsOpen_bufL (s : State) : (leaveOutputsOpen s).bufL = s.bufL := rfl
@[simp] theorem leaveOutputsOpen_bufR (s : State) : (leaveOutputsOpen s).bufR = s.bufR := rfl
@[simp] theorem leaveOutputsOpen_params (s : State) : (leaveOutputsOpen s).params = s.params := rfl
@[simp] theorem leaveOutputsOpen_outL (s : State) :
    (leaveOutputsOpen s).outL = Config.unspecifiedOutput s.freeIdx .left := rfl
@[simp] theorem leaveOutputsOpen_outR (s : State) :
    (leaveOutputsOpen s).outR = Config.unspecifiedOutput s.freeIdx .right := rfl
@[simp] theorem leaveOutputsOpen_done (s : State) : (leaveOutputsOpen s).done = s.done := rfl
@[simp] theorem leaveOutputsOpen_inbox (s : State) : (leaveOutputsOpen s).inbox = s.inbox := rfl
@[simp] theorem leaveOutputsOpen_freeIdx (s : State) : (leaveOutputsOpen s).freeIdx = s.freeIdx + 1 := rfl

@[simp] theorem refuseTick_w (s : State) : (refuseTick s).w = s.w := rfl
@[simp] theorem refuseTick_ph (s : State) : (refuseTick s).ph = s.ph := rfl
@[simp] theorem refuseTick_sm (s : State) : (refuseTick s).sm = s.sm := rfl
@[simp] theorem refuseTick_fbL (s : State) : (refuseTick s).fbL = s.fbL := rfl
@[simp] theorem refuseTick_fbR (s : State) : (refuseTick s).fbR = s.fbR := rfl
@[simp] theorem refuseTick_status (s : State) : (refuseTick s).status = s.status := rfl
@[simp] theorem refuseTick_sr (s : State) : (refuseTick s).sr = s.sr := rfl
@[simp] theorem refuseTick_len (s : State) : (refuseTick s).len = s.len := rfl
@[simp] theorem refuseTick_blk (s : State) : (refuseTick s).blk = s.blk := rfl
@[simp] theorem refuseTick_bufL (s : State) : (refuseTick s).bufL = s.bufL := rfl
@[simp] theorem refuseTick_bufR (s : State) : (refuseTick s).bufR = s.bufR := rfl
@[simp] theorem refuseTick_params (s : State) : (refuseTick s).params = s.params := rfl
@[simp] theorem refuseTick_outL (s : State) : (refuseTick s).outL = Config.unspecifiedOutput s.freeIdx .left := rfl
@[simp] theorem refuseTick_outR (s : State) : (refuseTick s).outR = Config.unspecifiedOutput s.freeIdx .right := rfl
@[simp] theorem refuseTick_done (s : State) : (refuseTick s).done = s.done := rfl
@[simp] theorem refuseTick_inbox (s : State) : (refuseTick s).inbox = s.inbox := rfl
@[simp] theorem refuseTick_freeIdx (s : State) : (refuseTick s).freeIdx = s.freeIdx + 1 := rfl

@[simp] theorem raise_w (c : Cause) (s : State) : (raise c s).w = s.w := by
  unfold raise; split <;> rfl
@[simp] theorem raise_ph (c : Cause) (s : State) : (raise c s).ph = s.ph := by
  unfold raise; split <;> rfl
@[simp] theorem raise_sm (c : Cause) (s : State) : (raise c s).sm = s.sm := by
  unfold raise; split <;> rfl
@[simp] theorem raise_fbL (c : Cause) (s : State) : (raise c s).fbL = s.fbL := by
  unfold raise; split <;> rfl
@[simp] theorem raise_fbR (c : Cause) (s : State) : (raise c s).fbR = s.fbR := by
  unfold raise; split <;> rfl
@[simp] theorem raise_status (c : Cause) (s : State) :
    (raise c s).status = if statusFlt s.status = 0 then statusWithFault c.code c.fch s.status else s.status := by
  unfold raise; split <;> rfl
@[simp] theorem raise_sr (c : Cause) (s : State) : (raise c s).sr = s.sr := by
  unfold raise; split <;> rfl
@[simp] theorem raise_len (c : Cause) (s : State) : (raise c s).len = s.len := by
  unfold raise; split <;> rfl
@[simp] theorem raise_blk (c : Cause) (s : State) : (raise c s).blk = s.blk := by
  unfold raise; split <;> rfl
@[simp] theorem raise_bufL (c : Cause) (s : State) : (raise c s).bufL = s.bufL := by
  unfold raise; split <;> rfl
@[simp] theorem raise_bufR (c : Cause) (s : State) : (raise c s).bufR = s.bufR := by
  unfold raise; split <;> rfl
@[simp] theorem raise_params (c : Cause) (s : State) :
    (raise c s).params = s.params := by
  unfold raise; split <;> rfl
@[simp] theorem raise_outL (c : Cause) (s : State) :
    (raise c s).outL = Config.unspecifiedOutput s.freeIdx .left := by
  unfold raise; split <;> rfl
@[simp] theorem raise_outR (c : Cause) (s : State) :
    (raise c s).outR = Config.unspecifiedOutput s.freeIdx .right := by
  unfold raise; split <;> rfl
@[simp] theorem raise_done (c : Cause) (s : State) : (raise c s).done = s.done := by
  unfold raise; split <;> rfl
@[simp] theorem raise_inbox (c : Cause) (s : State) : (raise c s).inbox = s.inbox := by
  unfold raise; split <;> rfl
@[simp] theorem raise_freeIdx (c : Cause) (s : State) :
    (raise c s).freeIdx = s.freeIdx + 1 := by
  unfold raise; split <;> rfl

@[simp] theorem takeEvent_w (rest : List HostEvent) (a : Bool) (s : State) :
    (takeEvent rest a s).w = s.w := rfl
@[simp] theorem takeEvent_ph (rest : List HostEvent) (a : Bool) (s : State) :
    (takeEvent rest a s).ph = s.ph := rfl
@[simp] theorem takeEvent_sm (rest : List HostEvent) (a : Bool) (s : State) :
    (takeEvent rest a s).sm = s.sm := rfl
@[simp] theorem takeEvent_fbL (rest : List HostEvent) (a : Bool) (s : State) :
    (takeEvent rest a s).fbL = s.fbL := rfl
@[simp] theorem takeEvent_fbR (rest : List HostEvent) (a : Bool) (s : State) :
    (takeEvent rest a s).fbR = s.fbR := rfl
@[simp] theorem takeEvent_status (rest : List HostEvent) (a : Bool) (s : State) :
    (takeEvent rest a s).status = s.status := rfl
@[simp] theorem takeEvent_sr (rest : List HostEvent) (a : Bool) (s : State) :
    (takeEvent rest a s).sr = s.sr := rfl
@[simp] theorem takeEvent_len (rest : List HostEvent) (a : Bool) (s : State) :
    (takeEvent rest a s).len = s.len := rfl
@[simp] theorem takeEvent_blk (rest : List HostEvent) (a : Bool) (s : State) :
    (takeEvent rest a s).blk = s.blk := rfl
@[simp] theorem takeEvent_bufL (rest : List HostEvent) (a : Bool) (s : State) :
    (takeEvent rest a s).bufL = s.bufL := rfl
@[simp] theorem takeEvent_bufR (rest : List HostEvent) (a : Bool) (s : State) :
    (takeEvent rest a s).bufR = s.bufR := rfl
@[simp] theorem takeEvent_params (rest : List HostEvent) (a : Bool) (s : State) :
    (takeEvent rest a s).params = s.params := rfl
@[simp] theorem takeEvent_outL (rest : List HostEvent) (a : Bool) (s : State) :
    (takeEvent rest a s).outL = Config.unspecifiedOutput s.freeIdx .left := rfl
@[simp] theorem takeEvent_outR (rest : List HostEvent) (a : Bool) (s : State) :
    (takeEvent rest a s).outR = Config.unspecifiedOutput s.freeIdx .right := rfl
@[simp] theorem takeEvent_done (rest : List HostEvent) (a : Bool) (s : State) :
    (takeEvent rest a s).done = a := rfl
@[simp] theorem takeEvent_inbox (rest : List HostEvent) (a : Bool) (s : State) :
    (takeEvent rest a s).inbox = rest := rfl
@[simp] theorem takeEvent_freeIdx (rest : List HostEvent) (a : Bool) (s : State) :
    (takeEvent rest a s).freeIdx = s.freeIdx + 1 := rfl

@[simp] theorem resetEvent_w (s : State) : (resetEvent s).w = 0 := rfl
@[simp] theorem resetEvent_ph (s : State) : (resetEvent s).ph = 0 := rfl
@[simp] theorem resetEvent_sm (s : State) : (resetEvent s).sm = 0 := rfl
@[simp] theorem resetEvent_fbL (s : State) : (resetEvent s).fbL = 0 := rfl
@[simp] theorem resetEvent_fbR (s : State) : (resetEvent s).fbR = 0 := rfl
@[simp] theorem resetEvent_status (s : State) : (resetEvent s).status = 0 := rfl
@[simp] theorem resetEvent_sr (s : State) : (resetEvent s).sr = 0 := rfl
@[simp] theorem resetEvent_len (s : State) : (resetEvent s).len = 0 := rfl
@[simp] theorem resetEvent_blk (s : State) : (resetEvent s).blk = 0 := rfl
@[simp] theorem resetEvent_bufL (s : State) : (resetEvent s).bufL = [] := rfl
@[simp] theorem resetEvent_bufR (s : State) : (resetEvent s).bufR = [] := rfl
@[simp] theorem resetEvent_params (s : State) : (resetEvent s).params = s.params := rfl
@[simp] theorem resetEvent_outL (s : State) : (resetEvent s).outL = Config.unspecifiedOutput s.freeIdx .left := rfl
@[simp] theorem resetEvent_outR (s : State) : (resetEvent s).outR = Config.unspecifiedOutput s.freeIdx .right := rfl
@[simp] theorem resetEvent_done (s : State) : (resetEvent s).done = false := rfl
@[simp] theorem resetEvent_inbox (s : State) : (resetEvent s).inbox = s.inbox := rfl
@[simp] theorem resetEvent_freeIdx (s : State) : (resetEvent s).freeIdx = s.freeIdx + 1 := rfl

@[simp] theorem setParam_w (p : FParam) (v : Word) (s : State) : (setParam p v s).w = s.w := rfl
@[simp] theorem setParam_ph (p : FParam) (v : Word) (s : State) : (setParam p v s).ph = s.ph := rfl
@[simp] theorem setParam_sm (p : FParam) (v : Word) (s : State) : (setParam p v s).sm = s.sm := rfl
@[simp] theorem setParam_fbL (p : FParam) (v : Word) (s : State) : (setParam p v s).fbL = s.fbL := rfl
@[simp] theorem setParam_fbR (p : FParam) (v : Word) (s : State) : (setParam p v s).fbR = s.fbR := rfl
@[simp] theorem setParam_status (p : FParam) (v : Word) (s : State) : (setParam p v s).status = s.status := rfl
@[simp] theorem setParam_sr (p : FParam) (v : Word) (s : State) : (setParam p v s).sr = s.sr := rfl
@[simp] theorem setParam_len (p : FParam) (v : Word) (s : State) : (setParam p v s).len = s.len := rfl
@[simp] theorem setParam_blk (p : FParam) (v : Word) (s : State) : (setParam p v s).blk = s.blk := rfl
@[simp] theorem setParam_bufL (p : FParam) (v : Word) (s : State) : (setParam p v s).bufL = s.bufL := rfl
@[simp] theorem setParam_bufR (p : FParam) (v : Word) (s : State) : (setParam p v s).bufR = s.bufR := rfl
@[simp] theorem setParam_params (p : FParam) (v : Word) (s : State) :
    (setParam p v s).params = s.params.set p v := rfl
@[simp] theorem setParam_outL (p : FParam) (v : Word) (s : State) : (setParam p v s).outL = s.outL := rfl
@[simp] theorem setParam_outR (p : FParam) (v : Word) (s : State) : (setParam p v s).outR = s.outR := rfl
@[simp] theorem setParam_done (p : FParam) (v : Word) (s : State) : (setParam p v s).done = s.done := rfl
@[simp] theorem setParam_inbox (p : FParam) (v : Word) (s : State) : (setParam p v s).inbox = s.inbox := rfl
@[simp] theorem setParam_freeIdx (p : FParam) (v : Word) (s : State) : (setParam p v s).freeIdx = s.freeIdx := rfl

@[simp] theorem setType_w (t : BitVec 2) (s : State) : (setType t s).w = s.w := rfl
@[simp] theorem setType_ph (t : BitVec 2) (s : State) : (setType t s).ph = s.ph := rfl
@[simp] theorem setType_sm (t : BitVec 2) (s : State) : (setType t s).sm = s.sm := rfl
@[simp] theorem setType_fbL (t : BitVec 2) (s : State) : (setType t s).fbL = s.fbL := rfl
@[simp] theorem setType_fbR (t : BitVec 2) (s : State) : (setType t s).fbR = s.fbR := rfl
@[simp] theorem setType_status (t : BitVec 2) (s : State) : (setType t s).status = s.status := rfl
@[simp] theorem setType_sr (t : BitVec 2) (s : State) : (setType t s).sr = s.sr := rfl
@[simp] theorem setType_len (t : BitVec 2) (s : State) : (setType t s).len = s.len := rfl
@[simp] theorem setType_blk (t : BitVec 2) (s : State) : (setType t s).blk = s.blk := rfl
@[simp] theorem setType_bufL (t : BitVec 2) (s : State) : (setType t s).bufL = s.bufL := rfl
@[simp] theorem setType_bufR (t : BitVec 2) (s : State) : (setType t s).bufR = s.bufR := rfl
@[simp] theorem setType_params (t : BitVec 2) (s : State) :
    (setType t s).params = ⟨s.params.dryWet, s.params.feedback, s.params.depth, s.params.rate, s.params.phaseOffset, t⟩ := rfl
@[simp] theorem setType_outL (t : BitVec 2) (s : State) : (setType t s).outL = s.outL := rfl
@[simp] theorem setType_outR (t : BitVec 2) (s : State) : (setType t s).outR = s.outR := rfl
@[simp] theorem setType_done (t : BitVec 2) (s : State) : (setType t s).done = s.done := rfl
@[simp] theorem setType_inbox (t : BitVec 2) (s : State) : (setType t s).inbox = s.inbox := rfl
@[simp] theorem setType_freeIdx (t : BitVec 2) (s : State) : (setType t s).freeIdx = s.freeIdx := rfl

@[simp] theorem mixAndEmit_w (o : TickOperands) (a b : Word) (s : State) :
    (mixAndEmit o a b s).w = s.w := by simp only [mixAndEmit]
@[simp] theorem mixAndEmit_ph (o : TickOperands) (a b : Word) (s : State) :
    (mixAndEmit o a b s).ph = s.ph := by simp only [mixAndEmit]
@[simp] theorem mixAndEmit_sm (o : TickOperands) (a b : Word) (s : State) :
    (mixAndEmit o a b s).sm = s.sm := by simp only [mixAndEmit]
@[simp] theorem mixAndEmit_fbL (o : TickOperands) (a b : Word) (s : State) :
    (mixAndEmit o a b s).fbL = carry num a o.feedback := by simp only [mixAndEmit]
@[simp] theorem mixAndEmit_fbR (o : TickOperands) (a b : Word) (s : State) :
    (mixAndEmit o a b s).fbR = carry num b o.feedback := by simp only [mixAndEmit]
@[simp] theorem mixAndEmit_status (o : TickOperands) (a b : Word) (s : State) :
    (mixAndEmit o a b s).status = s.status := by simp only [mixAndEmit]
@[simp] theorem mixAndEmit_sr (o : TickOperands) (a b : Word) (s : State) :
    (mixAndEmit o a b s).sr = s.sr := by simp only [mixAndEmit]
@[simp] theorem mixAndEmit_len (o : TickOperands) (a b : Word) (s : State) :
    (mixAndEmit o a b s).len = s.len := by simp only [mixAndEmit]
@[simp] theorem mixAndEmit_blk (o : TickOperands) (a b : Word) (s : State) :
    (mixAndEmit o a b s).blk = s.blk := by simp only [mixAndEmit]
@[simp] theorem mixAndEmit_bufL (o : TickOperands) (a b : Word) (s : State) :
    (mixAndEmit o a b s).bufL = s.bufL := by simp only [mixAndEmit]
@[simp] theorem mixAndEmit_bufR (o : TickOperands) (a b : Word) (s : State) :
    (mixAndEmit o a b s).bufR = s.bufR := by simp only [mixAndEmit]
@[simp] theorem mixAndEmit_params (o : TickOperands) (a b : Word) (s : State) :
    (mixAndEmit o a b s).params = s.params := by simp only [mixAndEmit]
@[simp] theorem mixAndEmit_outL (o : TickOperands) (a b : Word) (s : State) :
    (mixAndEmit o a b s).outL = mix num o.inL a o.dryWet := by simp only [mixAndEmit]
@[simp] theorem mixAndEmit_outR (o : TickOperands) (a b : Word) (s : State) :
    (mixAndEmit o a b s).outR = mix num o.inR b o.dryWet := by simp only [mixAndEmit]
@[simp] theorem mixAndEmit_done (o : TickOperands) (a b : Word) (s : State) :
    (mixAndEmit o a b s).done = s.done := by simp only [mixAndEmit]
@[simp] theorem mixAndEmit_inbox (o : TickOperands) (a b : Word) (s : State) :
    (mixAndEmit o a b s).inbox = s.inbox := by simp only [mixAndEmit]
@[simp] theorem mixAndEmit_freeIdx (o : TickOperands) (a b : Word) (s : State) :
    (mixAndEmit o a b s).freeIdx = s.freeIdx := by simp only [mixAndEmit]

@[simp] theorem configure_w (a b c : Word) (n : Nat) (s : State) :
    (configure a b c n s).w = 0 := by simp only [configure]
@[simp] theorem configure_ph (a b c : Word) (n : Nat) (s : State) :
    (configure a b c n s).ph = s.ph := by simp only [configure]
@[simp] theorem configure_sm (a b c : Word) (n : Nat) (s : State) :
    (configure a b c n s).sm = targetTime num c := by simp only [configure]
@[simp] theorem configure_fbL (a b c : Word) (n : Nat) (s : State) :
    (configure a b c n s).fbL = s.fbL := by simp only [configure]
@[simp] theorem configure_fbR (a b c : Word) (n : Nat) (s : State) :
    (configure a b c n s).fbR = s.fbR := by simp only [configure]
@[simp] theorem configure_status (a b c : Word) (n : Nat) (s : State) :
    (configure a b c n s).status = statusWithCfg true false s.status := by simp only [configure]
@[simp] theorem configure_sr (a b c : Word) (n : Nat) (s : State) :
    (configure a b c n s).sr = a := by simp only [configure]
@[simp] theorem configure_len (a b c : Word) (n : Nat) (s : State) :
    (configure a b c n s).len = BitVec.ofNat 25 n := by simp only [configure]
@[simp] theorem configure_blk (a b c : Word) (n : Nat) (s : State) :
    (configure a b c n s).blk = b := by simp only [configure]
@[simp] theorem configure_bufL (a b c : Word) (n : Nat) (s : State) :
    (configure a b c n s).bufL = [] := by simp only [configure]
@[simp] theorem configure_bufR (a b c : Word) (n : Nat) (s : State) :
    (configure a b c n s).bufR = [] := by simp only [configure]
@[simp] theorem configure_params (a b c : Word) (n : Nat) (s : State) :
    (configure a b c n s).params = s.params := by simp only [configure]
@[simp] theorem configure_outL (a b c : Word) (n : Nat) (s : State) :
    (configure a b c n s).outL = s.outL := by simp only [configure]
@[simp] theorem configure_outR (a b c : Word) (n : Nat) (s : State) :
    (configure a b c n s).outR = s.outR := by simp only [configure]
@[simp] theorem configure_done (a b c : Word) (n : Nat) (s : State) :
    (configure a b c n s).done = s.done := by simp only [configure]
@[simp] theorem configure_inbox (a b c : Word) (n : Nat) (s : State) :
    (configure a b c n s).inbox = s.inbox := by simp only [configure]
@[simp] theorem configure_freeIdx (a b c : Word) (n : Nat) (s : State) :
    (configure a b c n s).freeIdx = s.freeIdx := by simp only [configure]

@[simp] theorem reportInvalidSampleRate_w (s : State) : (reportInvalidSampleRate s).w = s.w := rfl
@[simp] theorem reportInvalidSampleRate_ph (s : State) : (reportInvalidSampleRate s).ph = s.ph := rfl
@[simp] theorem reportInvalidSampleRate_sm (s : State) : (reportInvalidSampleRate s).sm = s.sm := rfl
@[simp] theorem reportInvalidSampleRate_fbL (s : State) : (reportInvalidSampleRate s).fbL = s.fbL := rfl
@[simp] theorem reportInvalidSampleRate_fbR (s : State) : (reportInvalidSampleRate s).fbR = s.fbR := rfl
@[simp] theorem reportInvalidSampleRate_status (s : State) :
    (reportInvalidSampleRate s).status = statusWithCfg false true s.status := rfl
@[simp] theorem reportInvalidSampleRate_sr (s : State) : (reportInvalidSampleRate s).sr = s.sr := rfl
@[simp] theorem reportInvalidSampleRate_len (s : State) : (reportInvalidSampleRate s).len = s.len := rfl
@[simp] theorem reportInvalidSampleRate_blk (s : State) : (reportInvalidSampleRate s).blk = s.blk := rfl
@[simp] theorem reportInvalidSampleRate_bufL (s : State) : (reportInvalidSampleRate s).bufL = s.bufL := rfl
@[simp] theorem reportInvalidSampleRate_bufR (s : State) : (reportInvalidSampleRate s).bufR = s.bufR := rfl
@[simp] theorem reportInvalidSampleRate_params (s : State) : (reportInvalidSampleRate s).params = s.params := rfl
@[simp] theorem reportInvalidSampleRate_outL (s : State) : (reportInvalidSampleRate s).outL = s.outL := rfl
@[simp] theorem reportInvalidSampleRate_outR (s : State) : (reportInvalidSampleRate s).outR = s.outR := rfl
@[simp] theorem reportInvalidSampleRate_done (s : State) : (reportInvalidSampleRate s).done = s.done := rfl
@[simp] theorem reportInvalidSampleRate_inbox (s : State) : (reportInvalidSampleRate s).inbox = s.inbox := rfl
@[simp] theorem reportInvalidSampleRate_freeIdx (s : State) : (reportInvalidSampleRate s).freeIdx = s.freeIdx := rfl

@[simp] theorem delayTimes_w (o : TickOperands) (s : State) : (delayTimes o s).s.w = s.w := by simp only [delayTimes]
@[simp] theorem delayTimes_ph (o : TickOperands) (s : State) :
    (delayTimes o s).s.ph = s.ph := by simp only [delayTimes]
@[simp] theorem delayTimes_sm (o : TickOperands) (s : State) :
    (delayTimes o s).s.sm = smooth num s.sm (targetTime num o.rate) := by simp only [delayTimes]
@[simp] theorem delayTimes_fbL (o : TickOperands) (s : State) :
    (delayTimes o s).s.fbL = s.fbL := by simp only [delayTimes]
@[simp] theorem delayTimes_fbR (o : TickOperands) (s : State) :
    (delayTimes o s).s.fbR = s.fbR := by simp only [delayTimes]
@[simp] theorem delayTimes_status (o : TickOperands) (s : State) :
    (delayTimes o s).s.status = s.status := by simp only [delayTimes]
@[simp] theorem delayTimes_sr (o : TickOperands) (s : State) :
    (delayTimes o s).s.sr = s.sr := by simp only [delayTimes]
@[simp] theorem delayTimes_len (o : TickOperands) (s : State) :
    (delayTimes o s).s.len = s.len := by simp only [delayTimes]
@[simp] theorem delayTimes_blk (o : TickOperands) (s : State) :
    (delayTimes o s).s.blk = s.blk := by simp only [delayTimes]
@[simp] theorem delayTimes_bufL (o : TickOperands) (s : State) :
    (delayTimes o s).s.bufL = s.bufL := by simp only [delayTimes]
@[simp] theorem delayTimes_bufR (o : TickOperands) (s : State) :
    (delayTimes o s).s.bufR = s.bufR := by simp only [delayTimes]
@[simp] theorem delayTimes_params (o : TickOperands) (s : State) :
    (delayTimes o s).s.params = s.params := by simp only [delayTimes]
@[simp] theorem delayTimes_outL (o : TickOperands) (s : State) :
    (delayTimes o s).s.outL = s.outL := by simp only [delayTimes]
@[simp] theorem delayTimes_outR (o : TickOperands) (s : State) :
    (delayTimes o s).s.outR = s.outR := by simp only [delayTimes]
@[simp] theorem delayTimes_done (o : TickOperands) (s : State) :
    (delayTimes o s).s.done = s.done := by simp only [delayTimes]
@[simp] theorem delayTimes_inbox (o : TickOperands) (s : State) :
    (delayTimes o s).s.inbox = s.inbox := by simp only [delayTimes]
@[simp] theorem delayTimes_freeIdx (o : TickOperands) (s : State) :
    (delayTimes o s).s.freeIdx = s.freeIdx := by simp only [delayTimes]

@[simp] theorem modulatedTimes_w (lo hi : Word) (o : TickOperands) (s : State) :
    (modulatedTimes lo hi o s).s.w = s.w := by simp only [modulatedTimes]
@[simp] theorem modulatedTimes_ph (lo hi : Word) (o : TickOperands) (s : State) :
    (modulatedTimes lo hi o s).s.ph = advancePhase num s.ph o.rate s.sr := by simp only [modulatedTimes]
@[simp] theorem modulatedTimes_sm (lo hi : Word) (o : TickOperands) (s : State) :
    (modulatedTimes lo hi o s).s.sm = s.sm := by simp only [modulatedTimes]
@[simp] theorem modulatedTimes_fbL (lo hi : Word) (o : TickOperands) (s : State) :
    (modulatedTimes lo hi o s).s.fbL = s.fbL := by simp only [modulatedTimes]
@[simp] theorem modulatedTimes_fbR (lo hi : Word) (o : TickOperands) (s : State) :
    (modulatedTimes lo hi o s).s.fbR = s.fbR := by simp only [modulatedTimes]
@[simp] theorem modulatedTimes_status (lo hi : Word) (o : TickOperands) (s : State) :
    (modulatedTimes lo hi o s).s.status = s.status := by simp only [modulatedTimes]
@[simp] theorem modulatedTimes_sr (lo hi : Word) (o : TickOperands) (s : State) :
    (modulatedTimes lo hi o s).s.sr = s.sr := by simp only [modulatedTimes]
@[simp] theorem modulatedTimes_len (lo hi : Word) (o : TickOperands) (s : State) :
    (modulatedTimes lo hi o s).s.len = s.len := by simp only [modulatedTimes]
@[simp] theorem modulatedTimes_blk (lo hi : Word) (o : TickOperands) (s : State) :
    (modulatedTimes lo hi o s).s.blk = s.blk := by simp only [modulatedTimes]
@[simp] theorem modulatedTimes_bufL (lo hi : Word) (o : TickOperands) (s : State) :
    (modulatedTimes lo hi o s).s.bufL = s.bufL := by simp only [modulatedTimes]
@[simp] theorem modulatedTimes_bufR (lo hi : Word) (o : TickOperands) (s : State) :
    (modulatedTimes lo hi o s).s.bufR = s.bufR := by simp only [modulatedTimes]
@[simp] theorem modulatedTimes_params (lo hi : Word) (o : TickOperands) (s : State) :
    (modulatedTimes lo hi o s).s.params = s.params := by simp only [modulatedTimes]
@[simp] theorem modulatedTimes_outL (lo hi : Word) (o : TickOperands) (s : State) :
    (modulatedTimes lo hi o s).s.outL = s.outL := by simp only [modulatedTimes]
@[simp] theorem modulatedTimes_outR (lo hi : Word) (o : TickOperands) (s : State) :
    (modulatedTimes lo hi o s).s.outR = s.outR := by simp only [modulatedTimes]
@[simp] theorem modulatedTimes_done (lo hi : Word) (o : TickOperands) (s : State) :
    (modulatedTimes lo hi o s).s.done = s.done := by simp only [modulatedTimes]
@[simp] theorem modulatedTimes_inbox (lo hi : Word) (o : TickOperands) (s : State) :
    (modulatedTimes lo hi o s).s.inbox = s.inbox := by simp only [modulatedTimes]
@[simp] theorem modulatedTimes_freeIdx (lo hi : Word) (o : TickOperands) (s : State) :
    (modulatedTimes lo hi o s).s.freeIdx = s.freeIdx := by simp only [modulatedTimes]

@[simp] theorem withBuf_w (c : Channel) (m : Memory) (s : State) : (s.withBuf c m).w = s.w := by
  cases c <;> rfl
@[simp] theorem withBuf_ph (c : Channel) (m : Memory) (s : State) : (s.withBuf c m).ph = s.ph := by
  cases c <;> rfl
@[simp] theorem withBuf_sm (c : Channel) (m : Memory) (s : State) : (s.withBuf c m).sm = s.sm := by
  cases c <;> rfl
@[simp] theorem withBuf_fbL (c : Channel) (m : Memory) (s : State) :
    (s.withBuf c m).fbL = s.fbL := by
  cases c <;> rfl
@[simp] theorem withBuf_fbR (c : Channel) (m : Memory) (s : State) :
    (s.withBuf c m).fbR = s.fbR := by
  cases c <;> rfl
@[simp] theorem withBuf_status (c : Channel) (m : Memory) (s : State) :
    (s.withBuf c m).status = s.status := by
  cases c <;> rfl
@[simp] theorem withBuf_sr (c : Channel) (m : Memory) (s : State) : (s.withBuf c m).sr = s.sr := by
  cases c <;> rfl
@[simp] theorem withBuf_len (c : Channel) (m : Memory) (s : State) :
    (s.withBuf c m).len = s.len := by
  cases c <;> rfl
@[simp] theorem withBuf_blk (c : Channel) (m : Memory) (s : State) :
    (s.withBuf c m).blk = s.blk := by
  cases c <;> rfl
@[simp] theorem withBuf_bufL (c : Channel) (m : Memory) (s : State) :
    (s.withBuf c m).bufL = match c with
    | .left => m
    | .right => s.bufL := by
  cases c <;> rfl
@[simp] theorem withBuf_bufR (c : Channel) (m : Memory) (s : State) :
    (s.withBuf c m).bufR = match c with
    | .left => s.bufR
    | .right => m := by
  cases c <;> rfl
@[simp] theorem withBuf_params (c : Channel) (m : Memory) (s : State) :
    (s.withBuf c m).params = s.params := by
  cases c <;> rfl
@[simp] theorem withBuf_outL (c : Channel) (m : Memory) (s : State) :
    (s.withBuf c m).outL = s.outL := by
  cases c <;> rfl
@[simp] theorem withBuf_outR (c : Channel) (m : Memory) (s : State) :
    (s.withBuf c m).outR = s.outR := by
  cases c <;> rfl
@[simp] theorem withBuf_done (c : Channel) (m : Memory) (s : State) :
    (s.withBuf c m).done = s.done := by
  cases c <;> rfl
@[simp] theorem withBuf_inbox (c : Channel) (m : Memory) (s : State) :
    (s.withBuf c m).inbox = s.inbox := by
  cases c <;> rfl
@[simp] theorem withBuf_freeIdx (c : Channel) (m : Memory) (s : State) :
    (s.withBuf c m).freeIdx = s.freeIdx := by
  cases c <;> rfl

@[simp] theorem delayTimes_dL (o : TickOperands) (s : State) :
    (delayTimes o s).dL = num.fmul (smooth num s.sm (targetTime num o.rate)) s.sr := by simp only [delayTimes]
@[simp] theorem delayTimes_dR (o : TickOperands) (s : State) : (delayTimes o s).dR = (delayTimes o s).dL := by
  simp only [delayTimes]
@[simp] theorem modulatedTimes_dL (lo hi : Word) (o : TickOperands) (s : State) :
    (modulatedTimes lo hi o s).dL = timeWithRate o.rate (modulatedTime num lo hi s.sr o.depth s.ph) := by
  simp only [modulatedTimes]
@[simp] theorem modulatedTimes_dR (lo hi : Word) (o : TickOperands) (s : State) :
    (modulatedTimes lo hi o s).dR =
      timeWithRate o.rate (modulatedTime num lo hi s.sr o.depth (rightPhase num s.ph o.phaseOffset)) := by
  simp only [modulatedTimes]

/-- A buffer after one of the two is replaced. -/
theorem buf_withBuf (s : State) (c c' : Channel) (m : Memory) :
    (s.withBuf c m).buf c' = if c = c' then m else s.buf c' := by
  cases c <;> cases c' <;> rfl

end Sys2Proof.Machine
end

