-- ==== Sys2Proof/Laws/Status.lean ====
section
/-! SUPPORT. The fields of `STATUS` after each way of writing it, and the mode. -/

namespace Sys2Proof.Machine

@[simp] theorem statusCfg_withCfg (c e : Bool) (st : BitVec 8) : statusCfg (statusWithCfg c e st) = c := by
  revert c e st; decide

@[simp] theorem statusErr_withCfg (c e : Bool) (st : BitVec 8) : statusErr (statusWithCfg c e st) = e := by
  revert c e st; decide

@[simp] theorem statusFlt_withCfg (c e : Bool) (st : BitVec 8) : statusFlt (statusWithCfg c e st) = statusFlt st := by
  revert c e st; decide

@[simp] theorem statusFch_withCfg (c e : Bool) (st : BitVec 8) : statusFch (statusWithCfg c e st) = statusFch st := by
  revert c e st; decide

@[simp] theorem statusReserved_withCfg (c e : Bool) (st : BitVec 8) :
    statusReserved (statusWithCfg c e st) = statusReserved st := by
  revert c e st; decide

/-- Writing `CFG` and `ERR` twice is writing them once. -/
@[simp] theorem statusWithCfg_idem (c e c' e' : Bool) (st : BitVec 8) :
    statusWithCfg c e (statusWithCfg c' e' st) = statusWithCfg c e st := by
  revert c e c' e' st; decide

@[simp] theorem statusFlt_withFault (k : BitVec 3) (f : Bool) (st : BitVec 8) :
    statusFlt (statusWithFault k f st) = k := by
  simp only [statusFlt, statusWithFault]
  ext i hi
  simp only [BitVec.getElem_extractLsb', BitVec.getLsbD_append, BitVec.getLsbD_extractLsb']
  have : i = 0 ∨ i = 1 ∨ i = 2 := by omega
  rcases this with rfl | rfl | rfl <;> simp

@[simp] theorem statusFch_withFault (k : BitVec 3) (f : Bool) (st : BitVec 8) :
    statusFch (statusWithFault k f st) = f := by
  simp only [statusFch, statusWithFault, BitVec.getLsbD_append]; simp

@[simp] theorem statusCfg_withFault (k : BitVec 3) (f : Bool) (st : BitVec 8) :
    statusCfg (statusWithFault k f st) = statusCfg st := by
  simp only [statusCfg, statusWithFault, BitVec.getLsbD_append]; simp

@[simp] theorem statusErr_withFault (k : BitVec 3) (f : Bool) (st : BitVec 8) :
    statusErr (statusWithFault k f st) = statusErr st := by
  simp only [statusErr, statusWithFault, BitVec.getLsbD_append]; simp

@[simp] theorem statusReserved_withFault (k : BitVec 3) (f : Bool) (st : BitVec 8) :
    statusReserved (statusWithFault k f st) = statusReserved st := by
  simp only [statusReserved, statusWithFault]
  ext i hi
  simp only [BitVec.getElem_extractLsb', BitVec.getLsbD_append, BitVec.getLsbD_extractLsb']
  have : i = 0 ∨ i = 1 := by omega
  rcases this with rfl | rfl <;> simp

/-- The mode is `FAULTED` exactly when a cause is recorded (R225). -/
theorem mode_eq_faulted (s : State) : s.mode = .faulted ↔ statusFlt s.status ≠ 0 := by
  simp only [State.mode, modeOf]
  split
  · simp_all
  · split <;> simp_all

/-- The mode is `READY` exactly when no cause is recorded and a valid `CFG` has completed (R225). -/
theorem mode_eq_ready (s : State) : s.mode = .ready ↔ statusFlt s.status = 0 ∧ statusCfg s.status = true := by
  simp only [State.mode, modeOf]
  split
  · simp_all
  · split <;> simp_all

/-- The mode is `UNCONFIGURED` in every other case (R225). -/
theorem mode_eq_unconfigured (s : State) :
    s.mode = .unconfigured ↔ statusFlt s.status = 0 ∧ statusCfg s.status = false := by
  simp only [State.mode, modeOf]
  split
  · simp_all
  · split <;> simp_all

@[simp] theorem code_ne_zero (c : Cause) : c.code ≠ 0 := by
  cases c <;> simp [Cause.code]

/-- After `raise` the mode is `FAULTED` (R216). -/
theorem mode_raise (c : Cause) (s : State) : (raise c s).mode = .faulted := by
  rw [mode_eq_faulted]
  unfold raise
  by_cases h : statusFlt s.status = 0
  · simp only [h, if_true]
    show statusFlt (statusWithFault c.code c.fch s.status) ≠ 0
    rw [statusFlt_withFault]
    exact code_ne_zero c
  · simp only [h, if_false]
    exact h

end Sys2Proof.Machine
end

