-- ==== Sys2Proof/Laws/Configure.lean ====
section
/-! SUPPORT. All that `CFG`, the reserved words and a raise can do. -/

namespace Sys2Proof.Machine

/-- A valid length is at least one word and at most `LEN_MAX` (R191). -/
theorem bufferLength_bounds {F : Type} {N : Num F} {sr : F} {n : Nat} (h : bufferLength N sr = some n) :
    1 ≤ n ∧ n ≤ Config.lenMax := by
  unfold bufferLength at h
  split at h
  · cases h
  · split at h
    · cases h
    · split at h
      · next hq =>
        obtain rfl := Option.some.inj h
        generalize N.floor (N.fmul sr N.two) = q at *
        omega
      · cases h

/-- A valid length fits its register (R28). -/
theorem bufferLength_toNat {F : Type} {N : Num F} {sr : F} {n : Nat} (h : bufferLength N sr = some n) :
    (BitVec.ofNat 25 n).toNat = n := by
  have := (bufferLength_bounds h).2
  rw [BitVec.toNat_ofNat, Nat.mod_eq_of_lt (lt_of_le_of_lt this (by decide))]

/-- A command other than a `TICK`, in mode `FAULTED`: nothing (R219). -/
theorem execCfg_faulted {sr blk rate : Word} {s : State} (h : s.mode = .faulted) : execCfg sr blk rate s = .next s := by
  rw [execCfg, h]

/-- A valid `CFG` (R192). -/
theorem execCfg_some {sr blk rate : Word} {s : State} {n : Nat} (hm : s.mode ≠ .faulted)
    (h : bufferLength num sr = some n) : execCfg sr blk rate s = .next (configure sr blk rate n s) := by
  rw [execCfg, h]
  cases hs : s.mode <;> simp_all

/-- An invalid `CFG` (R193). -/
theorem execCfg_none {sr blk rate : Word} {s : State} (hm : s.mode ≠ .faulted) (h : bufferLength num sr = none) :
    execCfg sr blk rate s = .next (reportInvalidSampleRate s) := by
  rw [execCfg, h]
  cases hs : s.mode <;> simp_all

/-- A raise with no cause recorded records its own; the outputs are left open (R216). -/
theorem raise_of_ready {c : Cause} {s : State} (h : statusFlt s.status = 0) :
    raise c s = { s with
      status := statusWithFault c.code c.fch s.status
      outL := Config.unspecifiedOutput s.freeIdx .left
      outR := Config.unspecifiedOutput s.freeIdx .right
      freeIdx := s.freeIdx + 1 } := by
  rw [raise, if_pos h, leaveOutputsOpen]

/-- A raise with a cause recorded keeps it; the outputs are left open (R216). -/
theorem raise_of_faulted {c : Cause} {s : State} (h : statusFlt s.status ≠ 0) :
    raise c s = { s with
      outL := Config.unspecifiedOutput s.freeIdx .left
      outR := Config.unspecifiedOutput s.freeIdx .right
      freeIdx := s.freeIdx + 1 } := by
  rw [raise, if_neg h, leaveOutputsOpen]

theorem execReservedCmdOp3_faulted {s : State} (h : s.mode = .faulted) : execReservedCmdOp3 s = .next s := by
  rw [execReservedCmdOp3, h]

theorem execReservedCmdOp3_of_ne {s : State} (h : s.mode ≠ .faulted) :
    execReservedCmdOp3 s = .next (raise .illegalCommand s) := by
  rw [execReservedCmdOp3]
  cases hs : s.mode <;> simp_all

end Sys2Proof.Machine
end

