-- ==== Sys2Proof/Laws/Decode.lean ====
section
/-! SUPPORT. The parts of decoding: headers, rows, and words from bytes. -/

namespace Sys2Proof

/-- The four command codes, and the four type codes. -/
theorem bits2_cases (a : BitVec 2) : a = 0#2 ∨ a = 1#2 ∨ a = 2#2 ∨ a = 3#2 := by revert a; decide

theorem headerWord_toNat (a t : BitVec 2) : (headerWord a t).toNat = 4 * a.toNat + t.toNat := by revert a t; decide

theorem headerWord_lt (a t : BitVec 2) : (headerWord a t).toNat < 16 := by revert a t; decide

@[simp] theorem headerWord_typeBits (a t : BitVec 2) : (headerWord a t).setWidth 2 = t := by revert a t; decide

@[simp] theorem headerWord_opword (a t : BitVec 2) : (headerWord a t).setWidth 4 = a ++ t := by revert a t; decide

@[simp] theorem headerWord_bits10 (a t : BitVec 2) : (headerWord a t).extractLsb' 0 2 = t := by revert a t; decide

@[simp] theorem headerWord_bits32 (a t : BitVec 2) : (headerWord a t).extractLsb' 2 2 = a := by revert a t; decide

/-- A word below 16 is the header of some command code and type bits (R92). -/
theorem eq_headerWord {w : Word} (h : w.toNat < 16) : ∃ a t : BitVec 2, w = headerWord a t := by
  have hw : w = (w.setWidth 4).setWidth 32 := by
    apply BitVec.eq_of_toNat_eq
    simp only [BitVec.toNat_setWidth]
    omega
  rw [hw]
  generalize w.setWidth 4 = o
  exact ⟨o.extractLsb' 2 2, o.extractLsb' 0 2, by revert o; decide⟩

@[simp] theorem findKind_nop (t : BitVec 2) : findKind (0#2 ++ t) = some .nop := by revert t; decide
@[simp] theorem findKind_cfg (t : BitVec 2) : findKind (1#2 ++ t) = some .cfg := by revert t; decide
@[simp] theorem findKind_tickDelay : findKind (2#2 ++ 0#2) = some .tickDelay := by decide
@[simp] theorem findKind_tickChorus : findKind (2#2 ++ 1#2) = some .tickChorus := by decide
@[simp] theorem findKind_tickFlanger : findKind (2#2 ++ 2#2) = some .tickFlanger := by decide
@[simp] theorem findKind_reservedTickType3 : findKind (2#2 ++ 3#2) = some .reservedTickType3 := by decide
@[simp] theorem findKind_reservedCmdOp3 (t : BitVec 2) : findKind (3#2 ++ t) = some .reservedCmdOp3 := by
  revert t; decide

/-- Decoding after a header is decoding the operands of its row (R82). -/
theorem decodeWords_header {a t : BitVec 2} {k : OpKind} (h : findKind (a ++ t) = some k) (rest : List Word) :
    decodeWords (headerWord a t :: rest) = takeOperands t rest k := by
  rw [decodeWords, if_pos (headerWord_lt a t), headerWord_opword, headerWord_typeBits, h]

/-- A first word at or above 16 is no header (R92). -/
theorem decodeWords_of_ge {w : Word} (h : 16 ≤ w.toNat) (rest : List Word) :
    decodeWords (w :: rest) = .error .headerNotOpword := by
  rw [decodeWords, if_neg (by omega)]

/-- A word is put together from its own bytes (R61). -/
theorem wordOfBytes_bytes (w : Word) :
    wordOfBytes (w.extractLsb' 0 8) (w.extractLsb' 8 8) (w.extractLsb' 16 8) (w.extractLsb' 24 8) = w := by
  unfold wordOfBytes
  ext i hi
  simp only [BitVec.getElem_append, BitVec.getElem_extractLsb']
  split
  · simp [← BitVec.getLsbD_eq_getElem]
  · split
    · simp only [← BitVec.getLsbD_eq_getElem]; congr 1; omega
    · split
      · simp only [← BitVec.getLsbD_eq_getElem]; congr 1; omega
      · simp only [← BitVec.getLsbD_eq_getElem]; congr 1; omega

/-- The words at the front of some bytes are read back (R61). -/
theorem wordsOfBytes_append (ws : List Word) (rest : List Byte) :
    wordsOfBytes (bytesOfWords ws ++ rest) = ws ++ wordsOfBytes rest := by
  induction ws with
  | nil => rfl
  | cons w ws ih =>
    show wordsOfBytes ((bytesOfWord w ++ bytesOfWords ws) ++ rest) = _
    rw [List.append_assoc]
    simp only [bytesOfWord, List.cons_append, List.nil_append, wordsOfBytes, wordOfBytes_bytes, ih]

theorem length_bytesOfWords (ws : List Word) : (bytesOfWords ws).length = 4 * ws.length := by
  induction ws with
  | nil => rfl
  | cons w ws ih =>
    simp only [bytesOfWords, bytesOfWord, List.flatMap_cons, List.length_append, List.length_cons, List.length_nil] at *
    omega

end Sys2Proof
end

