-- ==== Sys2Proof/Laws/Memory.lean ====
section
/-! SUPPORT. The ring buffers: a read after a write, the canonical form, and what an access answers. -/

namespace Sys2Proof.Machine

theorem read_consWord (m : Memory) (i j : Nat) (v : Word) (h : i ≠ j ∨ v ≠ 0 ∨ Memory.read m j = 0#32) :
    Memory.read (Memory.consWord i v m) j = if i = j then v else Memory.read m j := by
  unfold Memory.consWord
  by_cases hv : v = 0#32
  · by_cases hij : i = j
    · simp_all
    · simp [hv, hij]
  · simp [hv, Memory.read]

/-- Below its lowest index a canonical buffer lists nothing. -/
theorem read_eq_zero_of_lt (m : Memory) (lo j : Nat) (h : Memory.wfFrom lo m = true) (hj : j < lo) :
    Memory.read m j = 0#32 := by
  induction m generalizing lo with
  | nil => rfl
  | cons cell rest ih =>
    obtain ⟨k, x⟩ := cell
    simp only [Memory.wfFrom, Bool.and_eq_true, decide_eq_true_eq] at h
    have hk : k ≠ j := by omega
    simp only [Memory.read, hk, if_false]
    exact ih (k + 1) h.2 (by omega)

theorem wfFrom_mono (m : Memory) (lo lo' : Nat) (h : Memory.wfFrom lo m = true) (hle : lo' ≤ lo) :
    Memory.wfFrom lo' m = true := by
  cases m with
  | nil => rfl
  | cons cell rest =>
    simp only [Memory.wfFrom, Bool.and_eq_true, decide_eq_true_eq] at h ⊢
    exact ⟨⟨by omega, h.1.2⟩, h.2⟩

/-- Reading the index just written gives the word written, whatever the form of the list. -/
theorem read_write_same (m : Memory) (i : Nat) (v : Word) (lo : Nat) (h : Memory.wfFrom lo m = true) :
    Memory.read (Memory.write m i v) i = v := by
  induction m generalizing lo with
  | nil => simp [Memory.write, Memory.consWord]; split <;> simp_all [Memory.read]
  | cons cell rest ih =>
    obtain ⟨k, x⟩ := cell
    have h' := h
    simp only [Memory.wfFrom, Bool.and_eq_true, decide_eq_true_eq] at h
    simp only [Memory.write]
    split
    · next hlt =>
      rw [read_consWord]
      · simp
      · refine .inr (.inr ?_)
        have hwf : Memory.wfFrom k ((k, x) :: rest) = true := by
          simp [Memory.wfFrom, h.1.2, h.2]
        exact read_eq_zero_of_lt _ k i hwf hlt
    · split
      · next heq =>
        subst heq
        rw [read_consWord]
        · simp
        · exact .inr (.inr (read_eq_zero_of_lt _ (i + 1) i h.2 (by omega)))
      · next hne =>
        have hk : k ≠ i := fun e => hne e.symm
        simp only [Memory.read, hk, if_false]
        exact ih (k + 1) h.2

/-- Every other index reads as before, whatever the form of the list. -/
theorem read_write_other (m : Memory) (i j : Nat) (v : Word) (hij : i ≠ j) :
    Memory.read (Memory.write m i v) j = Memory.read m j := by
  induction m with
  | nil => simp [Memory.write, read_consWord _ _ _ _ (.inl hij), hij]
  | cons cell rest ih =>
    obtain ⟨k, x⟩ := cell
    simp only [Memory.write]
    split
    · rw [read_consWord _ _ _ _ (.inl hij)]; simp [hij]
    · split
      · next heq =>
        subst heq
        rw [read_consWord _ _ _ _ (.inl hij)]; simp [hij, Memory.read]
      · simp only [Memory.read]
        split
        · rfl
        · exact ih

theorem wfFrom_write (m : Memory) (i : Nat) (v : Word) (lo : Nat) (h : Memory.wfFrom lo m = true) :
    Memory.wfFrom (min lo i) (Memory.write m i v) = true := by
  induction m generalizing lo with
  | nil =>
    simp only [Memory.write, Memory.consWord]
    split
    · rfl
    · next hv => simp [Memory.wfFrom, hv]
  | cons cell rest ih =>
    obtain ⟨k, x⟩ := cell
    simp only [Memory.wfFrom, Bool.and_eq_true, decide_eq_true_eq] at h
    simp only [Memory.write]
    split
    · next hlt =>
      unfold Memory.consWord
      split
      · exact wfFrom_mono ((k, x) :: rest) lo _ (by simp [Memory.wfFrom, h.1.1, h.1.2, h.2]) (by omega)
      · next hv => simp [Memory.wfFrom, h.1.2, h.2, hv]; omega
    · split
      · next heq =>
        subst heq
        unfold Memory.consWord
        split
        · exact wfFrom_mono _ _ _ h.2 (by omega)
        · next hv => simp [Memory.wfFrom, hv, h.2]
      · next hge hne =>
        simp only [Memory.wfFrom, Bool.and_eq_true, decide_eq_true_eq]
        refine ⟨⟨by omega, h.1.2⟩, ?_⟩
        have := ih (k + 1) h.2
        rwa [show min (k + 1) i = k + 1 by omega] at this

/-- A write keeps the canonical form. -/
theorem write_wf (m : Memory) (i : Nat) (v : Word) (h : m.wf = true) : (Memory.write m i v).wf = true := by
  have := wfFrom_write m i v 0 h
  simpa [Memory.wf] using this

/-- A write below `n` lists no index at or above `n`. -/
theorem write_within (m : Memory) (n i : Nat) (v : Word) (h : Memory.within n m = true) (hi : i < n) :
    Memory.within n (Memory.write m i v) = true := by
  induction m with
  | nil => simp only [Memory.write, Memory.consWord]; split <;> simp [Memory.within, hi]
  | cons cell rest ih =>
    obtain ⟨k, x⟩ := cell
    simp only [Memory.within, Bool.and_eq_true, decide_eq_true_eq] at h
    simp only [Memory.write, Memory.consWord]
    split
    · split <;> simp [Memory.within, h.1, h.2, hi]
    · split
      · split <;> simp [Memory.within, h.2, hi]
      · simp [Memory.within, h.1, ih h.2]

/-- A read at or above the bound of the listed indices is `+0.0`. -/
theorem read_of_within (m : Memory) (n i : Nat) (h : Memory.within n m = true) (hi : n ≤ i) : Memory.read m i = 0#32 := by
  induction m with
  | nil => rfl
  | cons cell rest ih =>
    obtain ⟨k, x⟩ := cell
    simp only [Memory.within, Bool.and_eq_true, decide_eq_true_eq] at h
    have hk : k ≠ i := by omega
    simp only [Memory.read, hk, if_false]
    exact ih h.2

/-- The canonical form is canonical: buffers that read alike are equal. -/
theorem eq_of_read_eq (m m' : Memory) (lo : Nat) (h : Memory.wfFrom lo m = true) (h' : Memory.wfFrom lo m' = true)
    (heq : ∀ i, Memory.read m i = Memory.read m' i) : m = m' := by
  induction m generalizing m' lo with
  | nil =>
    cases m' with
    | nil => rfl
    | cons cell rest =>
      obtain ⟨k, x⟩ := cell
      simp only [Memory.wfFrom, Bool.and_eq_true, decide_eq_true_eq] at h'
      have := heq k
      simp only [Memory.read, if_true] at this
      exact absurd this.symm h'.1.2
  | cons cell rest ih =>
    obtain ⟨k, x⟩ := cell
    simp only [Memory.wfFrom, Bool.and_eq_true, decide_eq_true_eq] at h
    cases m' with
    | nil =>
      have := heq k
      simp only [Memory.read, if_true] at this
      exact absurd this h.1.2
    | cons cell' rest' =>
      obtain ⟨k', x'⟩ := cell'
      simp only [Memory.wfFrom, Bool.and_eq_true, decide_eq_true_eq] at h'
      have hkk : k = k' := by
        rcases Nat.lt_trichotomy k k' with hlt | heq' | hgt
        · have hr := heq k
          have hne : k' ≠ k := by omega
          simp only [Memory.read, if_true, hne, if_false] at hr
          rw [read_eq_zero_of_lt rest' (k' + 1) k h'.2 (by omega)] at hr
          exact absurd hr h.1.2
        · exact heq'
        · have hr := heq k'
          have hne : k ≠ k' := by omega
          simp only [Memory.read, if_true, hne, if_false] at hr
          rw [read_eq_zero_of_lt rest (k + 1) k' h.2 (by omega)] at hr
          exact absurd hr.symm h'.1.2
      subst hkk
      have hx : x = x' := by simpa [Memory.read] using heq k
      subst hx
      congr 1
      refine ih rest' (k + 1) h.2 h'.2 fun i => ?_
      by_cases hi : k = i
      · subst hi
        rw [read_eq_zero_of_lt _ _ _ h.2 (by omega), read_eq_zero_of_lt _ _ _ h'.2 (by omega)]
      · simpa [Memory.read, hi] using heq i

/-- All a load can answer: the word of an index that exists. -/
theorem memRead_ok {s : State} {c : Channel} {i : Nat} {v : Word} (h : memRead s c i = .ok v) :
    i < s.len.toNat ∧ v = Memory.read (s.buf c) i := by
  unfold memRead at h
  split at h
  · exact ⟨‹_›, by simpa using h.symm⟩
  · cases h

theorem memRead_of_lt {s : State} {c : Channel} {i : Nat} (h : i < s.len.toNat) :
    memRead s c i = .ok (Memory.read (s.buf c) i) := by
  simp [memRead, h]

/-- All a store can answer: the state with that one word replaced. -/
theorem memWrite_ok {s t : State} {c : Channel} {i : Nat} {v : Word} (h : memWrite s c i v = .ok t) :
    i < s.len.toNat ∧ t = s.withBuf c (Memory.write (s.buf c) i v) := by
  unfold memWrite at h
  split at h
  · exact ⟨‹_›, by simpa using h.symm⟩
  · cases h

theorem memWrite_of_lt {s : State} {c : Channel} {i : Nat} (v : Word) (h : i < s.len.toNat) :
    memWrite s c i v = .ok (s.withBuf c (Memory.write (s.buf c) i v)) := by
  simp [memWrite, h]

end Sys2Proof.Machine
end

