-- ==== Sys2Proof/Laws/Tick.lean ====
section
/-! SUPPORT. What a tick can do, said once for its three forms: admission, the store, the reads, and how it ends. -/

namespace Sys2Proof.Machine

/-! ### Admission (R104) -/

theorem admitTick_ready {body : State → Host.Outcome State Fault Refusal} {s : State} (h : s.mode = .ready) :
    admitTick body s = body s := by simp only [admitTick, h]

theorem admitTick_unconfigured {body : State → Host.Outcome State Fault Refusal} {s : State}
    (h : s.mode = .unconfigured) : admitTick body s = .next (raise .notConfigured s) := by simp only [admitTick, h]

theorem admitTick_faulted {body : State → Host.Outcome State Fault Refusal} {s : State} (h : s.mode = .faulted) :
    admitTick body s = .next (refuseTick s) := by simp only [admitTick, h]

/-- A mode is one of three. -/
theorem mode_cases (s : State) : s.mode = .unconfigured ∨ s.mode = .ready ∨ s.mode = .faulted := by
  cases s.mode <;> simp

/-! ### The head and the store (R102, R103) -/

theorem nextHead_lt {len w : Nat} (h : 0 < len) : nextHead len w < len := Nat.mod_lt _ h

/-- The advanced head fits its register. -/
theorem nextHead_toNat (len : Index) (w : Nat) (h : 0 < len.toNat) :
    (BitVec.ofNat 25 (nextHead len.toNat w)).toNat = nextHead len.toNat w := by
  rw [BitVec.toNat_ofNat]
  exact Nat.mod_eq_of_lt (lt_trans (nextHead_lt h) len.isLt)

/-- A state with the words of a tick stored at `W` (R102). -/
theorem storeFrame_of_lt (o : TickOperands) {s : State} (h : s.w.toNat < s.len.toNat) :
    storeFrame o s = .ok { s with
      bufL := Memory.write s.bufL s.w.toNat (f32Add o.inL s.fbL)
      bufR := Memory.write s.bufR s.w.toNat (f32Add o.inR s.fbR) } := by
  simp only [storeFrame, State.withBuf, State.buf, memWrite, h, if_true]
  rfl

/-- With `W` at or above `LEN` the store has no meaning (R62). -/
theorem storeFrame_of_ge (o : TickOperands) {s : State} (h : s.len.toNat ≤ s.w.toNat) :
    storeFrame o s = .error (.noSuchWord .left s.w.toNat) := by
  simp only [storeFrame, memWrite, Nat.not_lt.mpr h, if_false]

/-! ### The slots and the reads (R127, R128) -/

/-- What `slotsOf` can answer: a first slot in the buffer, and the next one modulo the length. -/
theorem slotsOf_some {F : Type} {N : Num F} {len : Nat} {p : F} {sl : Slots F} (h : slotsOf N len p = some sl) :
    N.isNaN p = false ∧ N.isInf p = false ∧ (sl.i0 : Int) = N.floor p ∧ sl.i0 < len ∧
    sl.i1 = (if len ≤ sl.i0 + 1 then sl.i0 + 1 - len else sl.i0 + 1) ∧ sl.fr = N.fsub p (N.itof sl.i0) := by
  unfold slotsOf at h
  split at h
  · cases h
  · next hn =>
    split at h
    · cases h
    · next hf =>
      obtain rfl := Option.some.inj h
      simp only [Bool.or_eq_true, not_or, Bool.not_eq_true] at hn
      exact ⟨hn.1, hn.2, by dsimp only; omega, by dsimp only; omega, rfl, rfl⟩

/-- Both slots are words of the buffer. -/
theorem slotsOf_lt {F : Type} {N : Num F} {len : Nat} {p : F} {sl : Slots F} (h : slotsOf N len p = some sl) :
    sl.i0 < len ∧ sl.i1 < len := by
  obtain ⟨-, -, -, h0, h1, -⟩ := slotsOf_some h
  refine ⟨h0, ?_⟩
  rw [h1]
  split <;> omega

@[simp] theorem ReadResult.ofLoad_ok (v : Word) (k : Word → ReadResult) : ReadResult.ofLoad (.ok v) k = k v := rfl

theorem readInterp_none {s : State} {c : Channel} {d : Word} (h : readSlots num s.len.toNat s.w.toNat d = none) :
    readInterp s c d = .raised (.bufferUnderflow c) := by simp only [readInterp, h, Option.elim_none]

/-- With both slots below `LEN` the loads succeed (R128). -/
theorem loadAndLerp_of_lt {s : State} {c : Channel} {sl : Slots Word} (h0 : sl.i0 < s.len.toNat)
    (h1 : sl.i1 < s.len.toNat) :
    loadAndLerp s c sl = .wet (lerp num (Memory.read (s.buf c) sl.i0) (Memory.read (s.buf c) sl.i1) sl.fr) := by
  rw [loadAndLerp, memRead_of_lt h0, memRead_of_lt h1, ReadResult.ofLoad_ok, ReadResult.ofLoad_ok]

/-- The slots of an interpolated read are words of the buffer. -/
theorem readSlots_lt {F : Type} {N : Num F} {len w : Nat} {d : F} {sl : Slots F} (h : readSlots N len w d = some sl) :
    sl.i0 < len ∧ sl.i1 < len := slotsOf_lt h

theorem readInterp_eq_load {s : State} {c : Channel} {d : Word} {sl : Slots Word}
    (h : readSlots num s.len.toNat s.w.toNat d = some sl) : readInterp s c d = loadAndLerp s c sl := by
  rw [readInterp, h, Option.elim_some]

/-- With slots, the read is the interpolation of the two words (R128). -/
theorem readInterp_some {s : State} {c : Channel} {d : Word} {sl : Slots Word}
    (h : readSlots num s.len.toNat s.w.toNat d = some sl) :
    readInterp s c d = .wet (lerp num (Memory.read (s.buf c) sl.i0) (Memory.read (s.buf c) sl.i1) sl.fr) :=
  (readInterp_eq_load h).trans (loadAndLerp_of_lt (readSlots_lt h).1 (readSlots_lt h).2)

@[simp] theorem ReadResult.andThen_wet (v : Word) (s : State) (k : Word → Host.Outcome State Fault Refusal) :
    (ReadResult.wet v).andThen s k = k v := rfl

@[simp] theorem ReadResult.andThen_raised (c : Cause) (s : State) (k : Word → Host.Outcome State Fault Refusal) :
    (ReadResult.raised c).andThen s k = .next (raise c s) := rfl

/-- No left slot: `BufferUnderflow(0)`, and the right lane is not read (R212). -/
theorem readAndFinish_left_none {o : TickOperands} {t : Timed}
    (hL : readSlots num t.s.len.toNat t.s.w.toNat t.dL = none) :
    readAndFinish o t = .next (raise (.bufferUnderflow .left) t.s) := by
  rw [readAndFinish, readInterp_none hL, ReadResult.andThen_raised]

/-- No right slot: `BufferUnderflow(1)` (R212). -/
theorem readAndFinish_right_none {o : TickOperands} {t : Timed} {slL : Slots Word}
    (hL : readSlots num t.s.len.toNat t.s.w.toNat t.dL = some slL)
    (hR : readSlots num t.s.len.toNat t.s.w.toNat t.dR = none) :
    readAndFinish o t = .next (raise (.bufferUnderflow .right) t.s) := by
  rw [readAndFinish, readInterp_some hL, ReadResult.andThen_wet, readInterp_none hR, ReadResult.andThen_raised]

/-- Both lanes have slots: steps 4 to 6 with the two wet samples (R108). -/
theorem readAndFinish_some {o : TickOperands} {t : Timed} {slL slR : Slots Word}
    (hL : readSlots num t.s.len.toNat t.s.w.toNat t.dL = some slL)
    (hR : readSlots num t.s.len.toNat t.s.w.toNat t.dR = some slR) :
    readAndFinish o t = .next (mixAndEmit o
      (lerp num (Memory.read t.s.bufL slL.i0) (Memory.read t.s.bufL slL.i1) slL.fr)
      (lerp num (Memory.read t.s.bufR slR.i0) (Memory.read t.s.bufR slR.i1) slR.fr) t.s) := by
  rw [readAndFinish, readInterp_some hL, ReadResult.andThen_wet, readInterp_some hR, ReadResult.andThen_wet,
    State.buf, State.buf]

/-- The steps of an admitted tick with `W` in the buffer are the reads and the end, from the stored and advanced state. -/
theorem tickSteps_of_lt (times : TickOperands → State → Timed) (o : TickOperands) {s : State}
    (h : s.w.toNat < s.len.toNat) :
    tickSteps times o s = readAndFinish o (times o { s with
      bufL := Memory.write s.bufL s.w.toNat (f32Add o.inL s.fbL)
      bufR := Memory.write s.bufR s.w.toNat (f32Add o.inR s.fbR)
      w := BitVec.ofNat 25 (nextHead s.len.toNat s.w.toNat) }) := by
  simp only [tickSteps, storeFrame_of_lt o h, advanceHead]

theorem tickSteps_of_ge (times : TickOperands → State → Timed) (o : TickOperands) {s : State}
    (h : s.len.toNat ≤ s.w.toNat) : tickSteps times o s = .fault (.noSuchWord .left s.w.toNat) := by
  simp only [tickSteps, storeFrame_of_ge o h]

/-- The time functions of the three ticks. -/
inductive IsTimes : (TickOperands → State → Timed) → Prop where
  | delay : IsTimes delayTimes
  | modulated (lo hi : Word) : IsTimes (modulatedTimes lo hi)

/-- A tick's time function changes `SM` and `PH` and no other field, and its times depend on `SM`, `PH` and `SR` only. -/
theorem IsTimes.frame {times : TickOperands → State → Timed} (h : IsTimes times) (o : TickOperands) (s : State) :
    (times o s).s = { s with sm := (times o s).s.sm, ph := (times o s).s.ph } := by
  cases h <;> simp only [delayTimes, modulatedTimes]

/-- The state at the end of step 3 of an admitted tick: both words stored, the head advanced, `SM` and `PH` as given
(R108). -/
def readState (o : TickOperands) (s : State) (sm ph : Word) : State := { s with
  bufL := Memory.write s.bufL s.w.toNat (f32Add o.inL s.fbL)
  bufR := Memory.write s.bufR s.w.toNat (f32Add o.inR s.fbR)
  w := BitVec.ofNat 25 (nextHead s.len.toNat s.w.toNat)
  sm := sm
  ph := ph }

/-- The times of a tick do not depend on the stores and the advance, and they keep them. -/
theorem IsTimes.readState {times : TickOperands → State → Timed} (h : IsTimes times) (o : TickOperands) (s : State) :
    times o (readState o s s.sm s.ph) =
      { dL := (times o s).dL
        dR := (times o s).dR
        s := Machine.readState o s (times o s).s.sm (times o s).s.ph } := by
  cases h <;> simp only [delayTimes, modulatedTimes, Machine.readState]

/-- All that a tick in mode `READY` can do with `W` in the buffer: a left underflow, a right underflow, or completion
with the two wet samples (R108, R212, R218). -/
theorem tick_cases {times : TickOperands → State → Timed} (h : IsTimes times) (o : TickOperands) {s t : State}
    (ht : t = readState o s (times o s).s.sm (times o s).s.ph)
    (hm : s.mode = .ready) (hw : s.w.toNat < s.len.toNat) :
    (slotsInTick s (times o s).dL = none ∧
      admitTick (tickSteps times o) s = .next (raise (.bufferUnderflow .left) t)) ∨
    (∃ slL, slotsInTick s (times o s).dL = some slL ∧ slotsInTick s (times o s).dR = none ∧
      admitTick (tickSteps times o) s = .next (raise (.bufferUnderflow .right) t)) ∨
    (∃ slL slR, slotsInTick s (times o s).dL = some slL ∧ slotsInTick s (times o s).dR = some slR ∧
      admitTick (tickSteps times o) s = .next (mixAndEmit o
        (lerp num (Memory.read t.bufL slL.i0) (Memory.read t.bufL slL.i1) slL.fr)
        (lerp num (Memory.read t.bufR slR.i0) (Memory.read t.bufR slR.i1) slR.fr) t)) := by
  have hpos : 0 < s.len.toNat := by omega
  have hrs : ∀ d, slotsInTick s d = readSlots num t.len.toNat t.w.toNat d := by
    intro d
    rw [slotsInTick, ht, Machine.readState, nextHead_toNat _ _ hpos]
  have hst := h.readState o s
  rw [Machine.readState, ← ht] at hst
  rw [admitTick_ready hm, tickSteps_of_lt times o hw, hst]
  simp only [hrs]
  generalize (times o s).dL = dL
  generalize (times o s).dR = dR
  cases hL : readSlots num t.len.toNat t.w.toNat dL with
  | none => exact .inl ⟨rfl, readAndFinish_left_none (t := ⟨dL, dR, t⟩) hL⟩
  | some slL =>
    cases hR : readSlots num t.len.toNat t.w.toNat dR with
    | none => exact .inr (.inl ⟨slL, rfl, rfl, readAndFinish_right_none (t := ⟨dL, dR, t⟩) hL hR⟩)
    | some slR => exact .inr (.inr ⟨slL, slR, rfl, rfl, readAndFinish_some (t := ⟨dL, dR, t⟩) hL hR⟩)

/-- Each tick is admission and the shared steps with its own time function (R144, R170, R171). -/
theorem exec_tickForms (o : TickOperands) {i : Instr} (hi : i ∈ tickForms o) :
    ∃ times, IsTimes times ∧ (∀ s, timedOf s i = some (times o s)) ∧
      ∀ s, exec i s = admitTick (tickSteps times o) s := by
  simp only [tickForms, List.mem_cons, List.not_mem_nil, or_false] at hi
  rcases hi with rfl | rfl | rfl
  · exact ⟨_, .delay, fun _ => rfl, fun _ => rfl⟩
  · exact ⟨_, .modulated _ _, fun _ => rfl, fun _ => rfl⟩
  · exact ⟨_, .modulated _ _, fun _ => rfl, fun _ => rfl⟩

/-- All that a tick in mode `READY` leaves when it answers a next state: `readState`, but for the carries, the outputs, the
count of free pairs and, after an underflow, `FLT` and `FCH`; each form keeps the register of the other state. -/
theorem tick_next {o : TickOperands} {i : Instr} {s t : State} (hi : i ∈ tickForms o) (hm : s.mode = .ready)
    (he : exec i s = .next t) :
    s.w.toNat < s.len.toNat ∧
    ∃ (st : BitVec 8) (ph sm fbL fbR outL outR : Word) (n : Nat),
      t = { s with
        bufL := Memory.write s.bufL s.w.toNat (f32Add o.inL s.fbL)
        bufR := Memory.write s.bufR s.w.toNat (f32Add o.inR s.fbR)
        w := BitVec.ofNat 25 (nextHead s.len.toNat s.w.toNat)
        sm := sm
        ph := ph
        status := st
        fbL := fbL
        fbR := fbR
        outL := outL
        outR := outR
        freeIdx := n } ∧
      (st = s.status ∨ ∃ c, st = statusWithFault 2 c s.status) ∧
      (i = .tickDelay o ∧ ph = s.ph ∨ i ≠ .tickDelay o ∧ sm = s.sm) := by
  obtain ⟨times, ht, h1, h2⟩ := exec_tickForms o hi
  have hw : s.w.toNat < s.len.toNat := by
    by_contra hc
    rw [h2, admitTick_ready hm, tickSteps_of_ge _ _ (by omega)] at he
    cases he
  refine ⟨hw, ?_⟩
  have hreg : i = .tickDelay o ∧ (times o s).s.ph = s.ph ∨ i ≠ .tickDelay o ∧ (times o s).s.sm = s.sm := by
    have h1 := h1 s
    simp only [tickForms, List.mem_cons, List.not_mem_nil, or_false] at hi
    rcases hi with rfl | rfl | rfl <;> simp only [timedOf] at h1 <;> rw [← Option.some.inj h1]
    · exact .inl ⟨rfl, by simp only [delayTimes]⟩
    · exact .inr ⟨by simp, by simp only [modulatedTimes]⟩
    · exact .inr ⟨by simp, by simp only [modulatedTimes]⟩
  have hf : statusFlt s.status = 0 := ((mode_eq_ready s).1 hm).1
  rw [h2] at he
  obtain ⟨-, e⟩ | ⟨_, -, -, e⟩ | ⟨_, _, -, -, e⟩ := tick_cases ht o rfl hm hw
  · rw [e, raise_of_ready (s := readState o s _ _) hf] at he
    injection he with he
    exact ⟨_, _, _, _, _, _, _, _, he.symm, .inr ⟨_, rfl⟩, hreg⟩
  · rw [e, raise_of_ready (s := readState o s _ _) hf] at he
    injection he with he
    exact ⟨_, _, _, _, _, _, _, _, he.symm, .inr ⟨_, rfl⟩, hreg⟩
  · rw [e] at he
    injection he with he
    simp only [mixAndEmit] at he
    exact ⟨_, _, _, _, _, _, _, _, he.symm, .inl rfl, hreg⟩

end Sys2Proof.Machine
end

