-- ==== Sys2Proof/Laws/Exec.lean ====
section
/-! SUPPORT. All that an instruction can do: one case for each way it can end; and that it neither reads nor changes the
events still to come. -/

namespace Sys2Proof.Machine

/-- A tick is of format `T` (R82). -/
theorem mem_formatT {o : TickOperands} {i : Instr} : i ∈ formatT o ↔ i ∈ tickForms o ∨ i = .reservedTickType3 o := by
  simp only [formatT, tickForms, List.mem_cons, List.not_mem_nil, or_false, or_assoc]

/-- A word of format `T` in mode `FAULTED` (R219). -/
theorem exec_formatT_faulted {o : TickOperands} {i : Instr} {s : State} (hi : i ∈ formatT o) (h : s.mode = .faulted) :
    exec i s = .next (refuseTick s) := by
  rcases mem_formatT.1 hi with hi | rfl
  · obtain ⟨times, -, -, he⟩ := exec_tickForms o hi
    rw [he, admitTick_faulted h]
  · rw [exec, execReservedTickType3, admitTick_faulted h]

/-- A word of format `T` in mode `UNCONFIGURED` (R213). -/
theorem exec_formatT_unconfigured {o : TickOperands} {i : Instr} {s : State} (hi : i ∈ formatT o)
    (h : s.mode = .unconfigured) : exec i s = .next (raise .notConfigured s) := by
  rcases mem_formatT.1 hi with hi | rfl
  · obtain ⟨times, -, -, he⟩ := exec_tickForms o hi
    rw [he, admitTick_unconfigured h]
  · rw [exec, execReservedTickType3, admitTick_unconfigured h]

/-- The reserved type code in mode `READY` (R88). -/
theorem exec_reservedTickType3_ready {o : TickOperands} {s : State} (h : s.mode = .ready) :
    exec (.reservedTickType3 o) s = .next (raise .illegalCommand s) := by
  rw [exec, execReservedTickType3, admitTick_ready h]

/-- A tick with `W` outside the buffer (R62). -/
theorem exec_tickForms_of_ge {o : TickOperands} {i : Instr} {s : State} (hi : i ∈ tickForms o) (h : s.mode = .ready)
    (hw : s.len.toNat ≤ s.w.toNat) : exec i s = .fault (.noSuchWord .left s.w.toNat) := by
  obtain ⟨times, -, -, he⟩ := exec_tickForms o hi
  rw [he, admitTick_ready h, tickSteps_of_ge _ _ hw]

/-- The ways an instruction can end. -/
theorem exec_cases (i : Instr) (s : State) :
    (exec i s = .next s ∧ ((∃ tb, i = .nop tb) ∨
      s.mode = .faulted ∧ ((∃ tb sr blk rate, i = .cfg tb sr blk rate) ∨ ∃ tb, i = .reservedCmdOp3 tb))) ∨
    (∃ tb sr blk rate n, i = .cfg tb sr blk rate ∧ s.mode ≠ .faulted ∧ bufferLength num sr = some n ∧
      exec i s = .next (configure sr blk rate n s)) ∨
    (∃ tb sr blk rate, i = .cfg tb sr blk rate ∧ s.mode ≠ .faulted ∧ bufferLength num sr = none ∧
      exec i s = .next (reportInvalidSampleRate s)) ∨
    (∃ tb, i = .reservedCmdOp3 tb ∧ s.mode ≠ .faulted ∧ exec i s = .next (raise .illegalCommand s)) ∨
    (∃ o, i ∈ formatT o ∧ s.mode = .faulted ∧ exec i s = .next (refuseTick s)) ∨
    (∃ o, i ∈ formatT o ∧ s.mode = .unconfigured ∧ exec i s = .next (raise .notConfigured s)) ∨
    (∃ o, i = .reservedTickType3 o ∧ s.mode = .ready ∧ exec i s = .next (raise .illegalCommand s)) ∨
    (∃ o, i ∈ tickForms o ∧ s.mode = .ready ∧ s.len.toNat ≤ s.w.toNat ∧
      exec i s = .fault (.noSuchWord .left s.w.toNat)) ∨
    (∃ o times, i ∈ tickForms o ∧ IsTimes times ∧ timedOf s i = some (times o s) ∧ s.mode = .ready ∧
      s.w.toNat < s.len.toNat ∧ exec i s = admitTick (tickSteps times o) s) := by
  have tick : ∀ o, i ∈ formatT o →
      (∃ o, i ∈ formatT o ∧ s.mode = .faulted ∧ exec i s = .next (refuseTick s)) ∨
      (∃ o, i ∈ formatT o ∧ s.mode = .unconfigured ∧ exec i s = .next (raise .notConfigured s)) ∨
      (∃ o, i = .reservedTickType3 o ∧ s.mode = .ready ∧ exec i s = .next (raise .illegalCommand s)) ∨
      (∃ o, i ∈ tickForms o ∧ s.mode = .ready ∧ s.len.toNat ≤ s.w.toNat ∧
        exec i s = .fault (.noSuchWord .left s.w.toNat)) ∨
      (∃ o times, i ∈ tickForms o ∧ IsTimes times ∧ timedOf s i = some (times o s) ∧ s.mode = .ready ∧
        s.w.toNat < s.len.toNat ∧ exec i s = admitTick (tickSteps times o) s) := by
    intro o hi
    rcases mode_cases s with hm | hm | hm
    · exact .inr (.inl ⟨o, hi, hm, exec_formatT_unconfigured hi hm⟩)
    · rcases mem_formatT.1 hi with hi | rfl
      · rcases Nat.lt_or_ge s.w.toNat s.len.toNat with hw | hw
        · obtain ⟨times, ht, h1, h2⟩ := exec_tickForms o hi
          exact .inr (.inr (.inr (.inr ⟨o, times, hi, ht, h1 s, hm, hw, h2 s⟩)))
        · exact .inr (.inr (.inr (.inl ⟨o, hi, hm, hw, exec_tickForms_of_ge hi hm hw⟩)))
      · exact .inr (.inr (.inl ⟨o, rfl, hm, exec_reservedTickType3_ready hm⟩))
    · exact .inl ⟨o, hi, hm, exec_formatT_faulted hi hm⟩
  cases i with
  | nop tb => exact .inl ⟨rfl, .inl ⟨tb, rfl⟩⟩
  | cfg tb sr blk rate =>
    by_cases hm : s.mode = .faulted
    · exact .inl ⟨execCfg_faulted hm, .inr ⟨hm, .inl ⟨tb, sr, blk, rate, rfl⟩⟩⟩
    · cases hb : bufferLength num sr with
      | none => exact .inr (.inr (.inl ⟨tb, sr, blk, rate, rfl, hm, hb, execCfg_none hm hb⟩))
      | some n => exact .inr (.inl ⟨tb, sr, blk, rate, n, rfl, hm, hb, execCfg_some hm hb⟩)
  | reservedCmdOp3 tb =>
    by_cases hm : s.mode = .faulted
    · exact .inl ⟨execReservedCmdOp3_faulted hm, .inr ⟨hm, .inr ⟨tb, rfl⟩⟩⟩
    · exact .inr (.inr (.inr (.inl ⟨tb, rfl, hm, execReservedCmdOp3_of_ne hm⟩)))
  | tickDelay o => exact .inr (.inr (.inr (.inr (tick o (by simp [formatT])))))
  | tickChorus o => exact .inr (.inr (.inr (.inr (tick o (by simp [formatT])))))
  | tickFlanger o => exact .inr (.inr (.inr (.inr (tick o (by simp [formatT])))))
  | reservedTickType3 o => exact .inr (.inr (.inr (.inr (tick o (by simp [formatT])))))

/-- A tick's times do not depend on the events that are still to come. -/
theorem IsTimes.withInbox {times : TickOperands → State → Timed} (h : IsTimes times) (o : TickOperands) (s : State)
    (es : List HostEvent) :
    times o { s with inbox := es } = { times o s with s := { (times o s).s with inbox := es } } := by
  cases h <;> simp only [delayTimes, modulatedTimes]

theorem raise_withInbox (c : Cause) (s : State) (es : List HostEvent) :
    raise c { s with inbox := es } = { raise c s with inbox := es } := by
  unfold raise; split <;> rfl

/-- What an instruction does is the same whatever events are still to come. -/
theorem exec_withInbox {i : Instr} {s t : State} (h : exec i s = .next t) (es : List HostEvent) :
    exec i { s with inbox := es } = .next { t with inbox := es } := by
  have tick {o : TickOperands} (hi : i ∈ tickForms o) :
      exec i { s with inbox := es } = .next { t with inbox := es } := by
    obtain ⟨times, ht, -, he⟩ := exec_tickForms o hi
    rw [he] at h ⊢
    rcases mode_cases s with hm | hm | hm
    · rw [admitTick_unconfigured hm] at h
      injection h with h
      rw [admitTick_unconfigured (s := { s with inbox := es }) hm, raise_withInbox, h]
    · rcases Nat.lt_or_ge s.w.toNat s.len.toNat with hw | hw
      · have hl : (times o { s with inbox := es }).dL = (times o s).dL := by rw [ht.withInbox]
        have hr : (times o { s with inbox := es }).dR = (times o s).dR := by rw [ht.withInbox]
        have hs := ht.withInbox o s es
        have slots : ∀ d, slotsInTick { s with inbox := es } d = slotsInTick s d := fun _ => rfl
        have e := tick_cases ht o (s := { s with inbox := es }) rfl hm hw
        rw [hl, hr] at e
        simp only [slots] at e
        rw [hs] at e
        rcases tick_cases ht o (s := s) rfl hm hw with ⟨h1, c⟩ | ⟨slL, h1, h2, c⟩ | ⟨slL, slR, h1, h2, c⟩ <;>
          rw [c] at h <;> injection h with h <;> subst h <;>
          rcases e with ⟨h3, e⟩ | ⟨_, h3, h4, e⟩ | ⟨_, _, h3, h4, e⟩ <;>
          rw [h1] at h3 <;> cases h3 <;> try (rw [h2] at h4; cases h4)
        · rw [e, ← raise_withInbox]; rfl
        · rw [e, ← raise_withInbox]; rfl
        · rw [e]; simp only [mixAndEmit, readState]
      · rw [admitTick_ready hm, tickSteps_of_ge _ _ hw] at h
        cases h
    · rw [admitTick_faulted hm] at h
      injection h with h
      rw [admitTick_faulted (s := { s with inbox := es }) hm, ← h]; rfl
  cases i with
  | nop tb => injection h with h; subst h; rfl
  | cfg tb sr blk rate =>
    have hc : ∀ s : State, exec (.cfg tb sr blk rate) s = execCfg sr blk rate s := fun _ => rfl
    rw [hc] at h ⊢
    by_cases hm : s.mode = .faulted
    · rw [execCfg_faulted hm] at h; injection h with h; subst h
      exact execCfg_faulted (s := { s with inbox := es }) hm
    · cases hb : bufferLength num sr with
      | none =>
        rw [execCfg_none hm hb] at h; injection h with h; subst h
        exact execCfg_none (s := { s with inbox := es }) hm hb
      | some n =>
        rw [execCfg_some hm hb] at h; injection h with h; subst h
        rw [execCfg_some (s := { s with inbox := es }) hm hb]
        simp only [configure]
  | reservedCmdOp3 tb =>
    have hc : ∀ s : State, exec (.reservedCmdOp3 tb) s = execReservedCmdOp3 s := fun _ => rfl
    rw [hc] at h ⊢
    by_cases hm : s.mode = .faulted
    · rw [execReservedCmdOp3_faulted hm] at h; injection h with h; subst h
      exact execReservedCmdOp3_faulted (s := { s with inbox := es }) hm
    · rw [execReservedCmdOp3_of_ne hm] at h; injection h with h; subst h
      rw [execReservedCmdOp3_of_ne (s := { s with inbox := es }) hm, raise_withInbox]
  | reservedTickType3 o =>
    rcases mode_cases s with hm | hm | hm
    · rw [exec_formatT_unconfigured (o := o) (by simp [formatT]) hm] at h; injection h with h; subst h
      rw [exec_formatT_unconfigured (o := o) (s := { s with inbox := es }) (by simp [formatT]) hm, raise_withInbox]
    · rw [exec_reservedTickType3_ready hm] at h; injection h with h; subst h
      rw [exec_reservedTickType3_ready (s := { s with inbox := es }) hm, raise_withInbox]
    · rw [exec_formatT_faulted (o := o) (by simp [formatT]) hm] at h; injection h with h; subst h
      exact exec_formatT_faulted (o := o) (s := { s with inbox := es }) (by simp [formatT]) hm
  | tickDelay o => exact tick (o := o) (by simp [tickForms])
  | tickChorus o => exact tick (o := o) (by simp [tickForms])
  | tickFlanger o => exact tick (o := o) (by simp [tickForms])

/-- An instruction leaves the events that are still to come. -/
theorem exec_inbox {i : Instr} {s t : State} (h : exec i s = .next t) : t.inbox = s.inbox := by
  have e := exec_withInbox h s.inbox
  rw [h] at e
  injection e with e
  exact (congrArg State.inbox e).trans rfl

end Sys2Proof.Machine
end

