-- ==== Sys2Proof/Laws/Ideal.lean ====
section
/-! SUPPORT. Ideal arithmetic: the fields of `idealNum`, and where a read position falls. -/

namespace Sys2Proof.Machine

@[simp] theorem idealNum_fadd (a b : ℝ) : idealNum.fadd a b = a + b := rfl
@[simp] theorem idealNum_fsub (a b : ℝ) : idealNum.fsub a b = a - b := rfl
@[simp] theorem idealNum_fmul (a b : ℝ) : idealNum.fmul a b = a * b := rfl
@[simp] theorem idealNum_fdiv (a b : ℝ) : idealNum.fdiv a b = a / b := rfl
@[simp] theorem idealNum_lt (a b : ℝ) : idealNum.lt a b = decide (a < b) := rfl
@[simp] theorem idealNum_isNaN (a : ℝ) : idealNum.isNaN a = false := rfl
@[simp] theorem idealNum_isInf (a : ℝ) : idealNum.isInf a = false := rfl
@[simp] theorem idealNum_floor (a : ℝ) : idealNum.floor a = ⌊a⌋ := rfl
@[simp] theorem idealNum_itof (n : ℕ) : idealNum.itof n = (n : ℝ) := rfl
@[simp] theorem idealNum_sin2pi (x : ℝ) : idealNum.sin2pi x = Real.sin (2 * Real.pi * x) := rfl
@[simp] theorem idealNum_zero : idealNum.zero = 0 := rfl
@[simp] theorem idealNum_one : idealNum.one = 1 := rfl
@[simp] theorem idealNum_two : idealNum.two = 2 := rfl
@[simp] theorem idealNum_ten : idealNum.ten = 10 := rfl
@[simp] theorem idealNum_kSmooth : idealNum.kSmooth = 1 / 10000 := rfl
@[simp] theorem idealNum_chorusLo : idealNum.chorusLo = 1 / 1000 := rfl
@[simp] theorem idealNum_chorusHi : idealNum.chorusHi = 5 / 1000 := rfl
@[simp] theorem idealNum_flangerLo : idealNum.flangerLo = 5 / 1000 := rfl
@[simp] theorem idealNum_flangerHi : idealNum.flangerHi = 3 / 100 := rfl

/-- A negative position is wrapped forward once (R126). -/
theorem wrapPosition_of_neg {len w : ℕ} {d : ℝ} (h : (w : ℝ) < d) :
    wrapPosition idealNum len (rawPosition idealNum w d) = w - d + len := by
  have hl : idealNum.lt (rawPosition idealNum w d) idealNum.zero = true := by simpa [rawPosition] using h
  rw [wrapPosition, if_pos hl, rawPosition]
  simp only [idealNum_fadd, idealNum_fsub, idealNum_itof]

/-- Any other position stays (R126). -/
theorem wrapPosition_of_nonneg {len w : ℕ} {d : ℝ} (h : d ≤ (w : ℝ)) :
    wrapPosition idealNum len (rawPosition idealNum w d) = w - d := by
  have hl : ¬ idealNum.lt (rawPosition idealNum w d) idealNum.zero = true := by simpa [rawPosition] using h
  rw [wrapPosition, if_neg hl, rawPosition]
  simp only [idealNum_fsub, idealNum_itof]

/-- A position in `[0, len)` has the slots of R127. -/
theorem slotsOf_ideal {len : ℕ} {p : ℝ} (h0 : 0 ≤ p) (h1 : p < len) :
    slotsOf idealNum len p = some
      { i0 := ⌊p⌋.toNat
        i1 := if len ≤ ⌊p⌋.toNat + 1 then ⌊p⌋.toNat + 1 - len else ⌊p⌋.toNat + 1
        fr := p - ⌊p⌋ } := by
  have ha : 0 ≤ ⌊p⌋ := Int.floor_nonneg.2 h0
  have hb : ⌊p⌋ < len := Int.floor_lt.2 (by exact_mod_cast h1)
  have hc : ((⌊p⌋.toNat : ℕ) : ℝ) = ⌊p⌋ := by
    have : ((⌊p⌋.toNat : ℕ) : ℤ) = ⌊p⌋ := Int.toNat_of_nonneg ha
    exact_mod_cast this
  have hr : ¬ (idealNum.floor p < 0 ∨ (len : ℤ) ≤ idealNum.floor p) := by
    rw [idealNum_floor]
    omega
  rw [slotsOf, if_neg (by simp), if_neg hr]
  simp only [idealNum_floor, idealNum_fsub, idealNum_itof, hc]
  rfl

/-- A position below 0 has none (R127). -/
theorem slotsOf_ideal_of_neg {len : ℕ} {p : ℝ} (h : p < 0) : slotsOf idealNum len p = none := by
  have hr : idealNum.floor p < 0 ∨ (len : ℤ) ≤ idealNum.floor p := by
    left
    rw [idealNum_floor]
    exact Int.floor_lt.2 (by exact_mod_cast h)
  rw [slotsOf, if_neg (by simp), if_pos hr]

end Sys2Proof.Machine
end

