-- ==== Sys2Proof/Laws/NaN.lean ====
section
/-! SUPPORT. How NaN goes through the operations, the delay times, the registers and the read (R124, R127, R173, R256). -/

namespace Sys2Proof.Machine

theorem f32Add_nan {a b : Word} (h : f32IsNaN a = true ∨ f32IsNaN b = true) : f32IsNaN (num.fadd a b) = true := by
  rw [num_fadd, f32Add]
  rcases h with h | h <;> rw [flushSubnormal_of_nan h]
  · exact f32Sum_nan (.inl h)
  · exact f32Sum_nan (.inr h)

theorem f32Sub_nan {a b : Word} (h : f32IsNaN a = true ∨ f32IsNaN b = true) : f32IsNaN (num.fsub a b) = true := by
  rw [num_fsub, f32Sub]
  rcases h with h | h <;> rw [flushSubnormal_of_nan h]
  · exact f32Sum_nan (.inl h)
  · exact f32Sum_nan (.inr (by rw [f32IsNaN_neg, h]))

theorem f32Mul_nan {a b : Word} (h : f32IsNaN a = true ∨ f32IsNaN b = true) : f32IsNaN (num.fmul a b) = true := by
  rw [num_fmul, f32Mul]
  rcases h with h | h <;> rw [flushSubnormal_of_nan h]
  · exact f32Product_nan (.inl h)
  · exact f32Product_nan (.inr h)

theorem f32Div_nan {a b : Word} (h : f32IsNaN a = true ∨ f32IsNaN b = true) : f32IsNaN (num.fdiv a b) = true := by
  rw [num_fdiv, f32Div]
  rcases h with h | h <;> rw [flushSubnormal_of_nan h]
  · exact f32Quotient_nan (.inl h)
  · exact f32Quotient_nan (.inr h)

theorem f32Sin2pi_nan {a : Word} (h : f32IsNaN a = true) : f32IsNaN (num.sin2pi a) = true := by
  rw [num_sin2pi, f32Sin2pi, if_pos (by rw [h, Bool.true_or]), f32IsNaN_f32NaN]

/-- A NaN phase stays NaN: the wrap either keeps it or subtracts from it (R161, R168). -/
theorem wrapPhase_nan {x : Word} (h : f32IsNaN x = true) : f32IsNaN (wrapPhase num x) = true := by
  rw [wrapPhase]
  split
  · exact f32Sub_nan (.inl h)
  · exact h

/-- A NaN phase or rate leaves `PH` NaN (R168, R256). -/
theorem advancePhase_nan {ph rate sr : Word} (h : f32IsNaN ph = true ∨ f32IsNaN rate = true) :
    f32IsNaN (advancePhase num ph rate sr) = true :=
  wrapPhase_nan (f32Add_nan (h.imp_right fun h => f32Div_nan (.inl h)))

/-- A NaN phase or offset leaves the right phase NaN (R161, R173). -/
theorem rightPhase_nan {ph offset : Word} (h : f32IsNaN ph = true ∨ f32IsNaN offset = true) :
    f32IsNaN (rightPhase num ph offset) = true := wrapPhase_nan (f32Add_nan h)

/-- A NaN phase or depth makes the delay time NaN (R173). -/
theorem modulatedTime_nan {lo hi sr depth ph : Word} (h : f32IsNaN ph = true ∨ f32IsNaN depth = true) :
    f32IsNaN (modulatedTime num lo hi sr depth ph) = true :=
  f32Mul_nan (.inr (f32Add_nan (.inr (f32Mul_nan (.inr (f32Div_nan (.inl (f32Add_nan (.inl
    (f32Mul_nan (h.imp_left f32Sin2pi_nan)))))))))))

/-- A rate that is a number leaves the delay time (R169). -/
@[simp] theorem timeWithRate_of_not_nan {rate : Word} (d : Word) (h : f32IsNaN rate = false) : timeWithRate rate d = d := by
  rw [timeWithRate, if_neg (by rw [h]; exact Bool.false_ne_true)]

/-- A NaN rate makes the delay time NaN, and a NaN delay time stays NaN whatever the rate (R173 (f), R256). -/
theorem timeWithRate_nan {rate d : Word} (h : f32IsNaN rate = true ∨ f32IsNaN d = true) :
    f32IsNaN (timeWithRate rate d) = true := by
  rw [timeWithRate]
  split
  · assumption
  · exact h.resolve_left ‹_›

/-- The smoother with a NaN rate (R141, R256). -/
theorem smooth_nan {sm rate : Word} (h : f32IsNaN rate = true) : f32IsNaN (smooth num sm (targetTime num rate)) = true := by
  rw [smooth, targetTime]
  exact f32Sub_nan (.inr (f32Mul_nan (.inr (f32Sub_nan (.inr (f32Div_nan (.inl h)))))))

/-- A delay time that is NaN has no slots (R127). -/
theorem readSlots_nan (len w : Nat) {d : Word} (h : f32IsNaN d = true) : readSlots num len w d = none := by
  have hp : f32IsNaN (rawPosition num w d) = true := by
    rw [rawPosition]
    exact f32Sub_nan (.inr h)
  have hw : wrapPosition num len (rawPosition num w d) = rawPosition num w d := by
    rw [wrapPosition, if_neg]
    simp [num_lt, f32Lt, hp]
  rw [readSlots, hw, slotsOf, if_pos]
  simp [num_isNaN, hp]

/-- A tick whose left time is NaN raises `BufferUnderflow(0)` and leaves `SM` and `PH` as its times have them (R127, R218,
R256). -/
theorem tick_nan_time {times : TickOperands → State → Timed} (ht : IsTimes times) {o : TickOperands} {s : State}
    (hm : s.mode = .ready) (hw : s.w.toNat < s.len.toNat) (hn : f32IsNaN (times o s).dL = true) :
    ∃ t, admitTick (tickSteps times o) s = .next t ∧ t.sm = (times o s).s.sm ∧ t.ph = (times o s).s.ph ∧
      statusFlt t.status = 2 ∧ statusFch t.status = false := by
  have hs : slotsInTick s (times o s).dL = none := by rw [slotsInTick]; exact readSlots_nan _ _ hn
  have hf : statusFlt s.status = 0 := ((mode_eq_ready s).1 hm).1
  rcases tick_cases ht o rfl hm hw with ⟨-, e⟩ | ⟨_, h, -⟩ | ⟨_, _, h, -⟩
  · refine ⟨_, e, by simp [readState], by simp [readState], ?_, ?_⟩ <;> simp [readState, hf, Cause.code, Cause.fch]
  · rw [hs] at h; cases h
  · rw [hs] at h; cases h

end Sys2Proof.Machine
end

