-- ==== Sys2Proof/Laws/PerInstr.lean ====
section
/-! SUPPORT. Statements made instruction by instruction. -/

namespace Sys2Proof.Laws

/-- The encoder writes as many words as the format of the instruction has (R82, R92). -/
def EncodedLength.Statement (i : Instr) : Prop := (encode i).length = i.frameLength

theorem EncodedLength.nop (typeBits : BitVec 2) : EncodedLength.Statement (.nop typeBits) := rfl

theorem EncodedLength.cfg (typeBits : BitVec 2) (sampleRate blockSize rate : Word) :
    EncodedLength.Statement (.cfg typeBits sampleRate blockSize rate) := rfl

theorem EncodedLength.tickDelay (o : TickOperands) : EncodedLength.Statement (.tickDelay o) := rfl

theorem EncodedLength.tickChorus (o : TickOperands) : EncodedLength.Statement (.tickChorus o) := rfl

theorem EncodedLength.tickFlanger (o : TickOperands) : EncodedLength.Statement (.tickFlanger o) := rfl

theorem EncodedLength.reservedTickType3 (o : TickOperands) : EncodedLength.Statement (.reservedTickType3 o) := rfl

theorem EncodedLength.reservedCmdOp3 (typeBits : BitVec 2) : EncodedLength.Statement (.reservedCmdOp3 typeBits) := rfl

end Sys2Proof.Laws
end

