-- ==== Sys2Proof/Laws/Step.lean ====
section
/-! SUPPORT. All that a step can do. -/

namespace Sys2Proof.Machine

/-- The words sampled at acceptance begin with the header of the command code and the type (R82). -/
theorem sampledCommand_eq (c : CommandPorts) (p : Params) :
    sampledCommand c p = headerWord c.cmdOp p.type :: sampledOperands c p := rfl

/-- Every command the host can present decodes, without a word left over (R82, R87). -/
theorem sampledCommand_decodes (c : CommandPorts) (p : Params) :
    ∃ i, decodeWords (sampledCommand c p) = .ok (i, []) := by
  rw [sampledCommand_eq]
  rcases bits2_cases c.cmdOp with h | h | h | h <;> simp only [sampledOperands, h]
  · exact ⟨_, decodeWords_header (findKind_nop _) _⟩
  · exact ⟨_, decodeWords_header (findKind_cfg _) _⟩
  · rcases bits2_cases p.type with ht | ht | ht | ht <;> rw [ht]
    · exact ⟨_, decodeWords_header findKind_tickDelay _⟩
    · exact ⟨_, decodeWords_header findKind_tickChorus _⟩
    · exact ⟨_, decodeWords_header findKind_tickFlanger _⟩
    · exact ⟨_, decodeWords_header findKind_reservedTickType3 _⟩
  · exact ⟨_, decodeWords_header (findKind_reservedCmdOp3 _) _⟩

/-- A step idles, takes the `RESET` event, takes a parameter write, or runs the command that the ports present. -/
theorem step_cases (s : State) :
    (s.inbox = [] ∧ step s = .next (takeEvent [] false s)) ∨
    (∃ rest, s.inbox = .reset :: rest ∧ step s = .next (resetEvent (takeEvent rest false s))) ∨
    (∃ p v rest, s.inbox = .setParam p v :: rest ∧ step s = .next (setParam p v (takeEvent rest false s))) ∨
    (∃ t rest, s.inbox = .setType t :: rest ∧ step s = .next (setType t (takeEvent rest false s))) ∨
    (∃ c rest i, s.inbox = .command c :: rest ∧ decodeWords (sampledCommand c s.params) = .ok (i, []) ∧
      step s = exec i (takeEvent rest true s)) := by
  cases h : s.inbox with
  | nil => exact .inl ⟨rfl, by simp only [step, h]⟩
  | cons e rest =>
    cases e with
    | reset => exact .inr (.inl ⟨rest, rfl, by simp only [step, h]⟩)
    | setParam p v => exact .inr (.inr (.inl ⟨p, v, rest, rfl, by simp only [step, h]⟩))
    | setType t => exact .inr (.inr (.inr (.inl ⟨t, rest, rfl, by simp only [step, h]⟩)))
    | command c =>
      obtain ⟨i, hi⟩ := sampledCommand_decodes c s.params
      exact .inr (.inr (.inr (.inr ⟨c, rest, i, rfl, hi, by simp only [step, h, acceptCommand, takeEvent_params, hi]⟩)))

/-- A step takes the first event and leaves the later ones. -/
theorem step_inbox {s t : State} (h : step s = .next t) : t.inbox = s.inbox.tail := by
  rcases step_cases s with ⟨hi, e⟩ | ⟨_, hi, e⟩ | ⟨_, _, _, hi, e⟩ | ⟨_, _, hi, e⟩ | ⟨_, _, _, hi, -, e⟩ <;>
    rw [hi] <;> rw [e] at h
  iterate 4 · injection h with h; rw [← h]; rfl
  · rw [exec_inbox h]; rfl

/-- What a step does with its event is the same whatever events come later. -/
theorem step_withLater {s t : State} {e : HostEvent} {rest : List HostEvent}
    (h : step { s with inbox := e :: rest } = .next t) (later : List HostEvent) :
    step { s with inbox := e :: later } = .next { t with inbox := later } := by
  cases e with
  | command c =>
    obtain ⟨i, hd⟩ := sampledCommand_decodes c s.params
    have hx : ∀ r, step { s with inbox := .command c :: r } = exec i (takeEvent r true s) := fun r => by
      simp only [step, acceptCommand, takeEvent_params, hd]; rfl
    rw [hx] at h ⊢
    exact exec_withInbox h later
  | _ =>
    injection h with h
    subst h
    rfl

end Sys2Proof.Machine
end

