-- ==== Sys2Proof/Laws/Process.lean ====
section
/-! SUPPORT. The events of `PROCESS`, presenting events, and what collecting outputs gives. -/

namespace Sys2Proof.Machine

@[simp] theorem present_w (es : List HostEvent) (s : State) : (present es s).w = s.w := rfl
@[simp] theorem present_ph (es : List HostEvent) (s : State) : (present es s).ph = s.ph := rfl
@[simp] theorem present_sm (es : List HostEvent) (s : State) : (present es s).sm = s.sm := rfl
@[simp] theorem present_fbL (es : List HostEvent) (s : State) : (present es s).fbL = s.fbL := rfl
@[simp] theorem present_fbR (es : List HostEvent) (s : State) : (present es s).fbR = s.fbR := rfl
@[simp] theorem present_status (es : List HostEvent) (s : State) : (present es s).status = s.status := rfl
@[simp] theorem present_sr (es : List HostEvent) (s : State) : (present es s).sr = s.sr := rfl
@[simp] theorem present_len (es : List HostEvent) (s : State) : (present es s).len = s.len := rfl
@[simp] theorem present_blk (es : List HostEvent) (s : State) : (present es s).blk = s.blk := rfl
@[simp] theorem present_bufL (es : List HostEvent) (s : State) : (present es s).bufL = s.bufL := rfl
@[simp] theorem present_bufR (es : List HostEvent) (s : State) : (present es s).bufR = s.bufR := rfl
@[simp] theorem present_params (es : List HostEvent) (s : State) : (present es s).params = s.params := rfl
@[simp] theorem present_outL (es : List HostEvent) (s : State) : (present es s).outL = s.outL := rfl
@[simp] theorem present_outR (es : List HostEvent) (s : State) : (present es s).outR = s.outR := rfl
@[simp] theorem present_done (es : List HostEvent) (s : State) : (present es s).done = s.done := rfl
@[simp] theorem present_freeIdx (es : List HostEvent) (s : State) : (present es s).freeIdx = s.freeIdx := rfl
@[simp] theorem present_inbox (es : List HostEvent) (s : State) : (present es s).inbox = es ++ s.inbox := rfl

@[simp] theorem processEvents_nil : processEvents [] [] = [] := rfl

theorem processEvents_length : ∀ {ls rs : List Word}, ls.length = rs.length →
    (processEvents ls rs).length = ls.length
  | [], [], _ => rfl
  | _ :: _, [], h => nomatch h
  | [], _ :: _, h => nomatch h
  | _ :: ls, _ :: rs, h => by
    rw [processEvents, List.length_cons, List.length_cons, processEvents_length (Nat.succ.inj h)]

/-- The events of a block are those of its parts, one after the other (R197). -/
theorem processEvents_append : ∀ {ls rs : List Word} (ls' rs' : List Word), ls.length = rs.length →
    processEvents (ls ++ ls') (rs ++ rs') = processEvents ls rs ++ processEvents ls' rs'
  | [], [], _, _, _ => rfl
  | _ :: _, [], _, _, h => nomatch h
  | [], _ :: _, _, _, h => nomatch h
  | l :: ls, r :: rs, ls', rs', h => by
    simp only [List.cons_append, processEvents, processEvents_append ls' rs' (Nat.succ.inj h)]

/-- A well-formed block is what it lists. -/
theorem process_of_wellFormed {n : Nat} {ls rs : List Word} (h : (Line.process n ls rs).wellFormed = true) (s : State) :
    process n ls rs s = collect n (present (processEvents ls rs) s) := by
  simp only [Line.wellFormed, Bool.and_eq_true, beq_iff_eq] at h
  obtain ⟨rfl, hr⟩ := h
  rw [process, List.take_length, ← hr, List.take_length, processEvents_length hr.symm, hr]

theorem andNext_eq_next {σ τ : Type} {r : Host.Outcome σ Fault Refusal} {k : σ → Host.Outcome τ Fault Refusal} {u : τ} :
    andNext r k = .next u ↔ ∃ t, r = .next t ∧ k t = .next u := by
  cases r <;> simp [andNext]

/-- Collecting from one step more: the ports after the first step, in front of the rest. -/
theorem collect_succ {n : Nat} {s : State} {p : Processed} :
    collect (n + 1) s = .next p ↔ ∃ t q, step s = .next t ∧ collect n t = .next q ∧ p = q.cons t.outL t.outR := by
  simp only [collect, andNext_eq_next, Host.Outcome.next.injEq]
  constructor
  · rintro ⟨t, h, q, hq, rfl⟩; exact ⟨t, q, h, hq, rfl⟩
  · rintro ⟨t, q, h, hq, rfl⟩; exact ⟨t, h, q, hq, rfl⟩

/-- A run whose first step answers a next state goes on from it. -/
theorem core_run_succ {n : Nat} {s t : State} (h : step s = .next t) : core.run (n + 1) s = core.run n t := by
  have hc : core.step s = .next t := h
  exact (Host.Core.run.eq_2 core s n).trans (by rw [hc])

/-- Collecting takes one event a step (R197: a later block goes on from where an earlier one ended). -/
theorem collect_inbox : ∀ {n : Nat} {s : State} {p : Processed}, collect n s = .next p → p.s.inbox = s.inbox.drop n
  | 0, _, _, h => by injection h with h; rw [← h]; rfl
  | n + 1, s, p, h => by
    obtain ⟨t, q, ht, hq, rfl⟩ := collect_succ.1 h
    show q.s.inbox = _
    rw [collect_inbox hq, step_inbox ht, List.drop_tail]

/-- What is collected from a block does not depend on the events presented after it. -/
theorem collect_withLater : ∀ {es rest : List HostEvent} {s : State} {p : Processed},
    collect es.length { s with inbox := es ++ rest } = .next p → ∀ later : List HostEvent,
    collect es.length { s with inbox := es ++ later } = .next { p with s := { p.s with inbox := later } }
  | [], _, _, _, h, _ => by injection h with h; rw [← h]; rfl
  | e :: es, rest, s, p, h, later => by
    obtain ⟨t, q, ht, hq, rfl⟩ := collect_succ.1 h
    have htl : t = { t with inbox := es ++ rest } := by
      have h0 : t.inbox = es ++ rest := step_inbox ht
      rw [← h0]
    rw [htl] at hq
    exact collect_succ.2 ⟨_, _, step_withLater ht (es ++ later), collect_withLater hq later, rfl⟩

/-- Collecting in two parts is collecting once. -/
theorem collect_add : ∀ {a b : Nat} {s : State} {p q : Processed}, collect a s = .next p → collect b p.s = .next q →
    collect (a + b) s = .next ⟨p.outL ++ q.outL, p.outR ++ q.outR, q.s⟩
  | 0, b, _, _, _, hp, hq => by injection hp with hp; subst hp; rw [Nat.zero_add]; exact hq
  | a + 1, b, _, _, _, hp, hq => by
    obtain ⟨t, u, ht, hu, rfl⟩ := collect_succ.1 hp
    rw [Nat.add_right_comm]
    exact collect_succ.2 ⟨t, _, ht, collect_add hu hq, rfl⟩

end Sys2Proof.Machine
end

