-- ==== Sys2Proof/Tests/Slice0.lean ====
section
/-! SUPPORT. Tests against spec/95_test_vectors.md (its vector or program is named at each), and a witness for the
hypotheses of each obligation that has some. -/

namespace Sys2Proof.Tests

open Sys2Proof.Machine

/-- The next state of an outcome. -/
def nextState? : Host.Outcome State Fault Refusal → Option State
  | .next t => some t
  | .fault _ => none
  | .refused _ => none

/-- What a test looks at. -/
structure Seen where
  status : BitVec 8
  w : Index
  outL : Word
  outR : Word
  fbL : Word
  fbR : Word
  deriving DecidableEq, Repr

def seen (r : Host.Outcome State Fault Refusal) : Option Seen :=
  (nextState? r).map fun t => ⟨t.status, t.w, t.outL, t.outR, t.fbL, t.fbR⟩

def statusAfter (r : Host.Outcome State Fault Refusal) : Option (BitVec 8) := (nextState? r).map (·.status)

/-- After the `CFG` of P1 and P2, with `SM` as given. -/
def ready8 (sm : Word) : State := { State.reset with status := 1, sr := 0x41000000, len := 16, blk := 4, sm := sm }

/-- After the `CFG` of P3 and P5. -/
def ready1024 : State := { State.reset with status := 1, sr := 0x44800000, len := 2048, blk := 64, sm := 0x3FCCCCCD }

/-- The operands of a tick of P1. -/
def p1 (l r : Word) : TickOperands := ⟨l, r, 0x3F800000, 0, 0, 0x40A00000, 0⟩

/-! ### Well-formedness: one ill-formed term for each check -/

theorem test_frame_nop : frameWellFormed [2] = true := by decide
theorem test_frame_empty : frameWellFormed [] = false := by decide
theorem test_frame_header_too_large : frameWellFormed [16] = false := by decide
theorem test_frame_nop_with_operand : frameWellFormed [0, 1] = false := by decide
theorem test_frame_cfg_short : frameWellFormed [4, 1, 2] = false := by decide
theorem test_frame_cfg_long : frameWellFormed [4, 1, 2, 3, 4] = false := by decide
theorem test_frame_tick_short : frameWellFormed [8, 1, 2, 3, 4, 5, 6] = false := by decide
theorem test_frame_tick_long : frameWellFormed [11, 1, 2, 3, 4, 5, 6, 7, 8] = false := by decide
theorem test_frame_reserved_with_operand : frameWellFormed [12, 1] = false := by decide
theorem test_line_type_3 : (Line.setType 3).wellFormed = false := by decide
theorem test_line_block_size : (Line.cfg 0x41000000 (2 ^ 32)).wellFormed = false := by decide
theorem test_line_process_left : (Line.process 2 [1] [1, 2]).wellFormed = false := by decide
theorem test_line_process_right : (Line.process 2 [1, 2] [1]).wellFormed = false := by decide

/-! ### Decoding: words written out from R82, R87 and R92 -/

theorem test_decode_nop : decodeWords [0b0010] = .ok (.nop 2, []) := by decide
/-- P3. -/
theorem test_decode_cfg : decodeWords [0b0110, 0x44800000, 0x00000040, 0x3F800000]
    = .ok (.cfg 2 0x44800000 0x00000040 0x3F800000, []) := by decide
/-- P2, tick 1. -/
theorem test_decode_tickDelay :
    decodeWords [0b1000, 0x00000000, 0xC0000000, 0x3F000000, 0x3F000001, 0x00000002, 0x408C0000, 0x00000003]
      = .ok (.tickDelay ⟨0, 0xC0000000, 0x3F000000, 0x3F000001, 2, 0x408C0000, 3⟩, []) := by decide
/-- P5. -/
theorem test_decode_tickChorus : decodeWords [0b1001, 0x3F800000, 0, 0x3F800001, 0x3F000000, 0, 0x41800000, 0x3F000000]
    = .ok (.tickChorus ⟨0x3F800000, 0, 0x3F800001, 0x3F000000, 0, 0x41800000, 0x3F000000⟩, []) := by decide
/-- P3. -/
theorem test_decode_tickFlanger : decodeWords [0b1010, 1, 2, 0x3F800000, 0, 0x3F800000, 0x3F800000, 0x3E800000]
    = .ok (.tickFlanger ⟨1, 2, 0x3F800000, 0, 0x3F800000, 0x3F800000, 0x3E800000⟩, []) := by decide
theorem test_decode_reservedTickType3 : decodeWords [0b1011, 1, 2, 3, 4, 5, 6, 7, 9]
    = .ok (.reservedTickType3 ⟨1, 2, 3, 4, 5, 6, 7⟩, [9]) := by decide
theorem test_decode_reservedCmdOp3 : decodeWords [0b1110] = .ok (.reservedCmdOp3 2, []) := by decide
theorem test_decode_header_too_large : decodeWords [0x00000018, 0, 0, 0, 0, 0, 0, 0] = .error .headerNotOpword := by decide
/-- R61: byte 0 in bits 7:0. -/
theorem test_decode_bytes : decode [0x04, 0, 0, 0, 0, 0, 0, 0x41, 4, 0, 0, 0, 0, 0, 0xA0, 0x40, 0xFF]
    = .ok (.cfg 0 0x41000000 4 0x40A00000, [0xFF]) := by decide
/-- The `CFG` of P1 as one number, the first word lowest. -/
theorem test_decodeTableWord : decodeTableWord 128 0x40A00000000000044100000000000004
    = some (.cfg 0 0x41000000 4 0x40A00000) := by decide +kernel
/-- The next step runs it: V30. -/
theorem test_withFetchWord :
    (nextState? (step (State.reset.withFetchWord 128 0x40A00000000000044100000000000004))).map
      (fun t => (t.status, t.len, t.sm)) = some (0x01, 16, 0x3F000000) := by decide +kernel

/-! ### One step of each instruction -/

/-- V90. -/
theorem test_nop : nextState? (exec (.nop 3) (ready8 0x3F000000)) = some (ready8 0x3F000000) := by decide
/-- A configured state in mid-run: V40. -/
def midRun : State :=
  { ready8 0 with
    w := 5, bufL := [(3, 7)], bufR := [(0, 1)], fbL := 0x3E800000, fbR := 0xBF000000, ph := 0x3E99999A }

/-- V40: `FB` and `PH` are kept. -/
theorem test_cfg_valid :
    nextState? (exec (.cfg 0 0x41000000 4 0x40A00000) midRun)
      = some { midRun with w := 0, bufL := [], bufR := [], sm := 0x3F000000 } := by decide +kernel
/-- V41: from mode `READY`. -/
theorem test_cfg_invalid :
    nextState? (exec (.cfg 0 0xBF800000 4 0x40A00000) (ready8 0)) = some { ready8 0 with status := 0x02 } := by
  decide +kernel
/-- P2, tick 3. -/
theorem test_tickDelay :
    seen (exec (.tickDelay ⟨0, 0, 0x3F000000, 0x3F000000, 0, 0x408C0000, 0⟩)
      { ready8 0x3EE00000 with w := 3, bufL := [(0, 0x3F800000)], bufR := [(1, 0xC0000000)], fbL := 0x3E800000 })
      = some ⟨0x01, 4, 0x3E800000, 0xBF000000, 0x3E800000, 0xBF000000⟩ := by decide +kernel
/-- V85: the store and the advance are committed. -/
theorem test_tickDelay_underflow :
    (nextState? (exec (.tickDelay ⟨0x41800000, 0, 0x3F800000, 0, 0, 0x41A00000, 0⟩)
      { ready8 0x40000000 with sr := 0x41040000, w := 15 })).map (fun t => (t.status, t.w, t.bufL, t.fbL))
      = some (0x09, 0, [(15, 0x41800000)], 0) := by decide +kernel
/-- P5, tick 3, with `PH` and `P.phaseOffset` at 0 (the depth is 0). -/
theorem test_tickChorus :
    seen (exec (.tickChorus ⟨0, 0, 0x3F800000, 0x3F000000, 0, 0x41800000, 0⟩)
      { ready1024 with w := 3, bufL := [(0, 0x3F800000)], bufR := [(1, 0x3F800000)], fbL := 0x3EED9000 })
      = some ⟨0x01, 4, 0x3D9374C0, 0x3F6D9168, 0x3D1374C0, 0x3EED9168⟩ := by decide +kernel
/-- V25: the phase increment at `SR = 1024`, `P.rate = 1` is `2^-10`. -/
theorem test_tickChorus_phase :
    (nextState? (exec (.tickChorus ⟨0, 0, 0, 0, 0, 0x3F800000, 0⟩) ready1024)).map (fun t => (t.ph, t.sm))
      = some (0x3A800000, 0x3FCCCCCD) := by decide +kernel
/-- P3, tick 0, left, with a word 1.0 in slot 2031: V8. -/
theorem test_tickFlanger :
    seen (exec (.tickFlanger ⟨0, 0, 0x3F800000, 0, 0x3F800000, 0x3F800000, 0⟩)
      { ready1024 with bufL := [(2031, 0x3F800000)] }) = some ⟨0x01, 1, 0x3F6B8800, 0, 0, 0⟩ := by decide +kernel
/-- V82, V81. -/
theorem test_reservedTickType3 :
    statusAfter (exec (.reservedTickType3 (p1 0 0)) (ready8 0)) = some 0x11 ∧
    statusAfter (exec (.reservedTickType3 (p1 0 0)) State.reset) = some 0x0C := by decide
/-- V83, V84. -/
theorem test_reservedCmdOp3 :
    statusAfter (exec (.reservedCmdOp3 0) (ready8 0)) = some 0x11 ∧
    statusAfter (exec (.reservedCmdOp3 2) State.reset) = some 0x10 := by decide
/-- V80. -/
theorem test_notConfigured :
    statusAfter (exec (.tickDelay (p1 0 0)) State.reset) = some 0x0C ∧
    statusAfter (exec (.tickChorus (p1 0 0)) State.reset) = some 0x0C ∧
    statusAfter (exec (.tickFlanger (p1 0 0)) State.reset) = some 0x0C := by decide
/-- V87. -/
theorem test_faulted_refuses :
    nextState? (exec (.nop 0) { ready8 0 with status := 0x09 }) = some { ready8 0 with status := 0x09 } ∧
    nextState? (exec (.cfg 0 0x41000000 4 0) { ready8 0 with status := 0x09 }) = some { ready8 0 with status := 0x09 } ∧
    statusAfter (exec (.tickDelay (p1 0 0)) { ready8 0 with status := 0x09 }) = some 0x09 := by decide
/-- R43: a value on the output ports does not survive the next command, a `NOP` at that. -/
theorem test_outputs_do_not_survive :
    nextState? (step { midRun with outL := 7, outR := 8, inbox := [nopEvent] }) =
      some (leaveOutputsOpen { midRun with done := true }) := by rfl
/-- V88. -/
theorem test_reset_event :
    (nextState? (step { ready8 0 with status := 0x09, ph := 1, fbL := 2, fbR := 3, inbox := [.reset] })).map
      (fun t => (t.status, t.ph, t.fbL, t.fbR)) = some (0, 0, 0, 0) := by decide
/-- V89. -/
theorem test_cfg_after_report :
    statusAfter (exec (.cfg 0 0x41000000 4 0x40A00000) { State.reset with status := 0x02 }) = some 0x01 := by
  decide +kernel
/-- P7, `CFG 0.25, 4` and `CFG` in mode `FAULTED` with `ERR` kept. -/
theorem test_p7 :
    statusAfter (exec (.cfg 0 0x3E800000 4 0x40A00000) State.reset) = some 0x02 ∧
    statusAfter (exec (.tickDelay (p1 0x3F800000 0x3F800000)) { State.reset with status := 0x02 }) = some 0x0E ∧
    statusAfter (exec (.cfg 0 0x41000000 4 0x40A00000) { State.reset with status := 0x0E }) = some 0x0E := by
  decide +kernel

/-! ### Arithmetic vectors -/

/-- V1 to V8. -/
theorem test_lerp :
    lerp num 0x40000000 0x40C00000 0 = 0x40000000 ∧ lerp num 0x40000000 0x40C00000 0x3F800000 = 0x40C00000 ∧
    lerp num 0x40000000 0x40C00000 0x3E800000 = 0x40400000 ∧ lerp num 0xBF800000 0x3F800000 0x3F400000 = 0x3F000000 ∧
    lerp num 0x40400000 0x40400000 0x3F333333 = 0x40400000 ∧ lerp num 0x3DCCCCCD 0x3DCCCCCD 0x3E99999A = 0x3DCCCCCD ∧
    lerp num 0x3F800000 0 0x3DA3C000 = 0x3F6B8800 := by decide +kernel
/-- V9, V10. -/
theorem test_lerp_infinity : lerp num 0x7F800000 0x40A00000 0 = 0x7F800000 ∧ f32IsNaN (f32Mul 0 0x7F800000) = true := by
  refine ⟨by decide +kernel, ?_⟩
  rw [f32Mul, f32Product, if_pos (by decide +kernel), f32IsNaN_f32NaN]
/-- V12 to V18. -/
theorem test_slots :
    readSlots num 16 1 0x40600000 = some ⟨13, 14, 0x3F000000⟩ ∧ readSlots num 16 3 0x40600000 = some ⟨15, 0, 0x3F000000⟩ ∧
    readSlots num 16 4 0x40800000 = some ⟨0, 1, 0⟩ ∧ readSlots num 16 4 0x3F800000 = some ⟨3, 4, 0⟩ ∧
    readSlots num 16 4 0 = some ⟨4, 5, 0⟩ ∧ readSlots num 16 4 0x41800000 = some ⟨4, 5, 0⟩ ∧
    readSlots num 16 4 0x3E800000 = some ⟨3, 4, 0x3F400000⟩ := by decide +kernel
/-- V19 to V22. -/
theorem test_slots_none :
    readSlots num 16 0 0x41840000 = none ∧ readSlots num 16 3 0x41A00000 = none ∧ readSlots num 16 10 0xC0E00000 = none ∧
    rawPosition num 48 0x42400106 = 0xBA830000 ∧ readSlots num 96000 48 0x42400106 = none := by decide +kernel
/-- V24, V24b. -/
theorem test_head : nextHead 4 0 = 1 ∧ nextHead 4 3 = 0 ∧ nextHead 1 0 = 0 := by decide
/-- V27, V27b, V27c, V25. -/
theorem test_phase :
    rightPhase num 0x3F400000 0x3E800000 = 0x3F800000 ∧ rightPhase num 0x3F400000 0x3F000000 = 0x3E800000 ∧
    rightPhase num 0x3F000000 0x3F800000 = 0x3F000000 ∧ advancePhase num 0x3F800000 0x3F800000 0x44800000 = 0x3A800000 := by
  decide +kernel
/-- V60 to V64. -/
theorem test_smooth :
    smooth num 0x3F000000 (targetTime num 0x40A00000) = 0x3F000000 ∧
    smooth num 0x3F000000 (targetTime num 0x41200000) = 0x3F000347 ∧ f32Mul 0x3F000347 0x473B8000 = 0x46BB84CD ∧
    smooth num 0x3F000347 0x3F800000 = 0x3F00068E ∧ smooth num 0x3F00068E 0x3F800000 = 0x3F0009D5 ∧
    smooth num 0x3C23D70A (targetTime num 0x41A00000) = 0x3C2719B5 := by decide +kernel
/-- V70 to V75. -/
theorem test_map :
    mapTime num num.chorusLo num.chorusHi 0xBF800000 = 0x3A83126F ∧ mapTime num num.chorusLo num.chorusHi 0 = 0x3B449BA6 ∧
    mapTime num num.chorusLo num.chorusHi 0x3F800000 = 0x3BA3D70A ∧
    mapTime num num.flangerLo num.flangerHi 0xBF800000 = 0x3BA3D70A ∧ mapTime num num.flangerLo num.flangerHi 0 = 0x3C8F5C28 ∧
    mapTime num num.flangerLo num.flangerHi 0x3F800000 = 0x3CF5C28E := by decide +kernel
/-- V50 to V54, V57. -/
theorem test_mix :
    carry num 0x3F333333 0x3F7AE148 = 0x3F2F9DB2 ∧ mix num 0x3E99999A 0x3F333333 0 = 0x3E99999A ∧
    mix num 0x3E99999A 0x3F333333 0x3F800000 = 0x3F333333 ∧ carry num 0x3F333333 0x3F000000 = 0x3EB33333 ∧
    mix num 0x3E99999A 0x3F333333 0x3F000000 = 0x3F000000 ∧ mix num 0x3E99999A 0x3F333333 0x3E800000 = 0x3ECCCCCD ∧
    mix num 0x3F800000 0xBF800000 0x3F000000 = 0 ∧ mix num 0x3F800000 0x3F000000 0x3FC00000 = 0x3E800000 := by decide +kernel
/-- V30 to V39. -/
theorem test_bufferLength :
    bufferLength num 0x41000000 = some 16 ∧ bufferLength num 0x473B8000 = some 96000 ∧ bufferLength num 0x3F000000 = some 1 ∧
    bufferLength num 0x3E800000 = none ∧ bufferLength num 0 = none ∧ bufferLength num 0x80000000 = none ∧
    bufferLength num 0xBF800000 = none ∧ bufferLength num 0x7FC00000 = none ∧ bufferLength num 0x7F800000 = none ∧
    bufferLength num 0xFF800000 = none ∧ bufferLength num 0x4B000000 = some (2 ^ 24) ∧ bufferLength num 0x4B000001 = none ∧
    bufferLength num 0x472C44B3 = some 88201 := by decide +kernel

/-! ### Witnesses: for each obligation with hypotheses, a state and operands that meet them together -/

/-- The tick of P1, presented at the ports. -/
def presented : State := { ready8 0x3F000000 with
  params := ⟨0x3F800000, 0, 0, 0x40A00000, 0, 0⟩
  inbox := [.command ⟨2, 0, 0, 0x3F800000, 0x3F800000⟩, .reset] }

theorem witness_DecodedWordsAreTheEncoding : decodeWords [0x00000001, 7] = .ok (.nop 1, [7]) := by decide

theorem witness_StepRunsPresentedCommand :
    presented.inbox = .command ⟨2, 0, 0, 0x3F800000, 0x3F800000⟩ :: [.reset] ∧
    sampledCommand ⟨2, 0, 0, 0x3F800000, 0x3F800000⟩ presented.params = encode (.tickDelay (p1 0x3F800000 0x3F800000)) := by
  decide

theorem witness_FetchWordIsRunNext :
    decodeTableWord 8 3 = some (.nop 3) ∧ decodeTableWord 8 0xB = some (.reservedTickType3 ⟨0, 0, 0, 0, 0, 0, 0⟩) := by
  decide +kernel

theorem witness_ParameterWritesAndIdle :
    ({ State.reset with inbox := [.setParam .rate 7] } : State).inbox = .setParam .rate 7 :: [] ∧
    ({ State.reset with inbox := [.setType 2, .reset] } : State).inbox = .setType 2 :: [.reset] ∧
    State.reset.inbox = [] := by decide

theorem witness_ResetEventEffects : ({ midRun with inbox := [.reset] } : State).inbox = .reset :: [] := by decide

theorem witness_UnspecifiedValuesAreUnreadable :
    statusCfg State.reset.status = false ∧
    State.reset.eraseUnconfigured = ({ State.reset with w := 9, sm := 1, bufL := [(0, 1)] } : State).eraseUnconfigured ∧
    bufferLength num 0x41000000 = some 16 ∧ State.reset.mode ≠ .faulted := by decide +kernel

theorem witness_ValidCfgEffects :
    State.reset.mode ≠ .faulted ∧ bufferLength num 0x3F000000 = some 1 ∧ bufferLength num 0x4B000000 = some (2 ^ 24) := by
  decide +kernel

theorem witness_InvalidCfgReports :
    (ready8 0).mode ≠ .faulted ∧ bufferLength num 0x3EFFFFFF = none ∧ bufferLength num 0x4B000001 = none := by decide +kernel

theorem witness_CfgIsIdempotent :
    bufferLength num 0x41000000 = some 16 ∧ midRun.mode ≠ .faulted ∧
    (nextState? (exec (.cfg 0 0x41000000 4 0) midRun)).isSome = true := by
  decide +kernel

/-- P1, tick 0, and a tick that reads over the end of the buffer. -/
theorem witness_TickDelayCompletes :
    (ready8 0x3F000000).mode = .ready ∧
    readSlots num 16 1 (f32Mul (f32Sub 0x3F000000 (f32Mul 0x38D1B717 (f32Sub 0x3F000000 (f32Div 0x40A00000 0x41200000))))
      0x41000000) = some ⟨13, 14, 0⟩ ∧
    readSlots num 16 ((2 + 1) % 16) 0x40600000 = some ⟨15, 0, 0x3F000000⟩ := by decide +kernel

theorem witness_ModulatedTicksComplete :
    ready1024.mode = .ready ∧ ready1024.w.toNat < ready1024.len.toNat ∧
    readSlots num 2048 1 (modulatedTime num num.chorusLo num.chorusHi 0x44800000 0 0) = some ⟨2045, 2046, 0x3F6D9000⟩ ∧
    readSlots num 2048 1 (modulatedTime num num.flangerLo num.flangerHi 0x44800000 0x3F800000 (rightPhase num 0 0))
      = some ⟨2031, 2032, 0x3DA3C000⟩ := by decide +kernel

theorem witness_AdmissionOrder :
    statusFlt 0x09 ≠ 0 ∧ (statusFlt 0x02 = 0 ∧ statusCfg 0x02 = false) ∧ (statusFlt 0x01 = 0 ∧ statusCfg 0x01 = true) := by
  decide

/-- The left lane alone decides: V85. -/
theorem witness_Underflow_left :
    ({ ready8 0x40000000 with sr := 0x41040000, w := 15 } : State).mode = .ready ∧
    slotsInTick { ready8 0x40000000 with sr := 0x41040000, w := 15 } 0x41840000 = none ∧
    (delayTimes ⟨0, 0, 0, 0, 0, 0x41A00000, 0⟩ { ready8 0x40000000 with sr := 0x41040000, w := 15 }).dL = 0x41840000 := by
  decide +kernel

/-- V86: with a NaN phase offset the left lane has slots and the right lane has none. -/
theorem witness_Underflow_right :
    slotsInTick ready1024 (modulatedTimes num.flangerLo num.flangerHi ⟨0, 0, 0, 0, 0x3F800000, 0x3F800000, 0x7FC00000⟩
      ready1024).dL ≠ none ∧
    slotsInTick ready1024 (modulatedTimes num.flangerLo num.flangerHi ⟨0, 0, 0, 0, 0x3F800000, 0x3F800000, 0x7FC00000⟩
      ready1024).dR = none := by
  refine ⟨by decide +kernel, readSlots_nan _ _ ?_⟩
  rw [modulatedTimes_dR]
  exact timeWithRate_nan (.inr (modulatedTime_nan (.inl (rightPhase_nan (.inr (by decide))))))

/-- The last index and the shortest buffer: an admitted tick answers a next state there. -/
theorem witness_HeadAdvancesModuloLength :
    (nextState? (exec (.tickDelay (p1 0 0)) { ready8 0x3F000000 with w := 15 })).map (·.w) = some 0 ∧
    (nextState? (exec (.tickChorus ⟨0, 0, 0, 0, 0, 0, 0⟩) { ready8 0 with len := 1 })).map (·.w) = some 0 := by decide +kernel

/-- Also the witness of `TickFrame`, `UnusedOperandsAndRegisters` and `RegisterWriters`. -/
theorem witness_TickStoresOneWordPerBuffer :
    (midRun.buf .left).wf = true ∧ (midRun.buf .right).wf = true ∧ midRun.mode = .ready ∧
    (nextState? (exec (.tickDelay (p1 0 0)) midRun)).isSome = true ∧
    (nextState? (exec (.tickChorus (p1 0 0)) { midRun with ph := 0 })).isSome = true ∧
    (nextState? (exec (.tickFlanger (p1 0 0)) { midRun with ph := 0 })).isSome = true := by decide +kernel

theorem witness_StoreOutsideTheBufferStops :
    ({ ready8 0 with w := 16 } : State).mode = .ready ∧
    ({ ready8 0 with w := 16 } : State).len.toNat ≤ ({ ready8 0 with w := 16 } : State).w.toNat := by decide

theorem witness_ReservedWordsRaiseIllegalCommand : State.reset.mode ≠ .faulted ∧ (ready8 0).mode = .ready := by decide

theorem witness_FaultedModeRefusesEveryCommand :
    statusFlt ({ presented with status := 0x09 } : State).status ≠ 0 ∧
    ({ presented with status := 0x09 } : State).inbox = .command ⟨2, 0, 0, 0x3F800000, 0x3F800000⟩ :: [.reset] := by decide

theorem witness_OnlyResetLeavesFaulted :
    ({ ready8 0 with status := 0x09, inbox := [.reset] } : State).mode = .faulted ∧
    (nextState? (step { ready8 0 with status := 0x09, inbox := [.reset] })).map State.mode = some .unconfigured ∧
    (nextState? (exec (.cfg 0 0x41000000 4 0) { State.reset with status := 0x02 })).map State.mode = some .ready := by
  decide +kernel

/-- A next state in each case of the table of modes and of the order of causes. -/
theorem witness_ModeTable_CausePriority :
    (nextState? (exec (.nop 0) State.reset)).map State.mode = some .unconfigured ∧
    (nextState? (exec (.cfg 0 0xBF800000 4 0) (ready8 0))).map State.mode = some .unconfigured ∧
    (nextState? (exec (.tickFlanger (p1 0 0)) State.reset)).map State.mode = some .faulted ∧
    (nextState? (exec (.tickFlanger (p1 0 0)) ready1024)).map State.mode = some .ready ∧
    (nextState? (exec (.tickDelay (p1 0 0)) { ready8 0x41A00000 with sr := 0x41040000 })).map State.mode = some .faulted ∧
    (nextState? (exec (.reservedCmdOp3 1) (ready8 0))).map State.mode = some .faulted ∧
    (nextState? (exec (.tickChorus (p1 0 0)) { ready1024 with status := 0x0D })).map State.mode = some .faulted := by
  decide +kernel

/-- The premise of `StepKeepsInvariant` and `StepAlwaysAnswers`, in a configured state. -/
theorem witness_StepKeepsInvariant : midRun.Inv ∧ (nextState? (step midRun)).isSome = true :=
  ⟨⟨by decide, by decide, by decide, by decide, by decide, by decide +kernel, by decide, by decide, by decide, by decide⟩,
    by decide⟩

theorem witness_LanesDoNotMix :
    midRun.eraseRight = ({ midRun with fbR := 1, bufR := [], outR := 2 } : State).eraseRight ∧
    midRun.eraseLeft = ({ midRun with fbL := 1, bufL := [], outL := 2 } : State).eraseLeft := by decide

/-- Before tick 3 of P2. -/
def p2 : State := { ready8 0x3EE00000 with
  w := 3, bufL := [(0, 0x3F800000)], bufR := [(1, 0xC0000000)], fbL := 0x3E800000
  params := ⟨0x3F000000, 0x3F000000, 0, 0x408C0000, 0, 0⟩ }

/-- What a test looks at after a block. -/
def collected (r : Host.Outcome Processed Fault Refusal) : Option (List Word × List Word × Index) :=
  match r with
  | .next p => some (p.outL, p.outR, p.s.w)
  | .fault _ => none
  | .refused _ => none

/-- P2, tick 3, as a block of one frame. -/
theorem test_process : collected (process 1 [0] [0] p2) = some ([0x3E800000], [0xBF000000], 4) := by decide +kernel

/-- A block of one frame and a block after it. -/
theorem witness_ProcessIsTicksInOrder :
    (Line.process 2 [1, 2] [3, 4]).wellFormed = true ∧ (Line.process 0 [] []).wellFormed = true ∧
    (Line.process 1 [0] [0]).wellFormed = true ∧ (collected (process 1 [0] [0] p2)).isSome = true ∧
    (collected (process 2 [0, 0] [0, 0] p2)).isSome = true := by decide +kernel

/-- The value of the pattern of 1.0, of 2.0, and of the least normal number. -/
theorem f32Rat_values : f32Rat 0x3F800000 = 1 ∧ f32Rat 0x40000000 = 2 ∧ f32Rat 0x00800000 = 1 / 2 ^ 126 := by
  refine ⟨?_, ?_, ?_⟩ <;> rw [f32Rat]
  · rw [show f32Int 0x3F800000 = 2 ^ 149 by decide +kernel]; norm_num
  · rw [show f32Int 0x40000000 = 2 ^ 150 by decide +kernel]; norm_num
  · rw [show f32Int 0x00800000 = 2 ^ 23 by decide +kernel]; norm_num

theorem witness_SumsRoundToNearestEven :
    f32IsFinite 0x3F800000 = true ∧ NotSubnormal 0x3F800000 ∧ f32IsFinite 0x00800000 = true ∧ NotSubnormal 0x00800000 ∧
    InNormalRange (f32Rat 0x3F800000 + f32Rat 0x00800000) ∧ InNormalRange (f32Rat 0x3F800000 - f32Rat 0x00800000) := by
  refine ⟨by decide, by unfold NotSubnormal; decide, by decide, by unfold NotSubnormal; decide, ?_, ?_⟩ <;>
    rw [f32Rat_values.1, f32Rat_values.2.2] <;> constructor <;> norm_num [abs_of_pos]

/-- The least value in range, at its boundary. -/
theorem witness_ProductsAndQuotientsRoundToNearestEven :
    InNormalRange (f32Rat 0x00800000 * f32Rat 0x3F800000) ∧ InNormalRange (f32Rat 0x00800000 / f32Rat 0x3F800000) := by
  rw [f32Rat_values.1, f32Rat_values.2.2]
  constructor <;> constructor <;> norm_num [abs_of_pos]

/-- R256: a modulated tick that samples a NaN rate raises `BufferUnderflow(0)`, from a `PH` that is a number. -/
theorem test_tickChorus_nan_rate :
    ∃ t, exec (.tickChorus ⟨0, 0, 0, 0, 0, 0x7FC00000, 0⟩) ready1024 = .next t ∧
      statusFlt t.status = 2 ∧ statusFch t.status = false := by
  obtain ⟨t, h, -, -, hf⟩ := tick_nan_time (.modulated num.chorusLo num.chorusHi)
    (o := ⟨0, 0, 0, 0, 0, 0x7FC00000, 0⟩) (s := ready1024) (by decide) (by decide)
    (by rw [modulatedTimes_dL]; exact timeWithRate_nan (.inl (by decide)))
  exact ⟨t, h, hf⟩

/-- A state in which every tick with a NaN rate, `PH`, depth or offset is admitted, and those NaNs. -/
theorem witness_NanPropagates :
    f32IsNaN 0x7FC00000 = true ∧ f32IsNaN 0xFF800001 = true ∧ ready1024.mode = .ready ∧
    ready1024.w.toNat < ready1024.len.toNat ∧ f32IsNaN ({ ready1024 with ph := 0x7FC00000 } : State).ph = true ∧
    ({ ready1024 with ph := 0x7FC00000 } : State).mode = .ready := by decide

theorem witness_IndexConversionsAreExact :
    NotSubnormal 0x41780000 ∧ slotsOf num 16 0x41780000 = some ⟨15, 0, 0x3F000000⟩ ∧
    slotsOf num (2 ^ 24) 0x4B7FFFFF = some ⟨2 ^ 24 - 1, 0, 0⟩ :=
  ⟨by unfold NotSubnormal; decide, by decide +kernel, by decide +kernel⟩

theorem witness_SineLaws : f32IsFinite 0x3F800000 = true ∧ f32IsFinite 0x7F800000 = false := by decide

theorem witness_SlotsAreAdjacentWords :
    readSlots num 1 0 0 = some ⟨0, 0, 0⟩ ∧ f32IsFinite 0xFF800000 = false ∧ readSlots num 16 3 0xFF800000 = none := by
  decide +kernel

/-- `LEN` at both ends of its range. -/
theorem witness_DelayOneReadsTheStoredWord :
    readSlots num 1 (nextHead 1 0) 0x3F800000 = some ⟨0, 0, 0⟩ ∧
    readSlots num (2 ^ 24) (nextHead (2 ^ 24) (2 ^ 24 - 1)) 0x3F800000 = some ⟨2 ^ 24 - 1, 0, 0⟩ := by decide +kernel

/-- Also the witness of `DryAndWetIdentities` and `SmootherRestsAtItsTarget`. -/
theorem witness_LerpEndpoints :
    f32IsFinite 0x7F7FFFFF = true ∧ NotSubnormal 0x7F7FFFFF ∧ f32IsFinite 0x80000000 = true ∧ NotSubnormal 0x80000000 := by
  unfold NotSubnormal; decide

/-- Both directions at the ends of the range. -/
theorem witness_SmootherStaysBetweenValueAndTarget :
    f32Rat 0x3C23D70A ≤ f32Rat 0x3C23D70A ∧ f32Rat 0x3C23D70A ≤ f32Rat 0x40000000 ∧ f32Rat 0x40000000 ≤ 2 ∧
    f32Rat 0x3C23D70A ≤ 2 ∧ smooth num 0x3C23D70A 0x40000000 = 0x3C2719B5 := by
  have h : f32Rat 0x3C23D70A ≤ 2 := by
    rw [f32Rat, show f32Int 0x3C23D70A = 10737418 * 2 ^ 119 by decide +kernel]; norm_num
  refine ⟨le_rfl, ?_, f32Rat_values.2.1.le, h, by decide +kernel⟩
  rw [f32Rat_values.2.1]; exact h

/-- Every parameter at an end of its range. -/
theorem witness_PhaseStaysInUnitInterval :
    ParametersInRange ⟨0, 0, 0x3F800000, 0x3F7AE148, 0, 0x3DCCCCCD, 0x3F800000⟩ ∧
    (20 : ℚ) ≤ f32Rat 0x44800000 ∧ (0 : ℚ) ≤ f32Rat 0x3F800000 ∧ f32Rat 0x3F800000 ≤ 1 ∧
    (nextState? (exec (.tickChorus ⟨0, 0, 0x3F800000, 0x3F7AE148, 0, 0x3DCCCCCD, 0x3F800000⟩)
      { ready1024 with status := 0 })).isSome = true := by
  have h0 : f32Rat 0 = 0 := by rw [f32Rat, show f32Int 0 = 0 by decide +kernel]; norm_num
  have h1 := f32Rat_values.1
  have hf : f32Rat 0x3F7AE148 = 16441672 * 2 ^ 125 / 2 ^ 149 := by
    rw [f32Rat, show f32Int 0x3F7AE148 = 16441672 * 2 ^ 125 by decide +kernel]; norm_num
  have hr : f32Rat 0x3DCCCCCD = 13421773 * 2 ^ 122 / 2 ^ 149 := by
    rw [f32Rat, show f32Int 0x3DCCCCCD = 13421773 * 2 ^ 122 by decide +kernel]; norm_num
  refine ⟨⟨⟨by decide, ?_, ?_⟩, ⟨by decide, ?_, le_rfl⟩, ⟨by decide, ?_, ?_⟩, ⟨by decide, le_rfl, ?_⟩, ⟨by decide, ?_, ?_⟩⟩,
    ?_, ?_, ?_, by decide +kernel⟩ <;> first
    | (simp only [h0, h1, hf, hr]; norm_num)
    | (rw [f32Rat, show f32Int 0x44800000 = 1024 * 2 ^ 149 by decide +kernel]; norm_num)

theorem witness_DepthZeroIgnoresTheSine : f32IsFinite 0x3F000000 = true := by decide

theorem witness_IdealLerpIsConvex : (0 : ℝ) ≤ 1 ∧ (1 : ℝ) ≤ 1 ∧ (0 : ℝ) ≤ 0 := by norm_num

theorem witness_IdealDelayTimesStayInRange : (0 : ℝ) ≤ 48000 ∧ (0 : ℝ) ≤ 1 ∧ (1 : ℝ) ≤ 1 := by norm_num

/-- The shortest buffer. -/
theorem witness_IdealModulatedReadsHaveSlots :
    (0 : ℝ) < 1 / 2 ∧ (0 : ℝ) ≤ 1 ∧ (1 : ℝ) ≤ 1 ∧ ((1 : ℕ) : ℤ) = ⌊(1 / 2 : ℝ) * 2⌋ ∧ 0 < 1 := by norm_num

/-- Both cases, the second at its boundary. -/
theorem witness_IdealDelayBeyondTheLength :
    0 < 1 ∧ ((1 : ℕ) : ℝ) < 2 ∧ ((0 : ℕ) : ℝ) + ((1 : ℕ) : ℝ) < 2 ∧
    1 < 2 ∧ ((2 : ℕ) : ℝ) < 3 ∧ (3 : ℝ) ≤ ((1 : ℕ) : ℝ) + ((2 : ℕ) : ℝ) := by norm_num

/-- Every bound reached, with the largest gain. -/
theorem witness_IdealFeedbackStaysBounded :
    (0 : ℝ) ≤ 98 / 100 ∧ (98 : ℝ) / 100 < 1 ∧ |(1 : ℝ)| ≤ 1 ∧ |(49 : ℝ)| ≤ 98 / 100 * (1 / (1 - 98 / 100)) ∧
    |(50 : ℝ)| ≤ 1 / (1 - 98 / 100) ∧ (0 : ℝ) ≤ 1 ∧ (1 : ℝ) ≤ 1 := by norm_num

/-- A delay time at each end, and a sequence that is periodic in the length. -/
theorem witness_IdealRealisedDelay :
    (1 : ℝ) ≤ 1 ∧ (1 : ℝ) ≤ ((1 : ℕ) : ℝ) ∧ ∀ z : ℤ, (fun _ : ℤ => (1 : ℝ)) (z + ((1 : ℕ) : ℤ)) = (fun _ : ℤ => (1 : ℝ)) z := by
  norm_num

theorem witness_IdealPhaseAdvances : (0 : ℝ) ≤ 1 ∧ (1 : ℝ) ≤ 1 ∧ (0 : ℝ) ≤ 20 / 20 ∧ (20 : ℝ) / 20 ≤ 1 := by norm_num

end Sys2Proof.Tests
end

section
/-! SUPPORT. Proofs of the scope family: every step answers, binary32 rounds to nearest even, NaN propagates, indices
convert exactly, and the LFO phase stays in the unit interval. -/

namespace Sys2Proof.Machine

/-! ### Every step answers a next state -/

/-- An admitted tick with `W` in the buffer answers a next state, which keeps `PH` as its times have it (R108, R218). -/
theorem tick_answers {times : TickOperands → State → Timed} (ht : IsTimes times) (o : TickOperands) {s : State}
    (hm : s.mode = .ready) (hw : s.w.toNat < s.len.toNat) :
    ∃ t, admitTick (tickSteps times o) s = .next t ∧ t.ph = (times o s).s.ph := by
  rcases tick_cases ht o rfl hm hw with ⟨-, e⟩ | ⟨_, -, -, e⟩ | ⟨_, _, -, -, e⟩ <;>
    exact ⟨_, e, by simp [readState]⟩

/-- An instruction answers a next state, unless it is a tick in mode `READY` with `W` outside the buffer (R62). -/
theorem exec_answers (i : Instr) {s : State} (hw : s.mode = .ready → s.w.toNat < s.len.toNat) :
    ∃ t, exec i s = .next t := by
  rcases exec_cases i s with ⟨e, -⟩ | ⟨_, _, _, _, _, -, -, -, e⟩ | ⟨_, _, _, _, -, -, -, e⟩ | ⟨_, -, -, e⟩ |
    ⟨_, -, -, e⟩ | ⟨_, -, -, e⟩ | ⟨_, -, -, e⟩ | ⟨_, -, hm, hge, -⟩ | ⟨o, times, -, ht, -, hm, hlt, e⟩
  iterate 7 · exact ⟨_, e⟩
  · exact absurd (hw hm) (Nat.not_lt.2 hge)
  · obtain ⟨t, et, -⟩ := tick_answers ht o hm hlt
    exact ⟨t, e.trans et⟩

/-- Settles O35: the invariant excludes the one path that stops, a tick with `W` outside the buffer. -/
theorem stepAlwaysAnswers : Obligations.StepAlwaysAnswers := by
  intro s hs
  rcases step_cases s with ⟨-, e⟩ | ⟨_, -, e⟩ | ⟨_, _, _, -, e⟩ | ⟨_, _, -, e⟩ | ⟨_, _, i, -, -, e⟩
  iterate 4 · exact ⟨_, e⟩
  · obtain ⟨t, et⟩ := exec_answers i (s := takeEvent _ true s) fun hm => by
      have hc := ((mode_eq_ready _).1 hm).2
      rw [takeEvent_status] at hc
      simpa using (hs.configured hc).1
    exact ⟨t, e.trans et⟩

/-! ### Rounding to nearest, ties to even -/

/-- Settles O40: a sum or difference is one rounding of the exact value, and that is nearest in the normal range. -/
theorem sumsRoundToNearestEven : Obligations.SumsRoundToNearestEven := by
  intro a b ha hb na nb
  have hadd := f32Add_rounds ha hb
  have hsub := f32Sub_rounds ha hb
  rw [flushSubnormal_of_not_subnormal a na, flushSubnormal_of_not_subnormal b nb] at hadd hsub
  exact ⟨hadd.nearest, hsub.nearest⟩

theorem not_inNormalRange_zero : ¬ InNormalRange 0 := by
  rintro ⟨h, -⟩
  norm_num at h

/-- Settles O41: a product or quotient is one rounding of the exact value; a division by a zero is not in the normal range
of the statement. -/
theorem productsAndQuotientsRoundToNearestEven : Obligations.ProductsAndQuotientsRoundToNearestEven := by
  intro a b ha hb na nb
  have hmul := f32Mul_rounds ha hb
  have hdiv := f32Div_rounds ha hb
  rw [flushSubnormal_of_not_subnormal a na, flushSubnormal_of_not_subnormal b nb] at hmul hdiv
  refine ⟨hmul.nearest, fun hv => (hdiv ?_).nearest hv⟩
  by_contra h0
  rw [(f32Rat_eq_zero b).2 (Bool.not_eq_false _ ▸ h0), div_zero] at hv
  exact not_inNormalRange_zero hv

/-! ### NaN -/

/-- A comparison with a NaN is false (R13). -/
theorem f32Lt_nan {a b : Word} (h : f32IsNaN a = true ∨ f32IsNaN b = true) : f32Lt a b = false := by
  rcases h with h | h <;> simp [f32Lt, h]

/-- A comparison with a NaN is false (R13). -/
theorem f32Le_nan {a b : Word} (h : f32IsNaN a = true ∨ f32IsNaN b = true) : f32Le a b = false := by
  rcases h with h | h <;> simp [f32Le, h]

/-- A tick whose right time is NaN raises a `BufferUnderflow`, of the left lane where that has no slots either (R212). -/
theorem tick_nan_rightTime {times : TickOperands → State → Timed} (ht : IsTimes times) {o : TickOperands} {s : State}
    (hm : s.mode = .ready) (hw : s.w.toNat < s.len.toNat) (hn : f32IsNaN (times o s).dR = true) :
    ∃ t, admitTick (tickSteps times o) s = .next t ∧ statusFlt t.status = 2 := by
  have hs : slotsInTick s (times o s).dR = none := readSlots_nan _ _ hn
  have hf : statusFlt s.status = 0 := ((mode_eq_ready s).1 hm).1
  rcases tick_cases ht o rfl hm hw with ⟨-, e⟩ | ⟨_, -, -, e⟩ | ⟨_, _, -, h, -⟩
  · exact ⟨_, e, by simp [readState, hf, Cause.code]⟩
  · exact ⟨_, e, by simp [readState, hf, Cause.code]⟩
  · rw [hs] at h; cases h

/-- The modulated ticks are one rule with two ranges in seconds (R169 to R171). -/
theorem exec_modulated {o : TickOperands} {i : Instr} (hi : i = .tickChorus o ∨ i = .tickFlanger o) :
    ∃ lo hi, ∀ s, exec i s = admitTick (tickSteps (modulatedTimes lo hi) o) s := by
  rcases hi with rfl | rfl <;> exact ⟨_, _, fun _ => rfl⟩

/-- Settles O42: a NaN goes through each operation, so it reaches the register and the delay time of a tick, and a NaN time
has no slots. -/
theorem nanPropagates : Obligations.NanPropagates := by
  refine ⟨fun a b h => ⟨f32Add_nan h, f32Sub_nan h, f32Mul_nan h, f32Div_nan h, f32Lt_nan h, f32Le_nan h⟩, ?_, ?_⟩
  · intro o s hm hw hr
    have hsm : f32IsNaN (delayTimes o s).s.sm = true := smooth_nan hr
    obtain ⟨t, e, hts, -, hflt⟩ := tick_nan_time .delay (o := o) hm hw (f32Mul_nan (.inl (smooth_nan hr)))
    exact ⟨t, e, by rw [hts, hsm], hflt⟩
  · intro o i s hi hm hw
    obtain ⟨lo, hi', he⟩ := exec_modulated hi
    rw [he]
    have left (hn : f32IsNaN o.rate = true ∨ f32IsNaN s.ph = true ∨ f32IsNaN o.depth = true) :=
      tick_nan_time (.modulated lo hi') (o := o) hm hw
        (by rw [modulatedTimes_dL]; exact timeWithRate_nan (hn.imp_right modulatedTime_nan))
    refine ⟨fun hn => ?_, fun hn => ?_, fun hn => ?_⟩
    · obtain ⟨t, e, -, hph, hflt⟩ := left (hn.imp_right .inl)
      exact ⟨t, e, by rw [hph, modulatedTimes_ph]; exact advancePhase_nan hn.symm, hflt⟩
    · obtain ⟨t, e, -, -, hflt⟩ := left (.inr (.inr hn))
      exact ⟨t, e, hflt⟩
    · exact tick_nan_rightTime (.modulated lo hi') hm hw (by
        rw [modulatedTimes_dR]
        exact timeWithRate_nan (.inr (modulatedTime_nan (.inl (rightPhase_nan (.inr hn))))))

/-! ### Exact index conversions -/

theorem magOfBits_infBits : magOfBits infBits = 2 ^ 24 * 2 ^ 253 :=
  magOfBits_parts 253 (2 ^ 24) (.inr (by norm_num)) le_rfl

/-- Every whole number of at most 24 bits, scaled by a power of two, is a magnitude. -/
theorem exists_magOfBits_eq (sh : ℕ) : ∀ {m : ℕ}, m ≤ 2 ^ 24 → ∃ b, magOfBits b = m * 2 ^ sh := by
  induction sh with
  | zero => exact fun hm => ⟨_, magOfBits_parts 0 _ (.inl rfl) hm⟩
  | succ sh ih =>
    intro m hm
    rcases Nat.lt_or_ge m (2 ^ 23) with hlt | hge
    · obtain ⟨b, hb⟩ := ih (m := 2 * m) (by omega)
      exact ⟨b, by rw [hb, pow_succ]; ring⟩
    · exact ⟨_, magOfBits_parts (sh + 1) m (.inr hge) hm⟩

/-- Below the overflow, such a scaled number is the value of a finite pattern. -/
theorem exists_f32Rat_eq {m sh : ℕ} (hm : m ≤ 2 ^ 24) (hlt : m * 2 ^ sh < 2 ^ 24 * 2 ^ 253) :
    ∃ z : Word, f32IsFinite z = true ∧ f32Rat z = ((m * 2 ^ sh : ℕ) : ℚ) / 2 ^ 149 := by
  obtain ⟨b, hb⟩ := exists_magOfBits_eq sh hm
  have hinf : b < infBits := by
    by_contra hc
    have := magOfBits_le (Nat.not_lt.1 hc)
    rw [magOfBits_infBits, hb] at this
    exact absurd hlt (Nat.not_lt.2 this)
  have hb31 : b < 2 ^ 31 := hinf.trans (by decide)
  refine ⟨f32Pack false b, ?_, ?_⟩
  · rw [f32IsFinite, f32Bits_pack _ _ hb31, decide_eq_true hinf]
  · rw [f32Rat_pack _ hb31, hb]; simp

theorem f32Rat_pack_zero (s : Bool) : f32Rat (f32Pack s 0) = 0 := by
  rw [f32Rat_pack s (by norm_num), magOfBits_zero]; simp

/-- A zero is not subnormal, and neither is a pattern of at least the least normal number (R186). -/
theorem notSubnormal_of_zero_or_ge {z : Word} (h : f32Rat z = 0 ∨ 1 / 2 ^ 126 ≤ |f32Rat z|) : NotSubnormal z := by
  rcases h with h | h
  · have h0 : f32Bits z = 0 := by simpa [f32IsZero] using (f32Rat_eq_zero z).1 h
    simp [NotSubnormal, f32IsSubnormal, h0]
  · exact notSubnormal_of_ge h

theorem f32OfNat_rounds (n : ℕ) : RoundsTo n (f32OfNat n) :=
  ⟨false, n * 2 ^ 149, 1, one_pos, rfl, by norm_num⟩

/-- A whole number is the value of no subnormal. -/
theorem notSubnormal_of_natCast {z : Word} {n : ℕ} (h : f32Rat z = n) : NotSubnormal z := by
  refine notSubnormal_of_zero_or_ge ?_
  rw [h, Nat.abs_cast]
  rcases Nat.eq_zero_or_pos n with h0 | hpos
  · exact .inl (by rw [h0, Nat.cast_zero])
  · have h1 : (1 : ℚ) ≤ n := by exact_mod_cast hpos
    exact .inr (le_trans (by norm_num) h1)

/-- `itof` of a number up to `2^24` is exact (R129). -/
theorem f32OfNat_exact {n : ℕ} (hn : n ≤ 2 ^ 24) : f32IsFinite (f32OfNat n) = true ∧ f32Rat (f32OfNat n) = n := by
  obtain ⟨z, hz, hv⟩ := exists_f32Rat_eq hn (sh := 149)
    (Nat.mul_lt_mul_of_le_of_lt hn (Nat.pow_lt_pow_right (by norm_num) (by norm_num)) (by norm_num))
  have hval : f32Rat z = n := by rw [hv]; push_cast; exact mul_div_cancel_right₀ _ (by positivity)
  have hr := f32OfNat_rounds n
  exact ⟨hr.finite hz (by rw [hval]), (hr.exact hz (notSubnormal_of_natCast hval) hval.symm).trans hval⟩

/-- The floor of a pattern that is not subnormal is the floor of its value (R13). -/
theorem f32Floor_eq {p : Word} (hp : NotSubnormal p) : f32Floor p = ⌊f32Rat p⌋ := by
  rw [f32Floor, flushSubnormal_of_not_subnormal p hp, f32Rat]
  exact_mod_cast (Rat.floor_intCast_div_natCast (f32Int p) (2 ^ 149)).symm

/-- The fraction of a value is the value of a pattern: it keeps the place of the last bit and drops high bits (R129). -/
theorem exists_fract_eq {p : Word} (hf : f32IsFinite p = true) (hp : NotSubnormal p) (h0 : 0 ≤ f32Rat p) :
    ∃ z : Word, f32IsFinite z = true ∧ NotSubnormal z ∧ f32Rat z = Int.fract (f32Rat p) := by
  rcases lt_or_ge (f32Rat p) 1 with h1 | h1
  · exact ⟨p, hf, hp, (Int.fract_eq_self.2 ⟨h0, h1⟩).symm⟩
  obtain ⟨sh, m, -, -, hm, hmag⟩ := magOfBits_cases (f32Bits p)
  have hval : f32Rat p = ((m * 2 ^ sh : ℕ) : ℚ) / 2 ^ 149 := by
    rw [← abs_of_nonneg h0, abs_f32Rat, f32Mag, hmag]
  have hfr : Int.fract (f32Rat p) = ((m * 2 ^ sh % 2 ^ 149 : ℕ) : ℚ) / 2 ^ 149 := by
    rw [hval]; exact_mod_cast Int.fract_div_natCast_eq_div_natCast_mod (k := ℚ) (m := m * 2 ^ sh) (n := 2 ^ 149)
  -- the fraction is `r` units of the last place of `p`, which is at least `2^-23` because `p` is at least 1
  obtain ⟨r, hr, hmod⟩ : ∃ r, r ≤ 2 ^ 24 ∧ m * 2 ^ sh % 2 ^ 149 = r * 2 ^ sh := by
    rcases Nat.lt_or_ge sh 149 with hs | hs
    · refine ⟨m % 2 ^ (149 - sh), (Nat.mod_le _ _).trans hm.le, ?_⟩
      rw [← Nat.mul_mod_mul_right, ← pow_add, Nat.sub_add_cancel hs.le]
    · exact ⟨0, Nat.zero_le _, by rw [Nat.zero_mul]; exact Nat.mod_eq_zero_of_dvd ((pow_dvd_pow 2 hs).mul_left m)⟩
  have hlast : 126 ≤ sh := by
    by_contra hc
    rw [hval, le_div_iff₀ (by positivity), one_mul] at h1
    have h2 : 2 ^ 149 ≤ m * 2 ^ sh := by exact_mod_cast h1
    have h3 : m * 2 ^ sh < 2 ^ 24 * 2 ^ sh := Nat.mul_lt_mul_of_pos_right hm (by positivity)
    have h4 : 2 ^ 24 * 2 ^ sh ≤ 2 ^ 149 := by
      rw [← pow_add]; exact Nat.pow_le_pow_right (by norm_num) (by omega)
    omega
  have hsmall : r * 2 ^ sh < 2 ^ 149 := hmod ▸ Nat.mod_lt _ (by positivity)
  obtain ⟨z, hz, hv⟩ := exists_f32Rat_eq hr (hsmall.trans (by norm_num))
  refine ⟨z, hz, notSubnormal_of_zero_or_ge ?_, by rw [hv, hfr, hmod]⟩
  rcases Nat.eq_zero_or_pos r with h | h
  · exact .inl (by rw [hv, h]; simp)
  · right
    have hge : 2 ^ 126 ≤ r * 2 ^ sh := Nat.le_mul_of_pos_left _ h |>.trans' (Nat.pow_le_pow_right (by norm_num) hlast)
    have hge' : (2 ^ 126 : ℚ) ≤ ((r * 2 ^ sh : ℕ) : ℚ) := by exact_mod_cast hge
    rw [hv, abs_of_nonneg (by positivity), le_div_iff₀ (by positivity)]
    exact le_trans (by norm_num) hge'

/-- Settles O43: the fraction is itself the value of a pattern, so the rounded subtraction is exact. -/
theorem indexConversionsAreExact : Obligations.IndexConversionsAreExact := by
  refine ⟨fun n hn => f32OfNat_exact hn, fun len p sl hlen hp hs => ?_⟩
  obtain ⟨hnan, hinf, hfloor, hlt, -, hfr⟩ := slotsOf_some hs
  have hfin : f32IsFinite p = true := (f32IsFinite_iff p).2 ⟨hnan, hinf⟩
  have hi0 : (sl.i0 : ℤ) = ⌊f32Rat p⌋ := hfloor.trans (f32Floor_eq hp)
  have hpos : 0 ≤ f32Rat p := Int.floor_nonneg.1 (hi0 ▸ Int.natCast_nonneg _)
  have hle : sl.i0 ≤ 2 ^ 24 := hlt.le.trans hlen
  have hfract : f32Rat p - sl.i0 = Int.fract (f32Rat p) := by
    rw [← Int.self_sub_floor, ← hi0, Int.cast_natCast]
  obtain ⟨z, hz, nz, hv⟩ := exists_fract_eq hfin hp hpos
  obtain ⟨hif, hiv⟩ := f32OfNat_exact hle
  have hval : f32Rat sl.fr = Int.fract (f32Rat p) := by
    rw [hfr, num_fsub, num_itof, ← hv]
    exact (f32Sub_exact hfin hif hp (notSubnormal_of_natCast hiv) hz nz (by rw [hiv, hfract, hv])).2
  rw [hval]
  exact ⟨hfract.symm, Int.fract_nonneg _, Int.fract_lt_one _⟩

/-! ### The LFO phase -/

theorem f32Rat_zero : f32Rat 0 = 0 := (f32Rat_eq_zero 0).2 (by decide)

theorem f32Rat_one : f32Rat 0x3F800000 = 1 := by
  rw [f32Rat, show f32Int 0x3F800000 = 2 ^ 149 by decide +kernel]; norm_num

theorem notSubnormal_zero : NotSubnormal 0 := notSubnormal_of_zero_or_ge (.inl f32Rat_zero)

theorem notSubnormal_one : NotSubnormal 0x3F800000 :=
  notSubnormal_of_natCast (n := 1) (by rw [f32Rat_one, Nat.cast_one])

theorem f32Rat_two : f32Rat 0x40000000 = 2 := by
  rw [f32Rat, show f32Int 0x40000000 = 2 ^ 150 by decide +kernel]; norm_num

theorem notSubnormal_two : NotSubnormal 0x40000000 :=
  notSubnormal_of_natCast (n := 2) (by rw [f32Rat_two, Nat.cast_ofNat])

/-- A finite pattern with a value in `[0, 1]` (R22, R168). -/
def InUnit (x : Word) : Prop := f32IsFinite x = true ∧ 0 ≤ f32Rat x ∧ f32Rat x ≤ 1

/-- Rounding does not leave `[0, 1]`, because both ends are patterns. -/
theorem RoundsTo.inUnit {v : ℚ} {r : Word} (h : RoundsTo v r) (h0 : 0 ≤ v) (h1 : v ≤ 1) : InUnit r := by
  refine ⟨h.finite (z := 0x3F800000) (by decide) ?_, ?_, ?_⟩
  · rwa [f32Rat_one, abs_one, abs_of_nonneg h0]
  · simpa only [f32Rat_zero] using h.ge (z := 0) (by decide) notSubnormal_zero (by rwa [f32Rat_zero])
  · simpa only [f32Rat_one] using h.le (z := 0x3F800000) (by decide) notSubnormal_one (by rwa [f32Rat_one])

/-- Flushing does not leave `[0, 1]` (R186). -/
theorem InUnit.flush {x : Word} (h : InUnit x) : InUnit (flushSubnormal x) := by
  refine ⟨f32IsFinite_flush h.1, ?_⟩
  rcases flushSubnormal_cases x with e | ⟨-, e⟩ <;> rw [e]
  · exact h.2
  · rw [f32Rat_pack_zero]; norm_num

/-- The comparison of finite patterns compares the flushed values (R13, R186). -/
theorem f32Lt_iff {a b : Word} (ha : f32IsFinite a = true) (hb : f32IsFinite b = true) :
    f32Lt a b = true ↔ f32Rat (flushSubnormal a) < f32Rat (flushSubnormal b) := by
  rw [f32Lt, ((f32IsFinite_iff a).1 ha).1, ((f32IsFinite_iff b).1 hb).1, f32Rat, f32Rat,
    div_lt_div_iff_of_pos_right (by positivity), Int.cast_lt]
  simp

theorem notSubnormal_of_one_lt {x : Word} (h : 1 < f32Rat x) : NotSubnormal x :=
  notSubnormal_of_ge (le_trans (by norm_num) (h.le.trans (le_abs_self _)))

/-- The test of the wrap compares the value with 1 in both modes of R186, because no value above 1 is flushed. -/
theorem f32Lt_one_iff {x : Word} (hx : f32IsFinite x = true) : f32Lt 0x3F800000 x = true ↔ 1 < f32Rat x := by
  rw [f32Lt_iff (by decide) hx, flushSubnormal_of_not_subnormal _ notSubnormal_one, f32Rat_one]
  constructor
  · intro h
    rcases flushSubnormal_cases x with e | ⟨-, e⟩
    · rwa [e] at h
    · rw [e, f32Rat_pack_zero] at h
      norm_num at h
  · intro h
    rwa [flushSubnormal_of_not_subnormal x (notSubnormal_of_one_lt h)]

/-- One subtraction of 1 brings a value from `[0, 2]` into `[0, 1]` (R161, R168). -/
theorem wrapPhase_inUnit {x : Word} (hx : f32IsFinite x = true) (h0 : 0 ≤ f32Rat x) (h2 : f32Rat x ≤ 2) :
    InUnit (wrapPhase num x) := by
  rw [wrapPhase, num_lt, num_one, num_fsub]
  split
  · next h =>
    have h1 := (f32Lt_one_iff hx).1 h
    have hr := f32Sub_rounds hx (b := 0x3F800000) (by decide)
    rw [flushSubnormal_of_not_subnormal x (notSubnormal_of_one_lt h1),
      flushSubnormal_of_not_subnormal _ notSubnormal_one, f32Rat_one] at hr
    exact hr.inUnit (by linarith) (by linarith)
  · next h => exact ⟨hx, h0, not_lt.1 (mt (f32Lt_one_iff hx).2 h)⟩

/-- The sum of two patterns in `[0, 1]` is finite and in `[0, 2]`, in both modes of R186. -/
theorem f32Add_of_inUnit {a b : Word} (ha : InUnit a) (hb : InUnit b) :
    f32IsFinite (f32Add a b) = true ∧ 0 ≤ f32Rat (f32Add a b) ∧ f32Rat (f32Add a b) ≤ 2 := by
  obtain ⟨-, a0, a1⟩ := ha.flush
  obtain ⟨-, b0, b1⟩ := hb.flush
  have hr := f32Add_rounds ha.1 hb.1
  refine ⟨hr.finite (z := 0x40000000) (by decide) ?_, ?_, ?_⟩
  · rw [f32Rat_two, abs_of_nonneg (by linarith), abs_of_nonneg (by norm_num)]; linarith
  · simpa only [f32Rat_zero] using hr.ge (z := 0) (by decide) notSubnormal_zero (by rw [f32Rat_zero]; linarith)
  · simpa only [f32Rat_two] using hr.le (z := 0x40000000) (by decide) notSubnormal_two (by rw [f32Rat_two]; linarith)

/-- The increment `P.rate / SR` of the phase is in `[0, 1]` for a rate up to 20 and a sample rate of at least 20 (R168). -/
theorem f32Div_inUnit {rate sr : Word} (hr : f32IsFinite rate = true) (hs : f32IsFinite sr = true)
    (nr : NotSubnormal rate) (r0 : 0 ≤ f32Rat rate) (r1 : f32Rat rate ≤ 20) (s1 : 20 ≤ f32Rat sr) :
    InUnit (f32Div rate sr) := by
  have ns : NotSubnormal sr := notSubnormal_of_one_lt (by linarith)
  have h0 : f32IsZero sr = false := by
    by_contra h
    linarith [(f32Rat_eq_zero sr).2 ((Bool.not_eq_false _).mp h)]
  have hd := f32Div_rounds hr hs (by rwa [flushSubnormal_of_not_subnormal sr ns])
  rw [flushSubnormal_of_not_subnormal rate nr, flushSubnormal_of_not_subnormal sr ns] at hd
  exact hd.inUnit (div_nonneg r0 (by linarith)) ((div_le_one (by linarith)).2 (r1.trans s1))

/-- The least rate of R5, about 0.1, is a normal number. -/
theorem f32Rat_minRate : 1 / 2 ^ 126 ≤ f32Rat 0x3DCCCCCD := by
  rw [f32Rat, show f32Int 0x3DCCCCCD = 13421773 * 2 ^ 122 by decide +kernel]; norm_num

/-- The phase advance keeps `[0, 1]` (R168). -/
theorem advancePhase_inUnit {ph rate sr : Word} (hp : InUnit ph) (hi : InUnit (f32Div rate sr)) :
    InUnit (advancePhase num ph rate sr) := by
  obtain ⟨hf, h0, h2⟩ := f32Add_of_inUnit hp hi
  exact wrapPhase_inUnit hf h0 h2

/-- A tick that answers leaves `PH` as its times have it, or as it was where it is not admitted (R213, R219). -/
theorem tick_ph {times : TickOperands → State → Timed} (ht : IsTimes times) {o : TickOperands} {s t : State}
    (he : admitTick (tickSteps times o) s = .next t) : t.ph = s.ph ∨ t.ph = (times o s).s.ph := by
  rcases mode_cases s with hm | hm | hm
  · rw [admitTick_unconfigured hm] at he
    injection he with he
    exact .inl (by rw [← he, raise_ph])
  · rcases Nat.lt_or_ge s.w.toNat s.len.toNat with hw | hw
    · obtain ⟨t', e, hph⟩ := tick_answers ht o hm hw
      rw [he] at e
      injection e with e
      exact .inr (e ▸ hph)
    · rw [admitTick_ready hm, tickSteps_of_ge _ _ hw] at he
      cases he
  · rw [admitTick_faulted hm] at he
    injection he with he
    exact .inl (by rw [← he, refuseTick_ph])

/-- Settles O51: each rounding of the phase advance is between patterns that bound its exact value. -/
theorem phaseStaysInUnitInterval : Obligations.PhaseStaysInUnitInterval := by
  rintro o s t ⟨-, -, -, ⟨hrf, hr0, hr1⟩, -⟩ hsf hs1 hpf hp0 hp1 he
  obtain ⟨i, hi, he⟩ : ∃ i, (i = .tickChorus o ∨ i = .tickFlanger o) ∧ exec i s = .next t :=
    he.elim (fun h => ⟨_, .inl rfl, h⟩) (fun h => ⟨_, .inr rfl, h⟩)
  obtain ⟨lo, hi', hx⟩ := exec_modulated hi
  rw [hx] at he
  have hph : InUnit s.ph := ⟨hpf, hp0, hp1⟩
  have hr : 1 / 2 ^ 126 ≤ f32Rat o.rate := f32Rat_minRate.trans hr0
  rcases tick_ph (.modulated lo hi') he with e | e <;> rw [e]
  · exact hph
  · rw [modulatedTimes_ph]
    exact advancePhase_inUnit hph (f32Div_inUnit hrf hsf (notSubnormal_of_ge (hr.trans (le_abs_self _)))
      (le_trans (by positivity) hr) hr1 hs1)

end Sys2Proof.Machine
end

section
/-! SUPPORT. Proofs of the state family: what every step keeps, which commands write and read each register, what the ports
present, and where the smoother's update lies. -/

namespace Sys2Proof.Machine

/-! ### The invariant -/

/-- The invariant speaks of `W`, `STATUS`, `SR`, `LEN` and the buffers only. -/
theorem State.Inv.congr {s t : State} (h : s.Inv) (hw : t.w = s.w) (hst : t.status = s.status) (hsr : t.sr = s.sr)
    (hlen : t.len = s.len) (hL : t.bufL = s.bufL) (hR : t.bufR = s.bufR) : t.Inv := by
  obtain ⟨wfL, wfR, inL, inR, le, cfg, res, code, fch, excl⟩ := h
  constructor <;> simpa only [hw, hst, hsr, hlen, hL, hR]

theorem leaveOutputsOpen_inv {s : State} (h : s.Inv) : (leaveOutputsOpen s).Inv :=
  h.congr rfl rfl rfl rfl rfl rfl

theorem takeEvent_inv {s : State} (h : s.Inv) (rest : List HostEvent) (a : Bool) : (takeEvent rest a s).Inv :=
  h.congr rfl rfl rfl rfl rfl rfl

theorem setParam_inv {s : State} (h : s.Inv) (p : FParam) (v : Word) : (setParam p v s).Inv :=
  h.congr rfl rfl rfl rfl rfl rfl

theorem setType_inv {s : State} (h : s.Inv) (t : BitVec 2) : (setType t s).Inv :=
  h.congr rfl rfl rfl rfl rfl rfl

theorem mixAndEmit_inv {s : State} (h : s.Inv) (o : TickOperands) (a b : Word) : (mixAndEmit o a b s).Inv := by
  apply h.congr <;> simp

/-- After reset nothing is configured, listed or recorded (R41). -/
theorem reset_inv : State.reset.Inv where
  bufL_wf := rfl
  bufR_wf := rfl
  bufL_within := rfl
  bufR_within := rfl
  len_le := Nat.zero_le _
  configured h := absurd h (by decide)
  reserved := by decide
  code := .inl (by decide)
  fch h := absurd h (by decide)
  cfg_err h := absurd h.1 (by decide)

theorem resetEvent_inv (s : State) : (resetEvent s).Inv :=
  reset_inv.congr rfl rfl rfl rfl rfl rfl

/-- A valid `CFG` empties both buffers, puts `W` at 0 and `LEN` at the length of `SR`, and clears the report (R192). -/
theorem configure_inv {s : State} (h : s.Inv) {sr : Word} (blk rate : Word) {n : Nat}
    (hn : bufferLength num sr = some n) : (configure sr blk rate n s).Inv := by
  have hlen := bufferLength_toNat hn
  obtain ⟨hpos, hle⟩ := bufferLength_bounds hn
  constructor <;> simp only [configure_bufL, configure_bufR, configure_len, configure_status, configure_w,
    configure_sr, hlen, statusReserved_withCfg, statusFlt_withCfg, statusFch_withCfg, statusCfg_withCfg,
    statusErr_withCfg]
  case len_le => exact hle
  case configured => exact fun _ => ⟨hpos, hn⟩
  case reserved => exact h.reserved
  case code => exact h.code
  case fch => exact h.fch
  case cfg_err => decide
  all_goals rfl

/-- An invalid `CFG` unconfigures the block, so `W` and `LEN` are bound no more (R193). -/
theorem reportInvalidSampleRate_inv {s : State} (h : s.Inv) : (reportInvalidSampleRate s).Inv where
  bufL_wf := h.bufL_wf
  bufR_wf := h.bufR_wf
  bufL_within := h.bufL_within
  bufR_within := h.bufR_within
  len_le := h.len_le
  configured hc := by simp at hc
  reserved := by simpa using h.reserved
  code := by simpa using h.code
  fch := by simpa using h.fch
  cfg_err := by simp

/-- A cause has a legal code, and only `BufferUnderflow` records a channel (R210, R216). -/
theorem Cause.code_legal (c : Cause) :
    (c.code = 2 ∨ c.code = 3 ∨ c.code = 4) ∧ (c.fch = true → c.code = 2) := by
  cases c <;> simp [Cause.code, Cause.fch]

theorem raise_inv {s : State} (h : s.Inv) (c : Cause) : (raise c s).Inv := by
  by_cases hf : statusFlt s.status = 0
  · obtain ⟨hcode, hfch⟩ := c.code_legal
    rw [raise_of_ready hf]
    exact
      { h with
        configured := by simpa using h.configured
        reserved := by simpa using h.reserved
        code := by simpa using .inr hcode
        fch := by simpa using hfch
        cfg_err := by simpa using h.cfg_err }
  · rw [raise_of_faulted hf]
    exact h.congr rfl rfl rfl rfl rfl rfl

/-- Steps 1 to 3 of an admitted tick store below `LEN` and keep the head below `LEN` (R102, R103). -/
theorem readState_inv {s : State} (h : s.Inv) (hw : s.w.toNat < s.len.toNat) (o : TickOperands) (sm ph : Word) :
    (readState o s sm ph).Inv :=
  have hpos : 0 < s.len.toNat := by omega
  { h with
    bufL_wf := write_wf _ _ _ h.bufL_wf
    bufR_wf := write_wf _ _ _ h.bufR_wf
    bufL_within := write_within _ _ _ _ h.bufL_within hw
    bufR_within := write_within _ _ _ _ h.bufR_within hw
    configured := fun hc =>
      ⟨(nextHead_toNat s.len s.w.toNat hpos).trans_lt (nextHead_lt hpos), (h.configured hc).2⟩ }

theorem tick_inv {times : TickOperands → State → Timed} (ht : IsTimes times) {o : TickOperands} {s t : State}
    (h : s.Inv) (hm : s.mode = .ready) (hw : s.w.toNat < s.len.toNat)
    (he : admitTick (tickSteps times o) s = .next t) : t.Inv := by
  have hr := readState_inv h hw o (times o s).s.sm (times o s).s.ph
  rcases tick_cases ht o rfl hm hw with ⟨-, e⟩ | ⟨_, -, -, e⟩ | ⟨_, _, -, -, e⟩ <;>
    obtain rfl := Host.Outcome.next.inj (e.symm.trans he)
  · exact raise_inv hr _
  · exact raise_inv hr _
  · exact mixAndEmit_inv hr _ _ _

theorem exec_inv {i : Instr} {s t : State} (h : s.Inv) (he : exec i s = .next t) : t.Inv := by
  rcases exec_cases i s with ⟨e, -⟩ | ⟨_, _, _, _, _, -, -, hn, e⟩ | ⟨_, _, _, _, -, -, -, e⟩ | ⟨_, -, -, e⟩ |
    ⟨_, -, -, e⟩ | ⟨_, -, -, e⟩ | ⟨_, -, -, e⟩ | ⟨_, -, -, -, e⟩ | ⟨_, _, -, ht, -, hm, hw, e⟩ <;>
    rw [e] at he
  · exact Host.Outcome.next.inj he ▸ h
  · exact Host.Outcome.next.inj he ▸ configure_inv h _ _ hn
  · exact Host.Outcome.next.inj he ▸ reportInvalidSampleRate_inv h
  · exact Host.Outcome.next.inj he ▸ raise_inv h _
  · exact Host.Outcome.next.inj he ▸ leaveOutputsOpen_inv h
  · exact Host.Outcome.next.inj he ▸ raise_inv h _
  · exact Host.Outcome.next.inj he ▸ raise_inv h _
  · cases he
  · exact tick_inv ht h hm hw he

/-- Settles O34: each event and each way an instruction can end keeps the invariant. -/
theorem stepKeepsInvariant : Obligations.StepKeepsInvariant := by
  intro s t h he
  rcases step_cases s with ⟨-, e⟩ | ⟨_, -, e⟩ | ⟨_, _, _, -, e⟩ | ⟨_, _, -, e⟩ | ⟨_, _, _, -, -, e⟩ <;> rw [e] at he
  · exact Host.Outcome.next.inj he ▸ takeEvent_inv h _ _
  · exact Host.Outcome.next.inj he ▸ resetEvent_inv _
  · exact Host.Outcome.next.inj he ▸ setParam_inv (takeEvent_inv h _ _) _ _
  · exact Host.Outcome.next.inj he ▸ setType_inv (takeEvent_inv h _ _) _
  · exact exec_inv (takeEvent_inv h _ _) he

/-- Settles O33: at reset nothing is configured and no cause is recorded. -/
theorem resetMeetsInvariant : Obligations.ResetMeetsInvariant :=
  ⟨reset_inv, by decide, rfl, rfl, rfl⟩

/-! ### Events of the environment -/

/-- What the output ports carry is gone when an event is taken (R43). -/
theorem takeEvent_withOutputs (rest : List HostEvent) (a : Bool) (s : State) (l r : Word) :
    takeEvent rest a { s with outL := l, outR := r } = takeEvent rest a s := rfl

/-- Settles O10: a parameter write and an idle step act on the state with the event taken, and every step takes its event
first. -/
theorem parameterWritesAndIdle : Obligations.ParameterWritesAndIdle := by
  refine ⟨fun s p v rest h => ?_, fun s t rest h => ?_, fun s h => ?_, fun s l r => ?_⟩
  · simp only [step, h]; rfl
  · simp only [step, h]; rfl
  · simp only [step, h, takeEvent]
  · simp only [step, takeEvent_withOutputs]

/-- Settles O11: the event gives the reset state but for the parameter registers and the events still to come. -/
theorem resetEventEffects : Obligations.ResetEventEffects := by
  intro s rest h
  refine ⟨resetEvent (takeEvent rest false s), by simp only [step, h], rfl, rfl, rfl, rfl, ?_, ?_, rfl, rfl⟩
  · exact (mode_eq_unconfigured _).2 (by simp only [resetEvent_status]; decide)
  · intro c i
    cases c <;> rfl

/-! ### What the ports present -/

/-- The decoder reads back what the encoder writes, whatever words follow (R92). -/
theorem decodeWords_encode_append (i : Instr) (rest : List Word) : decodeWords (encode i ++ rest) = .ok (i, rest) := by
  cases i with
  | nop t => exact decodeWords_header (findKind_nop t) _
  | cfg t sr blk rate => exact decodeWords_header (findKind_cfg t) _
  | tickDelay o => exact decodeWords_header findKind_tickDelay _
  | tickChorus o => exact decodeWords_header findKind_tickChorus _
  | tickFlanger o => exact decodeWords_header findKind_tickFlanger _
  | reservedTickType3 o => exact decodeWords_header findKind_reservedTickType3 _
  | reservedCmdOp3 t => exact decodeWords_header (findKind_reservedCmdOp3 t) _

/-- Settles O7: acceptance decodes the sampled words, and the decoder reads the encoding of `i` back as `i`. -/
theorem stepRunsPresentedCommand : Obligations.StepRunsPresentedCommand := by
  intro s c rest i h hi
  have hd : decodeWords (sampledCommand c s.params) = .ok (i, []) := by
    simpa only [hi, List.append_nil] using decodeWords_encode_append i []
  simp only [step, h, acceptCommand, takeEvent_params, hd]
  rfl

/-- Settles O8: by the four command codes, and the four types of a `TICK`. -/
theorem everyPresentedCommandIsSampled : Obligations.EveryPresentedCommandIsSampled := by
  intro c p
  rw [sampledCommand_eq]
  rcases bits2_cases c.cmdOp with h | h | h | h <;> simp only [sampledOperands, h]
  · rfl
  · rfl
  · rcases bits2_cases p.type with ht | ht | ht | ht <;> rw [ht] <;> rfl
  · rfl

/-! ### Which command writes each register -/

/-- A raise changes `STATUS` only, and leaves the output ports open (R216). -/
theorem raise_nextButOutputs (c : Cause) (s : State) :
    NextButOutputs (.next (raise c s)) { s with status := (raise c s).status } := by
  by_cases h : statusFlt s.status = 0
  · rw [raise_of_ready h]; exact ⟨_, _, _, rfl⟩
  · rw [raise_of_faulted h]; exact ⟨_, _, _, rfl⟩

/-- Settles O28: `STATUS` is written only while `FLT = 0`, and then in `FLT` and `FCH` only. -/
theorem raiseRecordsTheFirstCause : Obligations.RaiseRecordsTheFirstCause := by
  rintro cause s _ rfl
  refine ⟨raise_nextButOutputs cause s, mode_raise cause s, ?_⟩
  rw [raise_status]
  by_cases h : statusFlt s.status = 0
  · rw [if_pos h, statusCfg_withFault, statusErr_withFault, statusReserved_withFault, statusFlt_withFault,
      statusFch_withFault]
    refine ⟨rfl, rfl, rfl, fun hn => absurd h hn, fun _ => ?_⟩
    match cause with
    | .bufferUnderflow .left | .bufferUnderflow .right | .notConfigured | .illegalCommand => exact ⟨rfl, rfl⟩
  · rw [if_neg h]
    exact ⟨rfl, rfl, rfl, fun _ => rfl, fun h0 => absurd h0 h⟩

/-- What an instruction can do when it answers a next state: it changes `STATUS` and the output ports only, or it is a
valid `CFG`, or an admitted tick, of which `tick_next` says more. -/
theorem exec_next {i : Instr} {s t : State} (he : exec i s = .next t) :
    NextButOutputs (.next t) { s with status := t.status } ∨
    (∃ tb sr blk rate n, i = .cfg tb sr blk rate ∧ s.mode ≠ .faulted ∧ bufferLength num sr = some n ∧
      t = configure sr blk rate n s) ∨
    (∃ o, i ∈ tickForms o ∧ s.mode = .ready) := by
  have is {u : State} (e : exec i s = .next u) : t = u := Host.Outcome.next.inj (he.symm.trans e)
  rcases exec_cases i s with ⟨e, -⟩ | ⟨tb, sr, blk, rate, n, hi, hm, hn, e⟩ | ⟨_, _, _, _, -, -, -, e⟩ | ⟨_, -, -, e⟩ |
    ⟨_, -, -, e⟩ | ⟨_, -, -, e⟩ | ⟨_, -, -, e⟩ | ⟨o, hi, hm, -⟩ | ⟨o, _, hi, -, -, hm, -⟩
  · obtain rfl := is e; exact .inl ⟨_, _, _, rfl⟩
  · exact .inr (.inl ⟨tb, sr, blk, rate, n, hi, hm, hn, is e⟩)
  · obtain rfl := is e; exact .inl ⟨_, _, _, rfl⟩
  · obtain rfl := is e; exact .inl (raise_nextButOutputs _ s)
  · obtain rfl := is e; exact .inl ⟨_, _, _, rfl⟩
  · obtain rfl := is e; exact .inl (raise_nextButOutputs _ s)
  · obtain rfl := is e; exact .inl (raise_nextButOutputs _ s)
  · exact .inr (.inr ⟨o, hi, hm⟩)
  · exact .inr (.inr ⟨o, hi, hm⟩)

/-- A tick that is not `TICK.DELAY` is a modulated one. -/
theorem modulated_of_ne {o : TickOperands} {i : Instr} (hi : i ∈ tickForms o) (hne : i ≠ .tickDelay o) :
    i = .tickChorus o ∨ i = .tickFlanger o := by
  simpa [tickForms, hne] using hi

/-- Settles O36: what changes `STATUS` and the ports only changes no register of the statement, a valid `CFG` keeps `PH` and
`FB`, and an admitted tick keeps the configuration and the register of the other state. -/
theorem registerWriters : Obligations.RegisterWriters := by
  intro s t i he
  rcases exec_next he with ⟨_, _, _, e⟩ | ⟨tb, sr, blk, rate, n, rfl, hm, hn, rfl⟩ | ⟨o, hi, hm⟩
  · rw [Host.Outcome.next.inj e]
    simp
  · simp [hn, hm]
  · obtain ⟨-, _, _, _, _, _, _, _, _, rfl, -, hreg⟩ := tick_next hi hm he
    refine ⟨fun h => ?_, fun h => ?_, fun _ => ⟨o, hi⟩, fun _ => .inl ⟨o, hi⟩, fun _ => .inl ⟨o, hi⟩,
      by simp, rfl, rfl, rfl⟩
    · rcases hreg with ⟨-, hph⟩ | ⟨hne, -⟩
      · exact absurd hph h
      · exact ⟨o, modulated_of_ne hi hne⟩
    · rcases hreg with ⟨hd, -⟩ | ⟨-, hsm⟩
      · exact .inl ⟨o, hd⟩
      · exact absurd hsm h

/-- `TICK.DELAY` looks at neither `P.depth` nor `P.phaseOffset`, in any of its steps (R84, R144). -/
theorem exec_tickDelay_unused (o : TickOperands) (s : State) (x y : Word) :
    exec (.tickDelay { o with depth := x, phaseOffset := y }) s = exec (.tickDelay o) s := rfl

/-- A modulated tick is no writer of `SM` (R23). -/
theorem modulated_sm {o : TickOperands} {i : Instr} {s t : State} (hi : i = .tickChorus o ∨ i = .tickFlanger o)
    (he : exec i s = .next t) : t.sm = s.sm := by
  obtain ⟨-, hsm, -⟩ := registerWriters s t i he
  by_contra hne
  rcases hi with rfl | rfl <;> obtain ⟨_, h⟩ | ⟨_, _, _, _, h⟩ := hsm hne <;> cases h

/-- `TICK.DELAY` is no writer of `PH` (R22). -/
theorem tickDelay_ph {o : TickOperands} {s t : State} (he : exec (.tickDelay o) s = .next t) : t.ph = s.ph := by
  obtain ⟨hph, -⟩ := registerWriters s t _ he
  by_contra hne
  obtain ⟨_, h | h⟩ := hph hne <;> cases h

/-- Settles O26: the registers that each form keeps are those of which it is no writer. -/
theorem unusedOperandsAndRegisters : Obligations.UnusedOperandsAndRegisters := fun o s _ x y =>
  ⟨exec_tickDelay_unused o s x y, tickDelay_ph, modulated_sm (.inl rfl), modulated_sm (.inr rfl)⟩

/-! ### Values that nothing reads -/

/-- A raise reads none of the unspecified values (R216). -/
theorem raise_eraseUnconfigured (c : Cause) (s : State) :
    (raise c s).eraseUnconfigured = (raise c s.eraseUnconfigured).eraseUnconfigured := by
  by_cases h : statusFlt s.status = 0
  · rw [raise_of_ready h, raise_of_ready (s := s.eraseUnconfigured) h]; rfl
  · rw [raise_of_faulted h, raise_of_faulted (s := s.eraseUnconfigured) h]; rfl

/-- A valid `CFG` writes every one of the unspecified values (R192). -/
theorem configure_eraseUnconfigured (sr blk rate : Word) (n : Nat) (s : State) :
    configure sr blk rate n s.eraseUnconfigured = configure sr blk rate n s := by
  simp only [configure, State.eraseUnconfigured]

/-- A word of format `T` that is not admitted reads none of the unspecified values (R104). -/
theorem exec_formatT_eraseUnconfigured {o : TickOperands} {i : Instr} (hi : i ∈ formatT o) {s : State}
    (hc : statusCfg s.status = false) :
    onNext State.eraseUnconfigured (exec i s) = onNext State.eraseUnconfigured (exec i s.eraseUnconfigured) := by
  rcases mode_cases s with hm | hm | hm
  · rw [exec_formatT_unconfigured hi hm, exec_formatT_unconfigured (s := s.eraseUnconfigured) hi hm]
    exact congrArg Host.Outcome.next (raise_eraseUnconfigured _ s)
  · rw [((mode_eq_ready s).1 hm).2] at hc
    cases hc
  · rw [exec_formatT_faulted hi hm, exec_formatT_faulted (s := s.eraseUnconfigured) hi hm]
    rfl

/-- While `STATUS.CFG = 0` no instruction reads the unspecified values (R41). -/
theorem exec_eraseUnconfigured (i : Instr) {s : State} (hc : statusCfg s.status = false) :
    onNext State.eraseUnconfigured (exec i s) = onNext State.eraseUnconfigured (exec i s.eraseUnconfigured) := by
  cases i with
  | nop tb => rfl
  | cfg tb sr blk rate =>
    simp only [exec]
    by_cases hm : s.mode = .faulted
    · rw [execCfg_faulted hm, execCfg_faulted (s := s.eraseUnconfigured) hm]; rfl
    · cases hn : bufferLength num sr with
      | none => rw [execCfg_none hm hn, execCfg_none (s := s.eraseUnconfigured) hm hn]; rfl
      | some n =>
        rw [execCfg_some hm hn, execCfg_some (s := s.eraseUnconfigured) hm hn, configure_eraseUnconfigured]
  | reservedCmdOp3 tb =>
    simp only [exec]
    by_cases hm : s.mode = .faulted
    · rw [execReservedCmdOp3_faulted hm, execReservedCmdOp3_faulted (s := s.eraseUnconfigured) hm]; rfl
    · rw [execReservedCmdOp3_of_ne hm, execReservedCmdOp3_of_ne (s := s.eraseUnconfigured) hm]
      exact congrArg Host.Outcome.next (raise_eraseUnconfigured _ s)
  | tickDelay o => exact exec_formatT_eraseUnconfigured (o := o) (by simp [formatT]) hc
  | tickChorus o => exact exec_formatT_eraseUnconfigured (o := o) (by simp [formatT]) hc
  | tickFlanger o => exact exec_formatT_eraseUnconfigured (o := o) (by simp [formatT]) hc
  | reservedTickType3 o => exact exec_formatT_eraseUnconfigured (o := o) (by simp [formatT]) hc

/-- Settles O12: both states do what their common erasure does, and a valid `CFG` writes all that the erasure leaves out. -/
theorem unspecifiedValuesAreUnreadable : Obligations.UnspecifiedValuesAreUnreadable := by
  intro s s' i hc he
  have hst : s'.status = s.status := (congrArg State.status he).symm
  constructor
  · rw [exec_eraseUnconfigured i hc, he, ← exec_eraseUnconfigured i (hst ▸ hc)]
  · rintro tb sr blk rate n rfl hn hm
    have hm' : s'.mode ≠ .faulted := by rwa [State.mode, hst]
    simp only [exec]
    rw [execCfg_some hm hn, execCfg_some hm' hn, ← configure_eraseUnconfigured, he, configure_eraseUnconfigured]

/-- A state with another block size. -/
def State.withBlk (b : Word) (s : State) : State := { s with blk := b }

theorem raise_withBlk (c : Cause) (s : State) (b : Word) : raise c (s.withBlk b) = (raise c s).withBlk b := by
  by_cases h : statusFlt s.status = 0
  · rw [raise_of_ready h, raise_of_ready (s := s.withBlk b) h]; rfl
  · rw [raise_of_faulted h, raise_of_faulted (s := s.withBlk b) h]; rfl

theorem readInterp_withBlk (s : State) (c : Channel) (d b : Word) : readInterp (s.withBlk b) c d = readInterp s c d := rfl

/-- A tick's times do not depend on the block size. -/
theorem IsTimes.withBlk {times : TickOperands → State → Timed} (h : IsTimes times) (o : TickOperands) (s : State)
    (b : Word) : times o (s.withBlk b) = { times o s with s := (times o s).s.withBlk b } := by
  cases h <;> simp only [delayTimes, modulatedTimes, State.withBlk]

theorem readAndFinish_withBlk (o : TickOperands) (t : Timed) (b : Word) :
    readAndFinish o { t with s := t.s.withBlk b } = onNext (State.withBlk b) (readAndFinish o t) := by
  simp only [readAndFinish, readInterp_withBlk]
  cases readInterp t.s .left t.dL with
  | raised c => exact congrArg Host.Outcome.next (raise_withBlk c t.s b)
  | stuck f => rfl
  | wet l =>
    cases readInterp t.s .right t.dR with
    | raised c => exact congrArg Host.Outcome.next (raise_withBlk c t.s b)
    | stuck f => rfl
    | wet r => simp only [ReadResult.andThen_wet, onNext, mixAndEmit, State.withBlk]

/-- The steps of a tick carry the block size along. -/
theorem tickSteps_withBlk {times : TickOperands → State → Timed} (h : IsTimes times) (o : TickOperands) (s : State)
    (b : Word) : tickSteps times o (s.withBlk b) = onNext (State.withBlk b) (tickSteps times o s) := by
  rcases Nat.lt_or_ge s.w.toNat s.len.toNat with hw | hw
  · rw [tickSteps_of_lt times o hw, tickSteps_of_lt times o (s := s.withBlk b) hw, ← readAndFinish_withBlk, ← h.withBlk]
    rfl
  · rw [tickSteps_of_ge times o hw, tickSteps_of_ge times o (s := s.withBlk b) hw]
    rfl

theorem admitTick_withBlk {body : State → Host.Outcome State Fault Refusal} {s : State} {b : Word}
    (h : body (s.withBlk b) = onNext (State.withBlk b) (body s)) :
    admitTick body (s.withBlk b) = onNext (State.withBlk b) (admitTick body s) := by
  rcases mode_cases s with hm | hm | hm
  · rw [admitTick_unconfigured hm, admitTick_unconfigured (s := s.withBlk b) hm]
    exact congrArg Host.Outcome.next (raise_withBlk _ s b)
  · rw [admitTick_ready hm, admitTick_ready (s := s.withBlk b) hm, h]
  · rw [admitTick_faulted hm, admitTick_faulted (s := s.withBlk b) hm]
    rfl

theorem exec_tickForms_withBlk {o : TickOperands} {i : Instr} (hi : i ∈ tickForms o) (s : State) (b : Word) :
    exec i (s.withBlk b) = onNext (State.withBlk b) (exec i s) := by
  obtain ⟨times, ht, -, he⟩ := exec_tickForms o hi
  rw [he, he, admitTick_withBlk (tickSteps_withBlk ht o s b)]

/-- An instruction reads no block size: it carries it along, unless it is a valid `CFG`, which writes it (R29, R195). -/
theorem exec_withBlk (i : Instr) (s : State) (b : Word) :
    exec i (s.withBlk b) = onNext (State.withBlk b) (exec i s) ∨ exec i (s.withBlk b) = exec i s := by
  cases i with
  | nop tb => exact .inl rfl
  | cfg tb sr blk rate =>
    simp only [exec]
    by_cases hm : s.mode = .faulted
    · rw [execCfg_faulted hm, execCfg_faulted (s := s.withBlk b) hm]
      exact .inl rfl
    · cases hn : bufferLength num sr with
      | none =>
        rw [execCfg_none hm hn, execCfg_none (s := s.withBlk b) hm hn]
        exact .inl rfl
      | some n =>
        rw [execCfg_some hm hn, execCfg_some (s := s.withBlk b) hm hn]
        exact .inr (by simp only [configure, State.withBlk])
  | reservedCmdOp3 tb =>
    simp only [exec]
    by_cases hm : s.mode = .faulted
    · rw [execReservedCmdOp3_faulted hm, execReservedCmdOp3_faulted (s := s.withBlk b) hm]
      exact .inl rfl
    · rw [execReservedCmdOp3_of_ne hm, execReservedCmdOp3_of_ne (s := s.withBlk b) hm, raise_withBlk]
      exact .inl rfl
  | reservedTickType3 o =>
    refine .inl (admitTick_withBlk (body := fun t => .next (raise .illegalCommand t)) ?_)
    exact congrArg Host.Outcome.next (raise_withBlk .illegalCommand s b)
  | tickDelay o => exact .inl (exec_tickForms_withBlk (o := o) (by simp [tickForms]) s b)
  | tickChorus o => exact .inl (exec_tickForms_withBlk (o := o) (by simp [tickForms]) s b)
  | tickFlanger o => exact .inl (exec_tickForms_withBlk (o := o) (by simp [tickForms]) s b)

/-- Settles O38: the outcome carries the other block size along or has forgotten it, and both vanish with `BLK`. -/
theorem blockSizeIsNeverRead : Obligations.BlockSizeIsNeverRead := by
  intro i s b
  change onNext _ (exec i (s.withBlk b)) = _
  rcases exec_withBlk i s b with e | e <;> rw [e]
  cases exec i s <;> rfl

/-! ### The smoother -/

/-- Rounding does not leave the interval between two patterns that are not subnormal. -/
theorem RoundsTo.mem_uIcc {v : ℚ} {r x y : Word} (h : RoundsTo v r) (hx : f32IsFinite x = true) (nx : NotSubnormal x)
    (hy : f32IsFinite y = true) (ny : NotSubnormal y) (hv : v ∈ Set.uIcc (f32Rat x) (f32Rat y)) :
    f32Rat r ∈ Set.uIcc (f32Rat x) (f32Rat y) := by
  rcases Set.mem_uIcc.1 hv with ⟨h1, h2⟩ | ⟨h1, h2⟩
  · exact Set.mem_uIcc_of_le (h.ge hx nx h1) (h.le hy ny h2)
  · exact Set.mem_uIcc_of_ge (h.ge hy ny h1) (h.le hx nx h2)

/-- Rounding does not leave the interval between 0 and a pattern that is not subnormal. -/
theorem RoundsTo.mem_uIcc_zero {v : ℚ} {r z : Word} (h : RoundsTo v r) (hz : f32IsFinite z = true) (nz : NotSubnormal z)
    (hv : v ∈ Set.uIcc 0 (f32Rat z)) : f32Rat r ∈ Set.uIcc 0 (f32Rat z) := by
  rw [← f32Rat_zero] at hv ⊢
  exact h.mem_uIcc (by decide) notSubnormal_zero hz nz hv

/-- Flushing keeps a value or makes it 0 (R186). -/
theorem f32Rat_flush_mem_uIcc (x : Word) : f32Rat (flushSubnormal x) ∈ Set.uIcc 0 (f32Rat x) := by
  rcases flushSubnormal_cases x with e | ⟨-, e⟩ <;> rw [e]
  · exact Set.right_mem_uIcc
  · rw [f32Rat_pack_zero]; exact Set.left_mem_uIcc

/-- A value that a pattern bounds in magnitude rounds to a finite one. -/
theorem RoundsTo.finite_of_mem_uIcc {v : ℚ} {r z : Word} (h : RoundsTo v r) (hz : f32IsFinite z = true)
    (hv : v ∈ Set.uIcc 0 (f32Rat z)) : f32IsFinite r = true :=
  h.finite hz (by simpa using Set.abs_sub_left_of_mem_uIcc hv)

/-- The powers of two of the normal range up to `2^74` are patterns. -/
theorem exists_f32Rat_pow {e : ℕ} (he : e ≤ 200) :
    ∃ z : Word, f32IsFinite z = true ∧ NotSubnormal z ∧ f32Rat z = 2 ^ e / 2 ^ 126 := by
  obtain ⟨z, hz, hv⟩ := exists_f32Rat_eq (m := 1) (sh := e + 23) (by norm_num)
    (Nat.mul_lt_mul_of_le_of_lt (by norm_num) (Nat.pow_lt_pow_right (by norm_num) (by omega)) (by norm_num))
  have hval : f32Rat z = 2 ^ e / 2 ^ 126 := by
    rw [hv]; push_cast; rw [one_mul, pow_add, div_eq_div_iff (by positivity) (by positivity)]; ring
  refine ⟨z, hz, notSubnormal_of_ge ?_, hval⟩
  rw [hval, abs_of_pos (by positivity)]
  exact div_le_div_of_nonneg_right (one_le_pow₀ (by norm_num)) (by positivity)

/-- Two patterns, one twice the other, of which the first is not above `x` in magnitude and the second not below. -/
theorem exists_patterns_around {x : ℚ} (h0 : x = 0 ∨ 1 / 2 ^ 126 ≤ |x|) (h2 : |x| ≤ 2) :
    ∃ y z : Word, (f32IsFinite y = true ∧ NotSubnormal y) ∧ (f32IsFinite z = true ∧ NotSubnormal z) ∧
      f32Rat z = 2 * f32Rat y ∧ f32Rat y ∈ Set.uIcc 0 x ∧ x ∈ Set.uIcc 0 (f32Rat z) := by
  rcases h0 with rfl | h0
  · exact ⟨0, 0, ⟨by decide, notSubnormal_zero⟩, ⟨by decide, notSubnormal_zero⟩, by rw [f32Rat_zero]; simp⟩
  obtain ⟨e, hlo, hhi⟩ := exists_nat_pow_near (x := |x| * 2 ^ 126) (y := (2 : ℚ))
    (by rwa [← div_le_iff₀ (by positivity)]) (by norm_num)
  have he : e < 128 := by
    by_contra hc
    have h3 : (2 : ℚ) ^ 128 ≤ 2 ^ e := pow_le_pow_right₀ (by norm_num) (by omega)
    linarith
  obtain ⟨y, hy, ny, vy⟩ := exists_f32Rat_pow (e := e) (by omega)
  obtain ⟨z, hz, nz, vz⟩ := exists_f32Rat_pow (e := e + 1) (by omega)
  have hyx : f32Rat y ≤ |x| := by rwa [vy, div_le_iff₀ (by positivity)]
  have hxz : |x| ≤ f32Rat z := by rw [vz, le_div_iff₀ (by positivity)]; exact hhi.le
  have hy0 : 0 ≤ f32Rat y := by rw [vy]; positivity
  have htwo : f32Rat z = 2 * f32Rat y := by rw [vy, vz, pow_succ]; ring
  rcases le_total 0 x with hx | hx
  · rw [abs_of_nonneg hx] at hyx hxz
    exact ⟨y, z, ⟨hy, ny⟩, ⟨hz, nz⟩, htwo, Set.mem_uIcc_of_le hy0 hyx, Set.mem_uIcc_of_le hx hxz⟩
  · rw [abs_of_nonpos hx] at hyx hxz
    refine ⟨f32Neg y, f32Neg z, ⟨(f32IsFinite_neg y).trans hy, notSubnormal_neg ny⟩,
      ⟨(f32IsFinite_neg z).trans hz, notSubnormal_neg nz⟩, ?_⟩
    rw [f32Rat_neg, f32Rat_neg]
    exact ⟨by linarith, Set.mem_uIcc_of_ge (by linarith) (by linarith), Set.mem_uIcc_of_ge (by linarith) hx⟩

/-- A delay time in the range of the statement, in seconds (R42 (d)). -/
def InTimeRange (x : Word) : Prop := f32IsFinite x = true ∧ f32Rat 0x3C23D70A ≤ f32Rat x ∧ f32Rat x ≤ 2

/-- The least delay time, about 0.01. -/
theorem f32Rat_minTime : f32Rat 0x3C23D70A = 10737418 / 2 ^ 30 := by
  rw [f32Rat, show f32Int 0x3C23D70A = 10737418 * 2 ^ 119 by decide +kernel]; norm_num

theorem InTimeRange.pos {x : Word} (h : InTimeRange x) : 0 < f32Rat x :=
  lt_of_lt_of_le (by rw [f32Rat_minTime]; norm_num) h.2.1

theorem InTimeRange.notSubnormal {x : Word} (h : InTimeRange x) : NotSubnormal x := by
  refine notSubnormal_of_ge (le_trans ?_ (h.2.1.trans (le_abs_self _)))
  rw [f32Rat_minTime]; norm_num

/-- A delay time is a whole number of units `2^-30`, the last place of the least one. -/
theorem InTimeRange.exists_units {x : Word} (h : InTimeRange x) : ∃ m : ℤ, f32Rat x = m / 2 ^ 30 := by
  obtain ⟨sh, m, -, -, hm, hmag⟩ := magOfBits_cases (f32Bits x)
  have hval : f32Rat x = ((m * 2 ^ sh : ℕ) : ℚ) / 2 ^ 149 := by
    rw [← abs_of_pos h.pos, abs_f32Rat, f32Mag, hmag]
  have hsh : 119 ≤ sh := by
    by_contra hc
    have h1 := h.2.1
    rw [hval, f32Rat_minTime, div_le_div_iff₀ (by positivity) (by positivity)] at h1
    have h2 : m * 2 ^ sh < 2 ^ 24 * 2 ^ 118 :=
      Nat.mul_lt_mul_of_lt_of_le hm (Nat.pow_le_pow_right (by norm_num) (by omega)) (by positivity)
    have h3 : ((m * 2 ^ sh : ℕ) : ℚ) < 2 ^ 24 * 2 ^ 118 := by exact_mod_cast h2
    linarith
  obtain ⟨k, rfl⟩ := Nat.exists_eq_add_of_le hsh
  refine ⟨(m * 2 ^ k : ℕ), ?_⟩
  rw [hval, div_eq_div_iff (by positivity) (by positivity)]
  push_cast
  ring

/-- Two delay times are equal or differ by a normal number. -/
theorem InTimeRange.sub_normal {x y : Word} (hx : InTimeRange x) (hy : InTimeRange y) :
    f32Rat x - f32Rat y = 0 ∨ 1 / 2 ^ 126 ≤ |f32Rat x - f32Rat y| := by
  obtain ⟨a, ha⟩ := hx.exists_units
  obtain ⟨b, hb⟩ := hy.exists_units
  have hval : f32Rat x - f32Rat y = ((a - b : ℤ) : ℚ) / 2 ^ 30 := by rw [ha, hb]; push_cast; ring
  rw [hval]
  rcases eq_or_ne (a - b) 0 with h | h
  · exact .inl (by rw [h]; simp)
  · right
    have h1 : (1 : ℚ) ≤ |((a - b : ℤ) : ℚ)| := by exact_mod_cast Int.one_le_abs h
    rw [abs_div, abs_of_pos (show (0 : ℚ) < 2 ^ 30 by positivity), le_div_iff₀ (by positivity)]
    exact le_trans (by norm_num) h1

/-- `K_SMOOTH`, about 0.0001. -/
theorem f32Rat_kSmooth : f32Rat 0x38D1B717 = 13743895 / 2 ^ 37 := by
  rw [f32Rat, show f32Int 0x38D1B717 = 13743895 * 2 ^ 112 by decide +kernel]; norm_num

theorem notSubnormal_kSmooth : NotSubnormal 0x38D1B717 :=
  notSubnormal_of_ge (by rw [f32Rat_kSmooth]; norm_num)

/-- The correction of an update, `K_SMOOTH × (SM − target)` in binary32, lies between 0 and `SM − target` in value: the
factor is far below a half, so no rounding to the powers of two around the difference reaches it (R141). -/
theorem smoothCorrection_mem {sm target : Word} (hs : InTimeRange sm) (ht : InTimeRange target) :
    f32IsFinite (f32Mul 0x38D1B717 (f32Sub sm target)) = true ∧
    f32Rat (flushSubnormal (f32Mul 0x38D1B717 (f32Sub sm target))) ∈ Set.uIcc 0 (f32Rat sm - f32Rat target) := by
  have hd := f32Sub_rounds hs.1 ht.1
  rw [flushSubnormal_of_not_subnormal sm hs.notSubnormal, flushSubnormal_of_not_subnormal target ht.notSubnormal] at hd
  obtain ⟨y, z, ⟨hy, ny⟩, ⟨hz, nz⟩, htwo, hyδ, hδz⟩ := exists_patterns_around (hs.sub_normal ht)
    (abs_sub_le_iff.2 ⟨by linarith [hs.2.2, ht.pos], by linarith [ht.2.2, hs.pos]⟩)
  have hdz : f32Rat (f32Sub sm target) ∈ Set.uIcc 0 (f32Rat z) := hd.mem_uIcc_zero hz nz hδz
  have hp := f32Mul_rounds (a := 0x38D1B717) (by decide) (hd.finite_of_mem_uIcc hz hδz)
  have hkd : f32Rat 0x38D1B717 * f32Rat (flushSubnormal (f32Sub sm target)) ∈ Set.uIcc 0 (f32Rat y) := by
    have hfl := Set.uIcc_subset_uIcc_left hdz (f32Rat_flush_mem_uIcc (f32Sub sm target))
    rw [htwo] at hfl
    rw [f32Rat_kSmooth]
    rcases Set.mem_uIcc.1 hfl with ⟨h1, h2⟩ | ⟨h1, h2⟩
    · exact Set.mem_uIcc_of_le (by linarith) (by linarith)
    · exact Set.mem_uIcc_of_ge (by linarith) (by linarith)
  rw [flushSubnormal_of_not_subnormal _ notSubnormal_kSmooth] at hp
  have hpy : f32Rat (f32Mul 0x38D1B717 (f32Sub sm target)) ∈ Set.uIcc 0 (f32Rat y) :=
    hp.mem_uIcc_zero hy ny hkd
  exact ⟨hp.finite_of_mem_uIcc hy hkd,
    Set.uIcc_subset_uIcc_left hyδ (Set.uIcc_subset_uIcc_left hpy (f32Rat_flush_mem_uIcc _))⟩

/-- An update of the smoother is finite and lies between the value and the target (R141, R143). -/
theorem smooth_mem_uIcc {sm target : Word} (hs : InTimeRange sm) (ht : InTimeRange target) :
    f32IsFinite (smooth num sm target) = true ∧
    f32Rat (smooth num sm target) ∈ Set.uIcc (f32Rat sm) (f32Rat target) := by
  obtain ⟨hfin, hmem⟩ := smoothCorrection_mem hs ht
  have hr := f32Sub_rounds hs.1 hfin
  rw [flushSubnormal_of_not_subnormal sm hs.notSubnormal] at hr
  have hv : f32Rat sm - f32Rat (flushSubnormal (f32Mul 0x38D1B717 (f32Sub sm target))) ∈
      Set.uIcc (f32Rat sm) (f32Rat target) := by
    rcases Set.mem_uIcc.1 hmem with ⟨h1, h2⟩ | ⟨h1, h2⟩
    · exact Set.mem_uIcc_of_ge (by linarith) (by linarith)
    · exact Set.mem_uIcc_of_le (by linarith) (by linarith)
  refine ⟨?_, hr.mem_uIcc hs.1 hs.notSubnormal ht.1 ht.notSubnormal hv⟩
  have h02 : Set.uIcc (f32Rat sm) (f32Rat target) ⊆ Set.uIcc 0 (f32Rat 0x40000000) := by
    rw [f32Rat_two]
    exact Set.uIcc_subset_uIcc (Set.mem_uIcc_of_le hs.pos.le hs.2.2) (Set.mem_uIcc_of_le ht.pos.le ht.2.2)
  exact hr.finite_of_mem_uIcc (z := 0x40000000) (by decide) (h02 hv)

/-- Settles O50: the correction is between 0 and the difference, and rounding does not leave the interval between the value
and the target. -/
theorem smootherStaysBetweenValueAndTarget : Obligations.SmootherStaysBetweenValueAndTarget := by
  intro sm target hsf htf hs0 hs2 ht0 ht2
  obtain ⟨hfin, hmem⟩ := smooth_mem_uIcc (sm := sm) (target := target) ⟨hsf, hs0, hs2⟩ ⟨htf, ht0, ht2⟩
  refine ⟨hfin, fun h => ?_, fun h => ?_⟩
  · rwa [Set.uIcc_of_le h] at hmem
  · rwa [Set.uIcc_of_ge h] at hmem

end Sys2Proof.Machine
end

section
/-! SUPPORT. Proofs of the memory family: the serialised bytes of a command read back, a tick with `W` outside the buffer
stops, and which slots a read has. -/

namespace Sys2Proof.Machine

/-! ### Decoding bytes -/

theorem length_encode (i : Instr) : (encode i).length = i.frameLength := by cases i <;> rfl

theorem length_encodeBytes (i : Instr) : (encodeBytes i).length = 4 * i.frameLength := by
  rw [encodeBytes, length_bytesOfWords, length_encode]

/-- Settles O3: the words at the front of the bytes are those of the encoding, and the frame's bytes are as many as the
decoder drops. -/
theorem decodeReadsEncodedBytes : Obligations.DecodeReadsEncodedBytes := by
  intro i rest
  have hwords : decodeWords (wordsOfBytes (encodeBytes i ++ rest)) = .ok (i, wordsOfBytes rest) := by
    rw [encodeBytes, wordsOfBytes_append, decodeWords_encode_append]
  have hrest : (encodeBytes i ++ rest).drop (4 * i.frameLength) = rest := List.drop_left' (length_encodeBytes i)
  simp only [decode, hwords, hrest]

/-! ### The stop of R62 -/

/-- Settles O24: an admitted tick begins with the store at `W`, left before right. -/
theorem storeOutsideTheBufferStops : Obligations.StoreOutsideTheBufferStops := by
  intro o i s hi hm hw
  obtain ⟨times, -, -, hexec⟩ := exec_tickForms o hi
  rw [hexec, admitTick_ready hm, tickSteps_of_ge times o hw]

/-! ### Positions without slots -/

theorem flushSubnormal_of_inf {x : Word} (h : f32IsInf x = true) : flushSubnormal x = x := by
  have hb : f32Bits x = infBits := by simpa [f32IsInf] using h
  exact flushSubnormal_of_not_subnormal x (by rw [f32IsSubnormal, hb]; decide)

theorem f32IsNaN_of_inf {x : Word} (h : f32IsInf x = true) : f32IsNaN x = false := by
  have hb : f32Bits x = infBits := by simpa [f32IsInf] using h
  rw [f32IsNaN, hb]; decide

theorem f32IsInf_neg (x : Word) : f32IsInf (f32Neg x) = f32IsInf x := by rw [f32IsInf, f32IsInf, f32Bits_neg]

/-- A pattern that is not finite is a NaN or an infinity (R11). -/
theorem nan_or_inf_of_not_finite {x : Word} (h : f32IsFinite x = false) : f32IsNaN x = true ∨ f32IsInf x = true := by
  have hn := mt (f32IsFinite_iff x).2 (by rw [h]; exact Bool.false_ne_true)
  cases hx : f32IsNaN x
  · exact .inr (by simpa [hx] using hn)
  · exact .inl rfl

/-- A finite value minus an infinity is an infinity (IEEE 754, log 4). -/
theorem f32IsInf_sub {a b : Word} (ha : f32IsFinite a = true) (hb : f32IsInf b = true) :
    f32IsInf (f32Sub a b) = true := by
  obtain ⟨hn, hi⟩ := (f32IsFinite_iff _).1 (f32IsFinite_flush ha)
  have hb' : f32IsInf (f32Neg b) = true := by rw [f32IsInf_neg, hb]
  rw [f32Sub, flushSubnormal_of_inf hb, f32Sum, if_neg (by simp [hn, hi, f32IsNaN_of_inf hb']), if_neg (by simp [hi]),
    if_pos hb', hb']

/-- An infinity plus a finite value is that infinity (IEEE 754, log 4). -/
theorem f32Add_of_inf {a b : Word} (ha : f32IsInf a = true) (hb : f32IsFinite b = true) : f32Add a b = a := by
  obtain ⟨hn, hi⟩ := (f32IsFinite_iff _).1 (f32IsFinite_flush hb)
  rw [f32Add, flushSubnormal_of_inf ha, f32Sum, if_neg (by simp [hn, hi, f32IsNaN_of_inf ha]), if_pos ha]

/-- An infinite delay time has no slots: the read position is an infinity, and the wrap keeps it (R127). -/
theorem readSlots_inf {len w : Nat} (hw : w ≤ 2 ^ 24) (hlen : len ≤ 2 ^ 24) {d : Word} (hd : f32IsInf d = true) :
    readSlots num len w d = none := by
  have hp : f32IsInf (rawPosition num w d) = true := by
    rw [rawPosition, num_fsub, num_itof, f32IsInf_sub (f32OfNat_exact hw).1 hd]
  have hwrap : wrapPosition num len (rawPosition num w d) = rawPosition num w d := by
    rw [wrapPosition]
    split
    · rw [num_fadd, num_itof, f32Add_of_inf hp (f32OfNat_exact hlen).1]
    · rfl
  rw [readSlots, hwrap, slotsOf, if_pos (by simp [hp])]

/-! ### The slots of a position -/

/-- The advanced head is the next index, taken around once by a subtraction (R103, R127). -/
theorem nextHead_eq_wrap {len i : Nat} (h : i < len) :
    nextHead len i = if len ≤ i + 1 then i + 1 - len else i + 1 := by
  rw [nextHead]
  split
  · next hge => rw [show i + 1 = len by omega, Nat.mod_self, Nat.sub_self]
  · next hlt => exact Nat.mod_eq_of_lt (by omega)

/-- Settles O45: the second slot is the first one advanced, and a NaN or an infinite time gives a position without slots. -/
theorem slotsAreAdjacentWords : Obligations.SlotsAreAdjacentWords := by
  refine ⟨fun len w d sl h => ?_, fun len w d hw hlen hd => ?_⟩
  · obtain ⟨-, -, -, h0, h1, -⟩ := slotsOf_some h
    exact ⟨h0, h1.trans (nextHead_eq_wrap h0).symm⟩
  · rcases nan_or_inf_of_not_finite hd with hn | hi
    · exact readSlots_nan len w hn
    · exact readSlots_inf hw hlen hi

/-! ### Whole positions -/

/-- A pattern is its sign and its value (R11). -/
theorem f32_ext_rat {x y : Word} (hs : f32Sign x = f32Sign y) (hv : f32Rat x = f32Rat y) : x = y := by
  have habs : |f32Rat x| = |f32Rat y| := by rw [hv]
  rw [abs_f32Rat, abs_f32Rat, div_left_inj' (by positivity), Nat.cast_inj, f32Mag, f32Mag] at habs
  exact f32_ext hs (le_antisymm (magOfBits_le_iff.1 habs.le) (magOfBits_le_iff.1 habs.ge))

theorem f32Sign_ofNat (n : ℕ) : f32Sign (f32OfNat n) = false := f32Sign_round _ _ _

theorem f32OfNat_zero : f32OfNat 0 = 0 :=
  f32_ext_rat (f32Sign_ofNat 0) (by rw [(f32OfNat_exact (Nat.zero_le _)).2, f32Rat_zero, Nat.cast_zero])

theorem f32OfNat_one : f32OfNat 1 = 0x3F800000 :=
  f32_ext_rat (f32Sign_ofNat 1) (by rw [(f32OfNat_exact (by norm_num)).2, f32Rat_one, Nat.cast_one])

theorem flushSubnormal_ofNat {n : ℕ} (hn : n ≤ 2 ^ 24) : flushSubnormal (f32OfNat n) = f32OfNat n :=
  flushSubnormal_of_not_subnormal _ (notSubnormal_of_natCast (f32OfNat_exact hn).2)

theorem f32Floor_ofNat {n : ℕ} (hn : n ≤ 2 ^ 24) : f32Floor (f32OfNat n) = n := by
  rw [f32Floor_eq (notSubnormal_of_natCast (f32OfNat_exact hn).2), (f32OfNat_exact hn).2, Int.floor_natCast]

/-- A sum whose value is a natural number is that number's pattern, and a zero sum is `+0` unless both operands have a
negative sign (R13). -/
theorem f32Sum_eq_ofNat (op : NanSource) (a b : Word) {x y : Word} {n : ℕ} (hx : f32IsFinite x = true)
    (hy : f32IsFinite y = true) (hs : (f32Sign x && f32Sign y) = false) (h : f32Rat x + f32Rat y = n) :
    f32Sum op a b x y = f32OfNat n := by
  obtain ⟨hx1, hx2⟩ := (f32IsFinite_iff x).1 hx
  obtain ⟨hy1, hy2⟩ := (f32IsFinite_iff y).1 hy
  have hsum : f32Int x + f32Int y = ((n * 2 ^ 149 : ℕ) : ℤ) := by
    rw [f32Rat, f32Rat, ← add_div, div_eq_iff (by positivity)] at h
    exact_mod_cast h
  rw [f32Sum, if_neg (by simp [hx1, hx2, hy1]), if_neg (by simp [hx2]), if_neg (by simp [hy2]), hsum, Int.natAbs_natCast,
    decide_eq_false (by omega), hs, f32OfNat]
  split
  · next h0 => rw [Int.natCast_eq_zero.1 h0, f32Round_zero false one_pos]
  · rfl

/-- The difference of two whole numbers of at most 24 bits is their difference (R129). -/
theorem f32Sub_ofNat {m n : ℕ} (h : n ≤ m) (hm : m ≤ 2 ^ 24) :
    f32Sub (f32OfNat m) (f32OfNat n) = f32OfNat (m - n) := by
  obtain ⟨fm, vm⟩ := f32OfNat_exact hm
  obtain ⟨fn, vn⟩ := f32OfNat_exact (h.trans hm)
  rw [f32Sub, flushSubnormal_ofNat hm, flushSubnormal_ofNat (h.trans hm)]
  exact f32Sum_eq_ofNat _ _ _ fm (by rw [f32IsFinite_neg, fn]) (by rw [f32Sign_ofNat, Bool.false_and])
    (by rw [f32Rat_neg, vm, vn, Nat.cast_sub h, sub_eq_add_neg])

/-- The wrap keeps a position that is a natural number (R126). -/
theorem wrapPosition_ofNat (len : ℕ) {n : ℕ} (hn : n ≤ 2 ^ 24) :
    wrapPosition num len (f32OfNat n) = f32OfNat n := by
  rw [wrapPosition, if_neg]
  rw [num_lt, num_zero, f32Lt_iff (f32OfNat_exact hn).1 (by decide), flushSubnormal_ofNat hn, (f32OfNat_exact hn).2,
    flushSubnormal_of_not_subnormal _ notSubnormal_zero, f32Rat_zero, not_lt]
  exact Nat.cast_nonneg n

/-- The difference 0 - 1 is -1 (R13). -/
theorem f32Sub_zero_one : f32IsFinite (f32Sub (f32OfNat 0) (f32OfNat 1)) = true ∧
    f32Rat (f32Sub (f32OfNat 0) (f32OfNat 1)) = -1 := by
  rw [f32OfNat_zero, f32OfNat_one, show (-1 : ℚ) = f32Rat (f32Neg 0x3F800000) by rw [f32Rat_neg, f32Rat_one]]
  exact f32Sub_exact (by decide) (by decide) notSubnormal_zero notSubnormal_one (by decide)
    (notSubnormal_neg notSubnormal_one) (by rw [f32Rat_neg, f32Rat_zero, zero_sub])

/-- The wrap takes the position -1 to the last index (R126). -/
theorem wrapPosition_neg_one {len : ℕ} (h0 : 0 < len) (hlen : len ≤ 2 ^ 24) {p : Word} (hp : f32IsFinite p = true)
    (hv : f32Rat p = -1) : wrapPosition num len p = f32OfNat (len - 1) := by
  have hflush : flushSubnormal p = p :=
    flushSubnormal_of_not_subnormal p (notSubnormal_of_ge (by rw [hv, abs_neg, abs_one]; norm_num))
  have hlt : num.lt p num.zero = true := by
    rw [num_lt, num_zero, f32Lt_iff hp (by decide), hflush, hv, flushSubnormal_of_not_subnormal _ notSubnormal_zero,
      f32Rat_zero]
    norm_num
  obtain ⟨fl, vl⟩ := f32OfNat_exact hlen
  rw [wrapPosition, if_pos hlt, num_fadd, num_itof, f32Add, hflush, flushSubnormal_ofNat hlen]
  exact f32Sum_eq_ofNat _ _ _ hp fl (by rw [f32Sign_ofNat, Bool.and_false])
    (by rw [hv, vl, Nat.cast_sub h0, Nat.cast_one, neg_add_eq_sub])

/-- A position that is an index is read at that index with weight 1: the weight of the next word is `+0` (R127, R128). -/
theorem slotsOf_ofNat {len i : ℕ} (h : i < len) (hlen : len ≤ 2 ^ 24) :
    slotsOf num len (f32OfNat i) = some ⟨i, nextHead len i, 0⟩ := by
  have hi : i ≤ 2 ^ 24 := h.le.trans hlen
  obtain ⟨hn, hf⟩ := (f32IsFinite_iff _).1 (f32OfNat_exact hi).1
  rw [slotsOf, if_neg (by simp [hn, hf]), num_floor, f32Floor_ofNat hi, if_neg (by omega), Int.toNat_natCast, num_fsub,
    num_itof, f32Sub_ofNat le_rfl hi, Nat.sub_self, f32OfNat_zero, nextHead_eq_wrap h]

/-- A whole delay time up to the head reads back from it, without a wrap (R125). -/
theorem readSlots_ofNat {len w k : ℕ} (hk : k ≤ w) (hw : w - k < len) (hw24 : w ≤ 2 ^ 24) (hlen : len ≤ 2 ^ 24) :
    readSlots num len w (f32OfNat k) = some ⟨w - k, nextHead len (w - k), 0⟩ := by
  rw [readSlots, rawPosition, num_fsub, num_itof, f32Sub_ofNat hk hw24, wrapPosition_ofNat len (by omega),
    slotsOf_ofNat hw hlen]

/-- Delay time 1 with the advanced head reads back the head before the advance; where the head has come around to index 0,
the wrap takes the position there (R125, R126). -/
theorem readSlots_one {len w : ℕ} (hw : w < len) (hlen : len ≤ 2 ^ 24) :
    readSlots num len (nextHead len w) (f32OfNat 1) = some ⟨w, nextHead len w, 0⟩ := by
  rcases Nat.lt_or_ge (w + 1) len with hlt | hge
  · have hhead : nextHead len w = w + 1 := Nat.mod_eq_of_lt hlt
    have hread := readSlots_ofNat (len := len) (w := w + 1) (k := 1) (by omega) hw (by omega) hlen
    rwa [Nat.add_sub_cancel, ← hhead] at hread
  · obtain rfl : len = w + 1 := by omega
    have hhead : nextHead (w + 1) w = 0 := Nat.mod_self _
    rw [readSlots, rawPosition, num_fsub, num_itof, hhead, wrapPosition_neg_one (by omega) hlen f32Sub_zero_one.1
      f32Sub_zero_one.2, Nat.add_sub_cancel, slotsOf_ofNat hw hlen, hhead]

/-- Settles O46: both positions are indices, read with weight 1. -/
theorem delayOneReadsTheStoredWord : Obligations.DelayOneReadsTheStoredWord := by
  intro len w hw hlen
  have hhead : nextHead len w < len := nextHead_lt (by omega)
  have hone := readSlots_one hw hlen
  have hzero := readSlots_ofNat (Nat.zero_le _) hhead (hhead.le.trans hlen) hlen
  rw [f32OfNat_one] at hone
  rw [f32OfNat_zero, Nat.sub_zero] at hzero
  exact ⟨hone, hzero⟩

end Sys2Proof.Machine
end

section
/-! SUPPORT. Proofs of the encoding family: decoding and encoding are inverse, the well-formed frames are the encodings,
the command of a table word runs next, what `PROCESS` presents and collects, and the reserved words. -/

namespace Sys2Proof.Machine

/-! ### Decoding and encoding are inverse -/

/-- Settles O2: a header selects its row, and the operands of that row are read back. -/
theorem decodeReadsEncodedWords : Obligations.DecodeReadsEncodedWords := decodeWords_encode_append

theorem takeCfg_ok {t : BitVec 2} {ws rest : List Word} {i : Instr} (h : takeCfg t ws = .ok (i, rest)) :
    ∃ sr blk rate, i = .cfg t sr blk rate ∧ ws = sr :: blk :: rate :: rest := by
  unfold takeCfg at h
  split at h <;> cases h
  exact ⟨_, _, _, rfl, rfl⟩

theorem takeTick_ok {make : TickOperands → Instr} {ws rest : List Word} {i : Instr}
    (h : takeTick make ws = .ok (i, rest)) : ∃ o : TickOperands, i = make o ∧ ws = o.words ++ rest := by
  unfold takeTick at h
  split at h <;> cases h
  exact ⟨_, rfl, rfl⟩

/-- What decodes after a header is what the encoder writes with it (R82, R89). -/
theorem eq_encode_of_decodeWords_header {a t : BitVec 2} {ws rest : List Word} {i : Instr}
    (h : decodeWords (headerWord a t :: ws) = .ok (i, rest)) : headerWord a t :: ws = encode i ++ rest := by
  rcases bits2_cases a with rfl | rfl | rfl | rfl
  · rw [decodeWords_header (findKind_nop t)] at h
    cases h; rfl
  · rw [decodeWords_header (findKind_cfg t)] at h
    obtain ⟨_, _, _, rfl, rfl⟩ := takeCfg_ok h; rfl
  · rcases bits2_cases t with rfl | rfl | rfl | rfl
    · rw [decodeWords_header findKind_tickDelay] at h
      obtain ⟨_, rfl, rfl⟩ := takeTick_ok h; rfl
    · rw [decodeWords_header findKind_tickChorus] at h
      obtain ⟨_, rfl, rfl⟩ := takeTick_ok h; rfl
    · rw [decodeWords_header findKind_tickFlanger] at h
      obtain ⟨_, rfl, rfl⟩ := takeTick_ok h; rfl
    · rw [decodeWords_header findKind_reservedTickType3] at h
      obtain ⟨_, rfl, rfl⟩ := takeTick_ok h; rfl
  · rw [decodeWords_header (findKind_reservedCmdOp3 t)] at h
    cases h; rfl

/-- Settles O4: a first word at or above 16 is refused (log 14), and any other is a header. -/
theorem decodedWordsAreTheEncoding : Obligations.DecodedWordsAreTheEncoding := by
  intro ws rest i h
  cases ws with
  | nil => cases h
  | cons first operands =>
    rcases Nat.lt_or_ge first.toNat 16 with hlt | hge
    · obtain ⟨a, t, rfl⟩ := eq_headerWord hlt
      exact eq_encode_of_decodeWords_header h
    · rw [decodeWords_of_ge hge] at h
      cases h

theorem decodeWords_eq_ok_iff {ws rest : List Word} {i : Instr} :
    decodeWords ws = .ok (i, rest) ↔ ws = encode i ++ rest :=
  ⟨decodedWordsAreTheEncoding ws rest i, fun h => h ▸ decodeWords_encode_append i rest⟩

/-! ### The well-formed frames are the encodings -/

/-- The operand words that follow a command code: formats `N`, `C` and `T`, and none for the reserved code (R82). -/
def operandCount (a : BitVec 2) : Nat := if a = 1#2 then 3 else if a = 2#2 then 7 else 0

theorem frameWellFormed_header (a t : BitVec 2) (ws : List Word) :
    frameWellFormed (headerWord a t :: ws) = (ws.length == operandCount a) := by
  rcases bits2_cases a with rfl | rfl | rfl | rfl <;> rcases bits2_cases t with rfl | rfl | rfl | rfl <;> rfl

/-- A well-formed frame begins with a header (R92). -/
theorem header_of_frameWellFormed {w : Word} {ws : List Word} (h : frameWellFormed (w :: ws) = true) :
    ∃ a t, w = headerWord a t := by
  refine eq_headerWord (Nat.lt_of_not_le fun hge => ?_)
  rw [frameWellFormed, if_neg (by omega), if_neg (by omega), if_neg (by omega), if_neg (by omega)] at h
  cases h

theorem exists_tickOperands_words {ws : List Word} (h : ws.length = 7) : ∃ o : TickOperands, ws = o.words :=
  match ws, h with
  | [inL, inR, dryWet, feedback, depth, rate, phaseOffset], _ =>
    ⟨⟨inL, inR, dryWet, feedback, depth, rate, phaseOffset⟩, rfl⟩

/-- A header and as many words as its format has are an encoding (R82). -/
theorem exists_encode_of_length {a : BitVec 2} (t : BitVec 2) {ws : List Word} (h : ws.length = operandCount a) :
    ∃ i, headerWord a t :: ws = encode i := by
  rcases bits2_cases a with rfl | rfl | rfl | rfl
  · obtain rfl := List.length_eq_zero_iff.1 h
    exact ⟨.nop t, rfl⟩
  · obtain ⟨sr, blk, rate, rfl⟩ := List.length_eq_three.1 h
    exact ⟨.cfg t sr blk rate, rfl⟩
  · obtain ⟨o, rfl⟩ := exists_tickOperands_words h
    rcases bits2_cases t with rfl | rfl | rfl | rfl
    · exact ⟨.tickDelay o, rfl⟩
    · exact ⟨.tickChorus o, rfl⟩
    · exact ⟨.tickFlanger o, rfl⟩
    · exact ⟨.reservedTickType3 o, rfl⟩
  · obtain rfl := List.length_eq_zero_iff.1 h
    exact ⟨.reservedCmdOp3 t, rfl⟩

theorem encode_eq_header_cons (i : Instr) :
    ∃ a t ws, encode i = headerWord a t :: ws ∧ ws.length = operandCount a := by
  cases i <;> exact ⟨_, _, _, rfl, rfl⟩

theorem frameWellFormed_iff {ws : List Word} : frameWellFormed ws = true ↔ ∃ i, ws = encode i := by
  constructor
  · intro h
    cases ws with
    | nil => cases h
    | cons first operands =>
      obtain ⟨a, t, rfl⟩ := header_of_frameWellFormed h
      rw [frameWellFormed_header, beq_iff_eq] at h
      exact exists_encode_of_length t h
  · rintro ⟨i, rfl⟩
    obtain ⟨a, t, operands, hi, hlen⟩ := encode_eq_header_cons i
    rw [hi, frameWellFormed_header, hlen, beq_self_eq_true]

/-- Settles O5: both sides say that the words are an encoding. -/
theorem wellFormedFramesAreTheDecodable : Obligations.WellFormedFramesAreTheDecodable := by
  intro ws
  simp only [frameWellFormed_iff, decodeWords_eq_ok_iff, List.append_nil]

/-! ### The command of a table word -/

/-- The words of a table word begin with the encoding of the instruction that the decoder reads from it (R61, R92). -/
theorem tableWords_of_decodeTableWord {nbits w : Nat} {i : Instr} (h : decodeTableWord nbits w = some i) :
    ∃ rest, tableWords nbits w = encode i ++ rest := by
  have hwords : wordsOfBytes (bytesOfWords (tableWords nbits w)) = tableWords nbits w := by
    simpa only [List.append_nil, wordsOfBytes] using wordsOfBytes_append (tableWords nbits w) []
  rw [decodeTableWord, decode, hwords] at h
  cases hd : decodeWords (tableWords nbits w) with
  | error e => rw [hd] at h; cases h
  | ok r =>
    rw [hd] at h
    cases h
    exact ⟨_, decodeWords_eq_ok_iff.1 hd⟩

/-- Sampling gives back the command whose words drive the ports and the parameter registers (R36, R92). -/
theorem sampledCommand_ofWords (i : Instr) (rest : List Word) (p : Params) :
    sampledCommand (portsOfWords (encode i ++ rest)) (paramsOfWords (encode i ++ rest) p) = encode i := by
  cases i <;>
    simp [sampledCommand_eq, sampledOperands, portsOfWords, paramsOfWords, encode, TickOperands.words]

/-- Settles O9: the ports and parameter registers present the words of the instruction, and the step runs it (O7). -/
theorem fetchWordIsRunNext : Obligations.FetchWordIsRunNext := by
  intro s nbits w i h
  obtain ⟨rest, hwords⟩ := tableWords_of_decodeTableWord h
  have hheader : (tableWord nbits w 0).toNat < 16 := by
    obtain ⟨a, t, ws, hi, -⟩ := encode_eq_header_cons i
    rw [hi] at hwords
    rw [(List.cons.inj hwords).1]
    exact headerWord_lt a t
  rw [State.withFetchWord, if_pos hheader]
  refine stepRunsPresentedCommand _ (portsOfWords (tableWords nbits w)) [] i rfl ?_
  rw [hwords]
  exact sampledCommand_ofWords i rest s.params

/-! ### `PROCESS` -/

theorem processEvents_eq_zip : ∀ ls rs : List Word,
    processEvents ls rs = (ls.zip rs).map fun x => tickEvent x.1 x.2
  | [], _ => rfl
  | _ :: _, [] => rfl
  | l :: ls, r :: rs => congrArg (tickEvent l r :: ·) (processEvents_eq_zip ls rs)

theorem process_wellFormed_iff {n : Nat} {ls rs : List Word} :
    (Line.process n ls rs).wellFormed = true ↔ ls.length = n ∧ rs.length = n := by
  simp only [Line.wellFormed, Bool.and_eq_true, beq_iff_eq]

/-- Two blocks put together are a block (R197). -/
theorem process_wellFormed_append {a b : Nat} {ls rs ls' rs' : List Word}
    (h : (Line.process a ls rs).wellFormed = true) (h' : (Line.process b ls' rs').wellFormed = true) :
    (Line.process (a + b) (ls ++ ls') (rs ++ rs')).wellFormed = true := by
  rw [process_wellFormed_iff] at *
  simp only [List.length_append, h, h', and_self]

theorem processEvents_append_of_wellFormed {a : Nat} {ls rs : List Word} (h : (Line.process a ls rs).wellFormed = true)
    (ls' rs' : List Word) : processEvents (ls ++ ls') (rs ++ rs') = processEvents ls rs ++ processEvents ls' rs' := by
  obtain ⟨hl, hr⟩ := process_wellFormed_iff.1 h
  exact processEvents_append ls' rs' (hl.trans hr.symm)

theorem processEvents_length_of_wellFormed {n : Nat} {ls rs : List Word}
    (h : (Line.process n ls rs).wellFormed = true) : (processEvents ls rs).length = n := by
  obtain ⟨hl, hr⟩ := process_wellFormed_iff.1 h
  rw [processEvents_length (hl.trans hr.symm), hl]

/-- The events of a well-formed block are those of all its frames (R91, R196). -/
theorem lineEvents_process (type : BitVec 2) {n : Nat} {ls rs : List Word}
    (h : (Line.process n ls rs).wellFormed = true) :
    lineEvents type (.process n ls rs) = some (processEvents ls rs) := by
  obtain ⟨rfl, hr⟩ := process_wellFormed_iff.1 h
  rw [lineEvents, List.take_length, ← hr, List.take_length]

/-- The events of a program that begins with a well-formed block, which keeps the type in force (R91). -/
theorem programEvents_process (type : BitVec 2) {n : Nat} {ls rs : List Word} {rest : List Line}
    {later : List HostEvent} (h : (Line.process n ls rs).wellFormed = true)
    (hlater : programEvents type rest = some later) :
    programEvents type (.process n ls rs :: rest) = some (processEvents ls rs ++ later) := by
  rw [programEvents, lineEvents_process type h, typeAfter, hlater]

/-- Collecting gives as many pairs as steps, ends where the run ends, and the pairs are on the ports after each step. -/
theorem collect_eq_next {n : Nat} {s : State} {p : Processed} (h : collect n s = .next p) :
    p.outL.length = n ∧ p.outR.length = n ∧ core.run n s = .next p.s ∧
    ∀ k, k < n → ∃ t : State, core.run (k + 1) s = .next t ∧
      p.outL[k]? = some t.outL ∧ p.outR[k]? = some t.outR := by
  induction n generalizing s p with
  | zero =>
    cases h
    exact ⟨rfl, rfl, rfl, fun k hk => absurd hk (Nat.not_lt_zero k)⟩
  | succ n ih =>
    obtain ⟨t, q, ht, hq, rfl⟩ := collect_succ.1 h
    obtain ⟨hl, hr, hrun, hports⟩ := ih hq
    refine ⟨congrArg (· + 1) hl, congrArg (· + 1) hr, (core_run_succ ht).trans hrun, fun k hk => ?_⟩
    rw [core_run_succ ht]
    cases k with
    | zero => exact ⟨t, rfl, rfl, rfl⟩
    | succ k => exact hports k (Nat.lt_of_succ_lt_succ hk)

/-- The events still to come after a block are those from before it (R197). -/
theorem process_inbox {n : Nat} {ls rs : List Word} {s : State} {p : Processed}
    (hwf : (Line.process n ls rs).wellFormed = true) (h : process n ls rs s = .next p) : p.s.inbox = s.inbox := by
  rw [process_of_wellFormed hwf] at h
  rw [collect_inbox h, present_inbox, List.drop_left' (processEvents_length_of_wellFormed hwf)]

/-- A block cut in two gives the outputs of its parts, one after the other, and ends where the second part ends (R197):
the first part does not see the events of the second. -/
theorem process_append {a b : Nat} {ls rs ls' rs' : List Word} {s : State} {p q : Processed}
    (hwf : (Line.process a ls rs).wellFormed = true) (hwf' : (Line.process b ls' rs').wellFormed = true)
    (hp : process a ls rs s = .next p) (hq : process b ls' rs' p.s = .next q) :
    process (a + b) (ls ++ ls') (rs ++ rs') s = .next ⟨p.outL ++ q.outL, p.outR ++ q.outR, q.s⟩ := by
  have hfirst : collect a (present (processEvents (ls ++ ls') (rs ++ rs')) s) =
      .next { p with s := present (processEvents ls' rs') p.s } := by
    have hlen := processEvents_length_of_wellFormed hwf
    rw [present, present, process_inbox hwf hp, processEvents_append_of_wellFormed hwf, List.append_assoc, ← hlen]
    rw [process_of_wellFormed hwf, ← hlen] at hp
    exact collect_withLater hp _
  rw [process_of_wellFormed hwf'] at hq
  rw [process_of_wellFormed (process_wellFormed_append hwf hwf')]
  exact (collect_add hfirst hq :)

/-- Settles O39: the events by the frames of the block, the outputs by induction on the steps, and a cut because a block
does not see the events presented after it. -/
theorem processIsTicksInOrder : Obligations.ProcessIsTicksInOrder := by
  refine ⟨fun type n ls rs hwf => ?_, fun _ => rfl, fun type a b ls rs ls' rs' hwf hwf' => ?_, fun _ => rfl,
    fun n ls rs s p hwf h => ?_, fun a b ls rs ls' rs' s p q hwf hwf' => process_append hwf hwf'⟩
  · rw [lineEvents_process type hwf, processEvents_eq_zip]
  · rw [programEvents_process type (process_wellFormed_append hwf hwf') rfl,
      programEvents_process type hwf (programEvents_process type hwf' rfl),
      processEvents_append_of_wellFormed hwf, List.append_assoc]
  · rw [process_of_wellFormed hwf] at h
    exact collect_eq_next h

/-! ### The opcode table and the reserved words -/

theorem findKind_isSome : ∀ op : Opword, (findKind op).isSome = true := by decide

theorem exists_unique_row : ∀ op : Opword,
    ∃ r ∈ opcodeTable, r.covers op = true ∧ ∀ r' ∈ opcodeTable, r'.covers op = true → r' = r := by decide

/-- Settles O1: by the 16 operation words. -/
theorem opcodeRowsPartition : Obligations.OpcodeRowsPartition := ⟨rfl, findKind_isSome, exists_unique_row⟩

/-- Settles O6: the words are those the encoder writes, and 16 is no header. -/
theorem writtenOutWordsDecode : Obligations.WrittenOutWordsDecode := by
  simp only [Obligations.WrittenOutWordsDecode, decodeWords_eq_ok_iff]
  exact ⟨rfl, rfl, rfl, rfl, rfl, rfl, decodeWords_of_ge (by decide) []⟩

/-- `IllegalCommand` as the first cause is code 4 with channel bit 0, and no other change (R214, R216). -/
theorem raise_illegalCommand {s : State} (h : s.mode ≠ .faulted) :
    NextButOutputs (.next (raise .illegalCommand s)) { s with status := statusWithFault 4 false s.status } := by
  have hflt : statusFlt s.status = 0 := not_not.1 (mt (mode_eq_faulted s).2 h)
  have hstatus : (raise .illegalCommand s).status = statusWithFault 4 false s.status := by
    rw [raise_status, if_pos hflt, Cause.code, Cause.fch]
  exact hstatus ▸ raise_nextButOutputs .illegalCommand s

/-- Settles O27: past the tests that come first (R217), a reserved word raises `IllegalCommand`. -/
theorem reservedWordsRaiseIllegalCommand : Obligations.ReservedWordsRaiseIllegalCommand := by
  refine fun tb o s => ⟨fun h => ?_, fun h => ?_⟩
  · rw [exec, execReservedCmdOp3_of_ne h]
    exact raise_illegalCommand h
  · rw [exec_reservedTickType3_ready h]
    exact raise_illegalCommand (by rw [h]; decide)

end Sys2Proof.Machine
end

section
/-! SUPPORT. Proofs of the tick-sequence family: admission, the values and the frame of a tick, the write head, the two
lanes, and the feedback bound and the realised delay in ideal arithmetic. -/

namespace Sys2Proof.Machine

/-! ### Admission -/

/-- A first cause is recorded with its code and channel, and no other change (R216). -/
theorem raise_first_nextButOutputs (c : Cause) {s : State} (h : statusFlt s.status = 0) :
    NextButOutputs (.next (raise c s)) { s with status := statusWithFault c.code c.fch s.status } := by
  rw [raise_of_ready h]
  exact ⟨_, _, _, rfl⟩

/-- Settles O20: the three premises are the modes, and the last one leaves the reserved type code. -/
theorem admissionOrder : Obligations.AdmissionOrder := by
  refine fun o i s hi => ⟨fun hflt => ?_, fun hflt hcfg => ?_, fun hflt hcfg hres => ?_⟩
  · rw [exec_formatT_faulted hi ((mode_eq_faulted s).2 hflt)]
    exact ⟨_, _, _, rfl⟩
  · rw [exec_formatT_unconfigured hi ((mode_eq_unconfigured s).2 ⟨hflt, hcfg⟩)]
    exact raise_first_nextButOutputs .notConfigured hflt
  · rw [hres, exec_reservedTickType3_ready ((mode_eq_ready s).2 ⟨hflt, hcfg⟩)]
    exact raise_first_nextButOutputs .illegalCommand hflt

/-! ### What a word of format `T` leaves -/

/-- A word of format `T` keeps `STATUS`, or records a fault in it from `FLT = 0` (R109). -/
theorem formatT_status {o : TickOperands} {i : Instr} {s t : State} (hi : i ∈ formatT o) (he : exec i s = .next t) :
    t.status = s.status ∨ statusFlt s.status = 0 ∧
      ∃ k f, (k = 2 ∨ k = 3 ∨ k = 4) ∧ t.status = statusWithFault k f s.status := by
  have is {u : State} (e : exec i s = .next u) : t = u := Host.Outcome.next.inj (he.symm.trans e)
  have raised {c : Cause} (hflt : statusFlt s.status = 0) (e : exec i s = .next (raise c s)) :
      statusFlt s.status = 0 ∧ ∃ k f, (k = 2 ∨ k = 3 ∨ k = 4) ∧ t.status = statusWithFault k f s.status :=
    ⟨hflt, c.code, c.fch, c.code_legal.1, by rw [is e, raise_status, if_pos hflt]⟩
  rcases mode_cases s with hm | hm | hm
  · exact .inr (raised ((mode_eq_unconfigured s).1 hm).1 (exec_formatT_unconfigured hi hm))
  · have hflt := ((mode_eq_ready s).1 hm).1
    rcases mem_formatT.1 hi with hi | rfl
    · obtain ⟨-, st, _, _, _, _, _, _, _, rfl, hst, -⟩ := tick_next hi hm he
      exact hst.imp_right fun ⟨f, hf⟩ => ⟨hflt, 2, f, .inl rfl, hf⟩
    · exact .inr (raised hflt (exec_reservedTickType3_ready hm))
  · exact .inl (by rw [is (exec_formatT_faulted hi hm), refuseTick_status])

/-- A word of format `T` writes no configuration register, no parameter register and no list of events (R109). -/
theorem formatT_frame {o : TickOperands} {i : Instr} {s t : State} (hi : i ∈ formatT o) (he : exec i s = .next t) :
    t.sr = s.sr ∧ t.len = s.len ∧ t.blk = s.blk ∧ t.params = s.params ∧ t.done = s.done ∧ t.inbox = s.inbox := by
  rcases exec_next he with ⟨_, _, _, e⟩ | ⟨_, _, _, _, _, rfl, -⟩ | ⟨o', hi', hm⟩
  · rw [Host.Outcome.next.inj e]
    exact ⟨rfl, rfl, rfl, rfl, rfl, rfl⟩
  · simp [formatT] at hi
  · obtain ⟨-, _, _, _, _, _, _, _, _, rfl, -⟩ := tick_next hi' hm he
    exact ⟨rfl, rfl, rfl, rfl, rfl, rfl⟩

/-- Settles O25: a recorded fault writes `FLT` and `FCH` only. -/
theorem tickFrame : Obligations.TickFrame := by
  intro o i s t hi he
  obtain ⟨hsr, hlen, hblk, hparams, hdone, hinbox⟩ := formatT_frame hi he
  refine ⟨hsr, hlen, hblk, hparams, ?_⟩
  rcases formatT_status hi he with hst | ⟨hflt, k, f, hk, hst⟩ <;> rw [hst]
  · exact ⟨rfl, rfl, rfl, hdone, hinbox, .inl rfl⟩
  · rw [statusCfg_withFault, statusErr_withFault, statusReserved_withFault, statusFlt_withFault]
    exact ⟨rfl, rfl, rfl, hdone, hinbox, .inr ⟨hflt, hk⟩⟩

/-! ### The stores and the write head -/

/-- Settles O23: an admitted tick writes each buffer once, at `W`. -/
theorem tickStoresOneWordPerBuffer : Obligations.TickStoresOneWordPerBuffer := by
  intro o i s t c j hi hwf hm he
  have hbuf : t.buf c = Memory.write (s.buf c) s.w.toNat (storedWord o s c) := by
    obtain ⟨-, _, _, _, _, _, _, _, _, rfl, -⟩ := tick_next hi hm he
    cases c <;> rfl
  rw [hbuf]
  split
  · next hj => rw [hj, read_write_same _ _ _ 0 hwf]
  · next hj => exact read_write_other _ _ _ _ (Ne.symm hj)

/-- `k` advances of a head in the buffer (R103). -/
theorem nextHead_iterate {len w : Nat} (h : w < len) (k : Nat) : (nextHead len)^[k] w = (w + k) % len := by
  induction k with
  | zero => exact (Nat.mod_eq_of_lt h).symm
  | succ k ih => rw [Function.iterate_succ_apply', ih, nextHead, Nat.mod_add_mod, Nat.add_assoc]

/-- The advances bring a head back exactly when a whole number of lengths is done (R103). -/
theorem nextHead_iterate_eq_self {len w : Nat} (h : w < len) (k : Nat) : (nextHead len)^[k] w = w ↔ len ∣ k := by
  rw [nextHead_iterate h, ← Nat.add_modEq_left_iff (a := w), Nat.ModEq, Nat.mod_eq_of_lt h]

/-- The advance, without a division (R103). -/
theorem nextHead_eq_ite {len w : Nat} (h : w < len) : nextHead len w = if w + 1 = len then 0 else w + 1 := by
  rw [nextHead_eq_wrap h]
  split <;> split <;> omega

/-- Settles O22: an admitted tick advances the head once. -/
theorem headAdvancesModuloLength : Obligations.HeadAdvancesModuloLength := by
  intro o i s t hi hm hw he
  have hhead : t.w.toNat = nextHead s.len.toNat s.w.toNat := by
    obtain ⟨-, _, _, _, _, _, _, _, _, rfl, -⟩ := tick_next hi hm he
    exact nextHead_toNat _ _ (by omega)
  refine ⟨hhead, hhead.trans (nextHead_eq_ite hw), fun hone => ?_, nextHead_iterate_eq_self hw⟩
  rw [hhead, hone, nextHead, Nat.mod_one]

/-! ### The ways an admitted tick ends, by its slots -/

/-- The state after steps 4 to 6 with the wet samples at the slots given (R108, R128). -/
def finishTick (o : TickOperands) (slL slR : Slots Word) (t : State) : State :=
  mixAndEmit o
    (lerp num (Memory.read t.bufL slL.i0) (Memory.read t.bufL slL.i1) slL.fr)
    (lerp num (Memory.read t.bufR slR.i0) (Memory.read t.bufR slR.i1) slR.fr) t

section TickEnds

variable {times : TickOperands → State → Timed} (ht : IsTimes times) {o : TickOperands} {s : State}
  (hm : s.mode = .ready) (hw : s.w.toNat < s.len.toNat)
include ht hm hw

/-- No slots on the left (R212). -/
theorem tick_left_none (hL : slotsInTick s (times o s).dL = none) :
    admitTick (tickSteps times o) s =
      .next (raise (.bufferUnderflow .left) (readState o s (times o s).s.sm (times o s).s.ph)) := by
  rcases tick_cases ht o rfl hm hw with ⟨-, e⟩ | ⟨_, h, -⟩ | ⟨_, _, h, -⟩
  · exact e
  · rw [hL] at h; cases h
  · rw [hL] at h; cases h

/-- No slots on the right only (R212). -/
theorem tick_right_none {slL : Slots Word} (hL : slotsInTick s (times o s).dL = some slL)
    (hR : slotsInTick s (times o s).dR = none) :
    admitTick (tickSteps times o) s =
      .next (raise (.bufferUnderflow .right) (readState o s (times o s).s.sm (times o s).s.ph)) := by
  rcases tick_cases ht o rfl hm hw with ⟨h, -⟩ | ⟨_, -, -, e⟩ | ⟨_, _, -, h, -⟩
  · rw [hL] at h; cases h
  · exact e
  · rw [hR] at h; cases h

/-- Slots on both sides (R108). -/
theorem tick_some {slL slR : Slots Word} (hL : slotsInTick s (times o s).dL = some slL)
    (hR : slotsInTick s (times o s).dR = some slR) :
    admitTick (tickSteps times o) s =
      .next (finishTick o slL slR (readState o s (times o s).s.sm (times o s).s.ph)) := by
  rcases tick_cases ht o rfl hm hw with ⟨h, -⟩ | ⟨_, -, h, -⟩ | ⟨slL', slR', hL', hR', e⟩
  · rw [hL] at h; cases h
  · rw [hR] at h; cases h
  · obtain rfl := Option.some.inj (hL.symm.trans hL')
    obtain rfl := Option.some.inj (hR.symm.trans hR')
    exact e

end TickEnds

/-- Settles O18: the values are those of the smoother, the interpolation, the carry and the mix. -/
theorem tickDelayCompletes : Obligations.TickDelayCompletes := by
  rintro o s _ _ _ _ sl _ _ hm hw rfl rfl hsl rfl rfl rfl rfl
  have hslots : slotsInTick s (delayTimes o s).dL = some sl := hsl
  rw [exec, execTickDelay, tick_some .delay hm hw hslots hslots]
  simp only [finishTick, mixAndEmit, readState, delayTimes_sm, delayTimes_ph, nextHead, lerp, carry, mix, smooth,
    targetTime, num_fadd, num_fsub, num_fmul, num_fdiv, num_one, num_ten, num_kSmooth]

/-- The wrap of a phase in binary32 (R161, R168). -/
theorem wrapPhase_num (x : Word) : wrapPhase num x = if f32Lt 0x3F800000 x then f32Sub x 0x3F800000 else x := by
  rw [wrapPhase, num_lt, num_fsub, num_one]

/-- The delay time of an LFO phase in binary32 (R162 to R167). -/
theorem modulatedTime_num (lo hi sr depth ph : Word) :
    modulatedTime num lo hi sr depth ph = f32Mul sr (f32Add lo (f32Mul (f32Sub hi lo)
      (f32Div (f32Add (f32Mul (f32Sin2pi ph) depth) 0x3F800000) 0x40000000))) := by
  rw [modulatedTime, mapTime, lfoValue, num_fmul, num_fadd, num_fsub, num_fdiv, num_sin2pi, num_one, num_two]

/-- Settles O19: the two ticks are one rule with the range of each, and its phases are wrapped sums. -/
theorem modulatedTicksComplete : Obligations.ModulatedTicksComplete := by
  rintro o i lo hi s _ _ _ _ _ _ slL slR _ _ hi' hm hw rfl rfl rfl rfl hslL hslR rfl rfl rfl rfl
  have hexec : exec i s = admitTick (tickSteps (modulatedTimes lo hi) o) s := by
    rcases hi' with ⟨rfl, rfl, rfl⟩ | ⟨rfl, rfl, rfl⟩ <;> rfl
  have hL : slotsInTick s (modulatedTimes lo hi o s).dL = some slL := by
    rw [modulatedTimes_dL, timeWithRate, modulatedTime_num]
    exact hslL
  have hR : slotsInTick s (modulatedTimes lo hi o s).dR = some slR := by
    rw [modulatedTimes_dR, timeWithRate, modulatedTime_num, rightPhase, wrapPhase_num, num_fadd]
    exact hslR
  rw [hexec, tick_some (.modulated lo hi) hm hw hL hR]
  simp only [finishTick, mixAndEmit, readState, modulatedTimes_sm, modulatedTimes_ph, nextHead, lerp, carry, mix,
    advancePhase, wrapPhase_num, num_fadd, num_fsub, num_fmul, num_fdiv, num_one]

/-! ### The two lanes -/

/-- A state without one of its lanes (R106). -/
def State.eraseLane : Channel → State → State
  | .left => State.eraseLeft
  | .right => State.eraseRight

/-- The operands of a tick without the sample of one lane (R106). -/
def eraseSample : Channel → TickOperands → TickOperands
  | .left, o => { o with inL := 0 }
  | .right, o => { o with inR := 0 }

/-- What is not of the lane stays. -/
theorem eraseLane_shared (c : Channel) (s : State) :
    (s.eraseLane c).w = s.w ∧ (s.eraseLane c).len = s.len ∧ (s.eraseLane c).status = s.status := by
  cases c <;> exact ⟨rfl, rfl, rfl⟩

theorem mode_eraseLane (c : Channel) (s : State) : (s.eraseLane c).mode = s.mode := by
  cases c <;> rfl

theorem refuseTick_eraseLane (c : Channel) (s : State) :
    (refuseTick (s.eraseLane c)).eraseLane c = (refuseTick s).eraseLane c := by
  cases c <;> rfl

/-- A raise reads no lane (R216). -/
theorem raise_eraseLane (c : Channel) (cause : Cause) (s : State) :
    (raise cause (s.eraseLane c)).eraseLane c = (raise cause s).eraseLane c := by
  have hst : (s.eraseLane c).status = s.status := (eraseLane_shared c s).2.2
  by_cases h : statusFlt s.status = 0
  · rw [raise_of_ready h, raise_of_ready (hst ▸ h)]; cases c <;> rfl
  · rw [raise_of_faulted h, raise_of_faulted (hst ▸ h)]; cases c <;> rfl

/-- A raise keeps states alike but for a lane. -/
theorem raise_lane_congr {c : Channel} {s t : State} (h : s.eraseLane c = t.eraseLane c) (cause : Cause) :
    (raise cause s).eraseLane c = (raise cause t).eraseLane c := by
  rw [← raise_eraseLane, h, raise_eraseLane]

/-- The times of a tick and the register it updates depend on no lane (R106). -/
theorem IsTimes.eraseLane {times : TickOperands → State → Timed} (ht : IsTimes times) (c : Channel) (o : TickOperands)
    (s : State) :
    (times (eraseSample c o) (s.eraseLane c)).dL = (times o s).dL ∧
    (times (eraseSample c o) (s.eraseLane c)).dR = (times o s).dR ∧
    (times (eraseSample c o) (s.eraseLane c)).s.sm = (times o s).s.sm ∧
    (times (eraseSample c o) (s.eraseLane c)).s.ph = (times o s).s.ph := by
  cases ht <;> cases c <;> simp only [delayTimes, modulatedTimes, State.eraseLane, State.eraseLeft, State.eraseRight,
    eraseSample, and_self]

/-- Steps 1 to 3 store to each lane its own sum (R102, R106). -/
theorem readState_eraseLane (c : Channel) (o : TickOperands) (s : State) (sm ph : Word) :
    (readState (eraseSample c o) (s.eraseLane c) sm ph).eraseLane c = (readState o s sm ph).eraseLane c := by
  cases c <;> rfl

/-- Steps 3 to 6 read, carry and mix each lane by itself (R106). -/
theorem finishTick_eraseLane (c : Channel) (o : TickOperands) (s : State) (sm ph : Word) (slL slR : Slots Word) :
    (finishTick (eraseSample c o) slL slR (readState (eraseSample c o) (s.eraseLane c) sm ph)).eraseLane c =
      (finishTick o slL slR (readState o s sm ph)).eraseLane c := by
  cases c <;> simp only [finishTick, mixAndEmit, readState, State.eraseLane, State.eraseLeft, State.eraseRight,
    eraseSample]

/-- A tick does to all but one lane what it does without that lane (R106). -/
theorem tick_eraseLane {times : TickOperands → State → Timed} (ht : IsTimes times) (c : Channel) (o : TickOperands)
    (s : State) :
    onNext (State.eraseLane c) (admitTick (tickSteps times (eraseSample c o)) (s.eraseLane c)) =
      onNext (State.eraseLane c) (admitTick (tickSteps times o) s) := by
  have hmode := mode_eraseLane c s
  rcases mode_cases s with hm | hm | hm
  · rw [admitTick_unconfigured hm, admitTick_unconfigured (hmode.trans hm)]
    exact congrArg Host.Outcome.next (raise_eraseLane c _ s)
  · obtain ⟨hws, hlen, -⟩ := eraseLane_shared c s
    rcases Nat.lt_or_ge s.w.toNat s.len.toNat with hw | hw
    · have hw' : (s.eraseLane c).w.toNat < (s.eraseLane c).len.toNat := by rwa [hws, hlen]
      obtain ⟨hdL, hdR, hsm, hph⟩ := ht.eraseLane c o s
      have hslots (d : Word) : slotsInTick (s.eraseLane c) d = slotsInTick s d := by
        rw [slotsInTick, slotsInTick, hws, hlen]
      have hread := readState_eraseLane c o s (times o s).s.sm (times o s).s.ph
      cases hL : slotsInTick s (times o s).dL with
      | none =>
        rw [tick_left_none ht hm hw hL, tick_left_none ht (hmode.trans hm) hw' (by rw [hslots, hdL, hL]), hsm, hph]
        exact congrArg Host.Outcome.next (raise_lane_congr hread _)
      | some slL =>
        cases hR : slotsInTick s (times o s).dR with
        | none =>
          rw [tick_right_none ht hm hw hL hR, tick_right_none ht (hmode.trans hm) hw' (by rw [hslots, hdL, hL])
            (by rw [hslots, hdR, hR]), hsm, hph]
          exact congrArg Host.Outcome.next (raise_lane_congr hread _)
        | some slR =>
          rw [tick_some ht hm hw hL hR, tick_some ht (hmode.trans hm) hw' (by rw [hslots, hdL, hL])
            (by rw [hslots, hdR, hR]), hsm, hph]
          exact congrArg Host.Outcome.next (finishTick_eraseLane c o s _ _ slL slR)
    · rw [admitTick_ready hm, tickSteps_of_ge _ _ hw, admitTick_ready (hmode.trans hm),
        tickSteps_of_ge _ _ (by rwa [hws, hlen]), hws]
  · rw [admitTick_faulted hm, admitTick_faulted (hmode.trans hm)]
    exact congrArg Host.Outcome.next (refuseTick_eraseLane c s)

/-- Ticks of states and operands that are alike but for a lane leave states that are alike but for that lane. -/
theorem tick_lane_congr {times : TickOperands → State → Timed} (ht : IsTimes times) {c : Channel}
    {o o' : TickOperands} {s s' : State} (ho : eraseSample c o = eraseSample c o') (hs : s.eraseLane c = s'.eraseLane c) :
    onNext (State.eraseLane c) (admitTick (tickSteps times o) s) =
      onNext (State.eraseLane c) (admitTick (tickSteps times o') s') := by
  rw [← tick_eraseLane ht, ho, hs, tick_eraseLane ht]

/-- Settles O37: each tick is a function of what is not of the lane, on all that is not of the lane. -/
theorem lanesDoNotMix : Obligations.LanesDoNotMix := by
  refine ⟨fun o s s' x h => ?_, fun o s s' x h => ?_⟩
  · exact ⟨tick_lane_congr (c := .right) .delay rfl h, tick_lane_congr (c := .right) (.modulated _ _) rfl h,
      tick_lane_congr (c := .right) (.modulated _ _) rfl h⟩
  · exact ⟨tick_lane_congr (c := .left) .delay rfl h, tick_lane_congr (c := .left) (.modulated _ _) rfl h,
      tick_lane_congr (c := .left) (.modulated _ _) rfl h⟩

/-! ### Ideal arithmetic -/

/-- The feedback bound is the fixed point of one store: an input up to `A` and a carry up to `g` times it (R185). -/
theorem add_mul_feedbackBound {A g : ℝ} (hg : g < 1) : A + g * (A / (1 - g)) = A / (1 - g) := by
  have : (1 - g) ≠ 0 := by linarith
  field_simp
  ring

/-- An interpolation keeps a bound of its two words (R123). -/
theorem abs_lerp_le {a b fr B : ℝ} (ha : |a| ≤ B) (hb : |b| ≤ B) (h0 : 0 ≤ fr) (h1 : fr ≤ 1) :
    |lerp idealNum a b fr| ≤ B := by
  rw [lerp, idealNum_fadd, idealNum_fmul, idealNum_fmul, idealNum_fsub, idealNum_one]
  have h1' : 0 ≤ 1 - fr := sub_nonneg.2 h1
  calc |(1 - fr) * a + fr * b| ≤ |(1 - fr) * a| + |fr * b| := abs_add_le _ _
    _ = (1 - fr) * |a| + fr * |b| := by rw [abs_mul, abs_mul, abs_of_nonneg h1', abs_of_nonneg h0]
    _ ≤ (1 - fr) * B + fr * B := by gcongr
    _ = B := by ring

/-- The mix is the interpolation from the input to the wet sample (R123, R182). -/
theorem mix_eq_lerp (input wet dryWet : ℝ) : mix idealNum input wet dryWet = lerp idealNum input wet dryWet := by
  simp only [mix, lerp, idealNum_fadd, idealNum_fmul, idealNum_fsub, idealNum_one]
  ring

/-- Settles O58: the bound is the fixed point of the store, and the read and the mix are convex. -/
theorem idealFeedbackStaysBounded : Obligations.IdealFeedbackStaysBounded := by
  intro A g input fb a b fr dryWet hg0 hg1 hin hfb ha hb hfr0 hfr1 hdw0 hdw1
  have hfix := add_mul_feedbackBound (A := A) hg1
  have hA : 0 ≤ A := (abs_nonneg _).trans hin
  have hB : 0 ≤ A / (1 - g) := (abs_nonneg _).trans ha
  have hAB : A ≤ A / (1 - g) := by rw [← hfix]; exact le_add_of_nonneg_right (mul_nonneg hg0 hB)
  have hwet : |lerp idealNum a b fr| ≤ A / (1 - g) := abs_lerp_le ha hb hfr0 hfr1
  refine ⟨?_, hwet, ?_, ?_, fun hg => ?_⟩
  · rw [idealNum_fadd, ← hfix]
    exact (abs_add_le _ _).trans (add_le_add hin hfb)
  · rw [carry, idealNum_fmul, abs_mul, abs_of_nonneg hg0, mul_comm]
    exact mul_le_mul_of_nonneg_left hwet hg0
  · rw [mix_eq_lerp]
    exact abs_lerp_le (hin.trans hAB) hwet hdw0 hdw1
  · rw [div_le_iff₀ (by linarith)]
    linarith [mul_nonneg hA (sub_nonneg.2 hg)]

/-- The second slot is the first one advanced (R127). -/
theorem readSlots_i1 {F : Type} {N : Num F} {len w : Nat} {d : F} {sl : Slots F} (h : readSlots N len w d = some sl) :
    sl.i1 = nextHead len sl.i0 := by
  obtain ⟨-, -, -, h0, h1, -⟩ := slotsOf_some h
  exact h1.trans (nextHead_eq_wrap h0).symm

/-- With a delay time from 1 to the length, one wrap brings the position into the buffer (R126). -/
theorem wrapPosition_ideal {len w : ℕ} {d : ℝ} (hw : w < len) (h1 : 1 ≤ d) (hd : d ≤ len) :
    ∃ e : ℤ, wrapPosition idealNum len (rawPosition idealNum w d) = ((w + len * e : ℤ) : ℝ) - d ∧
      0 ≤ ((w + len * e : ℤ) : ℝ) - d ∧ ((w + len * e : ℤ) : ℝ) - d < len := by
  have hw' : (w : ℝ) < len := by exact_mod_cast hw
  rcases lt_or_ge (w : ℝ) d with h | h
  · refine ⟨1, ?_, ?_, ?_⟩
    · rw [wrapPosition_of_neg h]; push_cast; ring
    · push_cast; linarith
    · push_cast; linarith
  · refine ⟨0, ?_, ?_, ?_⟩
    · rw [wrapPosition_of_nonneg h]; push_cast; ring
    · push_cast; linarith
    · push_cast; linarith

/-- Such a delay time is read `⌈D⌉` words behind the advanced head, modulo the length (R113, R125 to R127). -/
theorem readSlots_ideal {len w : ℕ} {d : ℝ} (hw : w < len) (h1 : 1 ≤ d) (hd : d ≤ len) :
    ∃ sl, readSlots idealNum len w d = some sl ∧ sl.i0 ≡ w - ⌈d⌉ [ZMOD len] ∧ sl.i1 ≡ w - ⌈d⌉ + 1 [ZMOD len] ∧
      sl.fr = ⌈d⌉ - d := by
  obtain ⟨e, hpos, h0, hlt⟩ := wrapPosition_ideal hw h1 hd
  have hfloor : ⌊((w + len * e : ℤ) : ℝ) - d⌋ = w - ⌈d⌉ + len * e := by
    rw [sub_eq_add_neg, Int.floor_intCast_add, Int.floor_neg]
    ring
  obtain ⟨sl, hsl⟩ : ∃ sl, readSlots idealNum len w d = some sl := ⟨_, by rw [readSlots, hpos, slotsOf_ideal h0 hlt]⟩
  obtain ⟨-, -, hi0, -, -, hfr⟩ := slotsOf_some hsl
  rw [hpos, idealNum_floor, hfloor] at hi0
  have hmod : (sl.i0 : ℤ) ≡ w - ⌈d⌉ [ZMOD len] := by
    rw [hi0]
    exact Int.modEq_add_fac_self
  refine ⟨sl, hsl, hmod, ?_, ?_⟩
  · rw [readSlots_i1 hsl, nextHead]
    push_cast
    exact (Int.mod_modEq _ _).trans (hmod.add_right 1)
  · have hi0' : (sl.i0 : ℝ) = w - ⌈d⌉ + len * e := by exact_mod_cast hi0
    rw [hfr, hpos, idealNum_itof, idealNum_fsub, hi0']
    push_cast
    ring

/-- A sequence held modulo the length reads alike at congruent indices. -/
theorem periodic_congr {u : ℤ → ℝ} {len : ℤ} (hu : Function.Periodic u len) {x y : ℤ} (h : x ≡ y [ZMOD len]) :
    u x = u y := by
  obtain ⟨c, hc⟩ := h.dvd
  rw [eq_add_of_sub_eq' hc, mul_comm]
  exact (hu.int_mul c x).symm

/-- Settles O59: the second slot has weight `⌈D⌉ − D`; that is 0 for a whole `D`, and `⌈D⌉` is `⌊D⌋ + 1` for any other. -/
theorem idealRealisedDelay : Obligations.IdealRealisedDelay := by
  intro len n d u h1 hd hu
  have hlen : 0 < len := by exact_mod_cast zero_lt_one.trans_le (h1.trans hd)
  obtain ⟨sl, hsl, hi0, hi1, hfr⟩ := readSlots_ideal (Nat.mod_lt (n + 1) hlen) h1 hd
  have hhead : (((n + 1) % len : ℕ) : ℤ) ≡ n + 1 [ZMOD len] := by
    push_cast
    exact Int.mod_modEq _ _
  have hu0 : u sl.i0 = u (n + 1 - ⌈d⌉) := periodic_congr hu (hi0.trans (hhead.sub_right _))
  have hu1 : u sl.i1 = u (n + 1 - ⌈d⌉ + 1) := periodic_congr hu (hi1.trans ((hhead.sub_right _).add_right 1))
  refine ⟨sl, hsl, ?_⟩
  rw [hu0, hu1, hfr, lerp, idealNum_fadd, idealNum_fmul, idealNum_fmul, idealNum_fsub, idealNum_one]
  by_cases hint : d ∈ Set.range Int.cast
  · obtain ⟨k, rfl⟩ := hint
    rw [Int.ceil_intCast, Int.floor_intCast, show (n + 1 - k : ℤ) = n - k + 1 by ring]
    ring
  · rw [(Int.ceil_eq_floor_add_one_iff_notMem d).2 hint, show (n + 1 - (⌊d⌋ + 1) : ℤ) = n - ⌊d⌋ by ring]
    push_cast
    ring

end Sys2Proof.Machine
end

section
/-! SUPPORT. Proofs of the buffer and interpolator family: the ends of the interpolation in binary32, and its convexity, the
reads of the modulated ticks and the delay times beyond the length in ideal arithmetic. -/

namespace Sys2Proof.Machine

/-! ### The ends of the interpolation in binary32 -/

/-- The difference 1 - 0 is 1 (R13). -/
theorem f32Sub_one_zero : f32Sub 0x3F800000 0 = 0x3F800000 := by
  rw [← f32OfNat_one, ← f32OfNat_zero, f32Sub_ofNat (Nat.zero_le _) (by norm_num)]

/-- The difference 1 - 1 is `+0` (R13). -/
theorem f32Sub_one_one : f32Sub 0x3F800000 0x3F800000 = 0 := by
  rw [← f32OfNat_one, f32Sub_ofNat le_rfl (by norm_num), Nat.sub_self, f32OfNat_zero]

/-- The weight 1 keeps the value of a word that is not subnormal (R13, R186). -/
theorem f32Mul_one_left {a : Word} (ha : f32IsFinite a = true) (na : NotSubnormal a) :
    f32IsFinite (f32Mul 0x3F800000 a) = true ∧ f32Rat (f32Mul 0x3F800000 a) = f32Rat a :=
  f32Mul_exact (by decide) ha notSubnormal_one na ha na (by rw [f32Rat_one, one_mul])

/-- The weight `+0` makes a zero of a finite word, of either sign (R13). -/
theorem f32Mul_zero_left {a : Word} (ha : f32IsFinite a = true) (na : NotSubnormal a) :
    f32IsFinite (f32Mul 0 a) = true ∧ f32Rat (f32Mul 0 a) = f32Rat 0 :=
  f32Mul_exact (by decide) ha notSubnormal_zero na (by decide) notSubnormal_zero (by rw [f32Rat_zero, zero_mul])

/-- The interpolation with weight 0 is its first word in value (R123). -/
theorem lerp_num_zero {a b : Word} (ha : f32IsFinite a = true) (hb : f32IsFinite b = true) (na : NotSubnormal a)
    (nb : NotSubnormal b) : f32IsFinite (lerp num a b 0) = true ∧ f32Rat (lerp num a b 0) = f32Rat a := by
  rw [lerp, num_fadd, num_fmul, num_fsub, num_one, f32Sub_one_zero]
  obtain ⟨fa, va⟩ := f32Mul_one_left ha na
  obtain ⟨fb, vb⟩ := f32Mul_zero_left hb nb
  exact f32Add_exact fa fb (notSubnormal_of_rat_eq va na) (notSubnormal_of_rat_eq vb notSubnormal_zero) ha na
    (by rw [va, vb, f32Rat_zero, add_zero])

/-- The interpolation with weight 1 is its second word in value (R123). -/
theorem lerp_num_one {a b : Word} (ha : f32IsFinite a = true) (hb : f32IsFinite b = true) (na : NotSubnormal a)
    (nb : NotSubnormal b) :
    f32IsFinite (lerp num a b 0x3F800000) = true ∧ f32Rat (lerp num a b 0x3F800000) = f32Rat b := by
  rw [lerp, num_fadd, num_fmul, num_fsub, num_one, f32Sub_one_one]
  obtain ⟨fa, va⟩ := f32Mul_zero_left ha na
  obtain ⟨fb, vb⟩ := f32Mul_one_left hb nb
  exact f32Add_exact fa fb (notSubnormal_of_rat_eq va notSubnormal_zero) (notSubnormal_of_rat_eq vb nb) hb nb
    (by rw [va, vb, f32Rat_zero, zero_add])

/-- Settles O47: at each end one product is exact, the other is a zero, and their sum is exact. -/
theorem lerpEndpoints : Obligations.LerpEndpoints := by
  intro a b ha hb na nb
  obtain ⟨f0, v0⟩ := lerp_num_zero ha hb na nb
  obtain ⟨f1, v1⟩ := lerp_num_one ha hb na nb
  exact ⟨f0, v0, f1, v1⟩

/-! ### The interpolation in ideal arithmetic -/

theorem lerp_ideal (a b fr : ℝ) : lerp idealNum a b fr = (1 - fr) * a + fr * b := rfl

/-- Settles O54: the two weights are not negative and have the sum 1. -/
theorem idealLerpIsConvex : Obligations.IdealLerpIsConvex := by
  intro a b fr h0 h1
  have h1' : 0 ≤ 1 - fr := sub_nonneg.2 h1
  have hsum : 1 - fr + fr = 1 := sub_add_cancel 1 fr
  simp only [lerp_ideal]
  refine ⟨?_, ?_, by ring, by ring, by ring⟩
  · simpa only [smul_eq_mul] using Convex.min_le_combo a b h1' h0 hsum
  · simpa only [smul_eq_mul] using Convex.combo_le_max a b h1' h0 hsum

/-! ### The reads of the modulated ticks in ideal arithmetic -/

/-- A delay time from 0 to `W + LEN` has slots: the position, wrapped once where it is negative, is in the buffer (R126,
R127). -/
theorem readSlots_ideal_ne_none {len w : ℕ} {d : ℝ} (hw : w < len) (h0 : 0 ≤ d) (hd : d ≤ w + len) :
    readSlots idealNum len w d ≠ none := by
  have hw' : (w : ℝ) < len := by exact_mod_cast hw
  rw [readSlots]
  rcases lt_or_ge (w : ℝ) d with h | h
  · rw [wrapPosition_of_neg h, slotsOf_ideal (by linarith) (by linarith)]
    exact Option.some_ne_none _
  · rw [wrapPosition_of_nonneg h, slotsOf_ideal (by linarith) (by linarith)]
    exact Option.some_ne_none _

/-- The scaled LFO value stays in `[-1, 1]` with the depth in `[0, 1]` (R162, R164). -/
theorem lfoValue_ideal_mem {depth : ℝ} (ph : ℝ) (h0 : 0 ≤ depth) (h1 : depth ≤ 1) :
    lfoValue idealNum ph depth ∈ Set.Icc (-1) 1 := by
  rw [lfoValue, idealNum_fmul, idealNum_sin2pi, Set.mem_Icc, ← abs_le, abs_mul, abs_of_nonneg h0]
  exact mul_le_one₀ (Real.abs_sin_le_one _) h0 h1

/-- The map takes `[-1, 1]` into its range: it is the interpolation from `lo` to `hi` with weight `(v + 1) / 2` (R166). -/
theorem mapTime_ideal_mem {lo hi v : ℝ} (hlo : lo ≤ hi) (hv : v ∈ Set.Icc (-1) 1) :
    mapTime idealNum lo hi v ∈ Set.Icc lo hi := by
  obtain ⟨h0, h1⟩ := hv
  have hmap : mapTime idealNum lo hi v = lerp idealNum lo hi ((v + 1) / 2) := by
    rw [lerp_ideal, mapTime]
    simp only [idealNum_fadd, idealNum_fmul, idealNum_fsub, idealNum_fdiv, idealNum_one, idealNum_two]
    ring
  obtain ⟨hmin, hmax, -⟩ := idealLerpIsConvex lo hi ((v + 1) / 2) (by linarith) (by linarith)
  rw [hmap]
  exact ⟨by rwa [min_eq_left hlo] at hmin, by rwa [max_eq_right hlo] at hmax⟩

/-- The delay time of a modulated tick is between the ends of its range, in samples (R166, R167). -/
theorem modulatedTime_ideal_mem {lo hi sr depth : ℝ} (ph : ℝ) (hlo : lo ≤ hi) (hsr : 0 ≤ sr) (h0 : 0 ≤ depth)
    (h1 : depth ≤ 1) : modulatedTime idealNum lo hi sr depth ph ∈ Set.Icc (sr * lo) (sr * hi) := by
  obtain ⟨hl, hh⟩ := mapTime_ideal_mem hlo (lfoValue_ideal_mem ph h0 h1)
  exact ⟨mul_le_mul_of_nonneg_left hl hsr, mul_le_mul_of_nonneg_left hh hsr⟩

/-- A buffer of `floor(2 SR)` words that holds at least one word holds more than `SR` of them (R191). -/
theorem sampleRate_lt_length {sr : ℝ} {len : ℕ} (h0 : 0 < len) (hlen : (len : ℤ) = ⌊sr * 2⌋) : sr < len := by
  have h1 : (1 : ℝ) ≤ len := by exact_mod_cast h0
  have h2 : sr * 2 < len + 1 := by
    have h := Int.lt_floor_add_one (sr * 2)
    rwa [← hlen, Int.cast_natCast] at h
  linarith

/-- A modulated tick whose range lies within `[0, 1]` seconds has slots on every read (R170, R171). -/
theorem readSlots_modulatedTime_ne_none {lo hi sr depth : ℝ} {len w : ℕ} (ph : ℝ) (h0lo : 0 ≤ lo) (hlo : lo ≤ hi)
    (hhi : hi ≤ 1) (hsr : 0 ≤ sr) (h0 : 0 ≤ depth) (h1 : depth ≤ 1) (hlen : (len : ℤ) = ⌊sr * 2⌋) (hw : w < len) :
    readSlots idealNum len w (modulatedTime idealNum lo hi sr depth ph) ≠ none := by
  obtain ⟨hl, hh⟩ := modulatedTime_ideal_mem ph hlo hsr h0 h1
  refine readSlots_ideal_ne_none hw ((mul_nonneg hsr h0lo).trans hl) ?_
  calc modulatedTime idealNum lo hi sr depth ph ≤ sr * hi := hh
    _ ≤ sr := mul_le_of_le_one_right hsr hhi
    _ ≤ len := (sampleRate_lt_length (Nat.zero_lt_of_lt hw) hlen).le
    _ ≤ w + len := le_add_of_nonneg_left (Nat.cast_nonneg w)

/-- Settles O56: both ranges lie within a second, and the buffer holds more. -/
theorem idealModulatedReadsHaveSlots : Obligations.IdealModulatedReadsHaveSlots := by
  intro sr depth ph len w hsr h0 h1 hlen hw
  rw [idealNum_chorusLo, idealNum_chorusHi, idealNum_flangerLo, idealNum_flangerHi]
  exact ⟨readSlots_modulatedTime_ne_none ph (by norm_num) (by norm_num) (by norm_num) hsr.le h0 h1 hlen hw,
    readSlots_modulatedTime_ne_none ph (by norm_num) (by norm_num) (by norm_num) hsr.le h0 h1 hlen hw⟩

/-! ### Delay times beyond the length in ideal arithmetic -/

/-- Above `W + LEN` the position stays negative after its one wrap (R126, R127). -/
theorem readSlots_ideal_eq_none {len w : ℕ} {d : ℝ} (hd : (w : ℝ) + len < d) : readSlots idealNum len w d = none := by
  have hwd : (w : ℝ) < d := (le_add_of_nonneg_right (Nat.cast_nonneg len)).trans_lt hd
  rw [readSlots, wrapPosition_of_neg hwd, slotsOf_ideal_of_neg (by linarith)]

/-- From above `W` to `W + LEN` the wrap has the effect of a delay time less by the length (R126, R252). -/
theorem readSlots_ideal_sub_length {len w : ℕ} {d : ℝ} (hwd : (w : ℝ) < d) (hd : d ≤ w + len) :
    readSlots idealNum len w d = readSlots idealNum len w (d - len) := by
  rw [readSlots, readSlots, wrapPosition_of_neg hwd, wrapPosition_of_nonneg (sub_le_iff_le_add.2 hd), ← sub_add]

/-- Settles O57: the wrap is taken once, and a delay time above `LEN` is above the head too. -/
theorem idealDelayBeyondTheLength : Obligations.IdealDelayBeyondTheLength := by
  intro len w d hw hd
  have hwd : (w : ℝ) < d := (Nat.cast_lt.2 hw).trans hd
  refine ⟨readSlots_ideal_eq_none, fun h => ⟨?_, readSlots_ideal_sub_length hwd h⟩⟩
  exact readSlots_ideal_ne_none hw ((Nat.cast_nonneg w).trans hwd.le) h

end Sys2Proof.Machine
end

section
/-! SUPPORT. Proofs of the delay-mode family: the smoother rests at its target in binary32, and its closed form in ideal
arithmetic. -/

namespace Sys2Proof.Machine

/-! ### The smoother at its target in binary32 -/

/-- A sum of finite patterns, without the cases of NaN and infinity (R13). -/
theorem f32Sum_of_finite (op : NanSource) (a b : Word) {x y : Word} (hx : f32IsFinite x = true)
    (hy : f32IsFinite y = true) :
    f32Sum op a b x y = if f32Int x + f32Int y = 0 then f32Pack (f32Sign x && f32Sign y) 0
      else f32Round (decide (f32Int x + f32Int y < 0)) (f32Int x + f32Int y).natAbs 1 := by
  obtain ⟨hx1, hx2⟩ := (f32IsFinite_iff x).1 hx
  obtain ⟨hy1, hy2⟩ := (f32IsFinite_iff y).1 hy
  rw [f32Sum, if_neg (by simp [hx1, hx2, hy1]), if_neg (by simp [hx2]), if_neg (by simp [hy2])]

/-- A product of finite patterns, without the cases of NaN and infinity (R13). -/
theorem f32Product_of_finite (a b : Word) {x y : Word} (hx : f32IsFinite x = true) (hy : f32IsFinite y = true) :
    f32Product a b x y = f32Round (f32Sign x != f32Sign y) (f32Mag x * f32Mag y) (2 ^ 149) := by
  obtain ⟨hx1, hx2⟩ := (f32IsFinite_iff x).1 hx
  obtain ⟨hy1, hy2⟩ := (f32IsFinite_iff y).1 hy
  rw [f32Product, if_neg (by simp [hx1, hx2, hy1, hy2]), if_neg (by simp [hx2, hy2])]

/-- The difference of a finite pattern and itself is `+0` (R13). -/
theorem f32Sub_self {x : Word} (hx : f32IsFinite x = true) : f32Sub x x = 0 := by
  have hfin := f32IsFinite_flush hx
  rw [f32Sub, f32Sum_of_finite _ _ _ hfin (by rw [f32IsFinite_neg, hfin]), f32Int_neg, if_pos (Int.add_right_neg _),
    f32Sign_neg, Bool.and_not_self]
  rfl

/-- A product with `+0` is the zero of the other factor's sign (R13). -/
theorem f32Mul_zero_right {a : Word} (ha : f32IsFinite a = true) (na : NotSubnormal a) :
    f32Mul a 0 = f32Pack (f32Sign a) 0 := by
  rw [f32Mul, flushSubnormal_of_not_subnormal a na, flushSubnormal_of_not_subnormal 0 notSubnormal_zero,
    f32Product_of_finite _ _ ha (by decide), show f32Sign 0 = false by decide, Bool.bne_false,
    show f32Mag 0 = 0 by decide, Nat.mul_zero, f32Round_zero _ (by positivity)]

/-- A zero is the packed zero of its sign (R11). -/
theorem f32Pack_sign_zero {x : Word} (h : f32Int x = 0) : f32Pack (f32Sign x) 0 = x := by
  have hb : f32Bits x = 0 := by simpa [f32IsZero] using (f32Int_eq_zero x).1 h
  rw [← hb, f32Pack_self]

/-- The sign of a pattern that is no zero is the sign of its value (R11). -/
theorem decide_f32Int_neg {x : Word} (h : f32Int x ≠ 0) : decide (f32Int x < 0) = f32Sign x := by
  unfold f32Int at h ⊢
  cases f32Sign x
  · simp
  · simp at h ⊢
    omega

/-- A finite pattern that is not subnormal is the rounding of its own sign and magnitude. -/
theorem f32Round_sign_mag {x : Word} (hx : f32IsFinite x = true) (nx : NotSubnormal x) :
    f32Round (f32Sign x) (f32Mag x) 1 = x := by
  have hb := roundBits_exact (f32Bits x) 1 one_pos (f32Bits_le_inf_of_finite hx)
  rw [f32Round, f32Mag, ← Nat.mul_one (magOfBits _), hb, f32Pack_self, flushSubnormal_of_not_subnormal x nx]

/-- Subtracting `+0` keeps a finite pattern that is not subnormal, a zero of either sign included (R13). -/
theorem f32Sub_zero_right {x : Word} (hx : f32IsFinite x = true) (nx : NotSubnormal x) : f32Sub x 0 = x := by
  rw [f32Sub, flushSubnormal_of_not_subnormal x nx, flushSubnormal_of_not_subnormal 0 notSubnormal_zero,
    f32Sum_of_finite _ _ _ hx (by decide), show f32Int (f32Neg 0) = 0 by decide, Int.add_zero]
  split
  · next h => rw [show f32Sign (f32Neg 0) = true by decide, Bool.and_true, f32Pack_sign_zero h]
  · next h => rw [decide_f32Int_neg h, f32Int_natAbs, f32Round_sign_mag hx nx]

/-- Settles O49: the difference is `+0`, so the correction is `+0`, and subtracting it keeps the pattern. -/
theorem smootherRestsAtItsTarget : Obligations.SmootherRestsAtItsTarget := by
  intro sm hfin hsub
  have hcorr : f32Mul 0x38D1B717 0 = 0 := f32Mul_zero_right (by decide) notSubnormal_kSmooth
  rw [smooth, num_fsub, num_fmul, num_kSmooth, f32Sub_self hfin, hcorr, f32Sub_zero_right hfin hsub]

/-! ### The smoother in ideal arithmetic -/

/-- An update scales the distance to the target by 0.9999 (R143). -/
theorem smooth_ideal (sm target : ℝ) :
    smooth idealNum sm target = target + (sm - target) * (9999 / 10000) := by
  rw [smooth, idealNum_fsub, idealNum_fmul, idealNum_fsub, idealNum_kSmooth]
  ring

/-- Settles O53, by induction on the number of updates: each scales the distance to the target once more. -/
theorem idealSmootherClosedForm : Obligations.IdealSmootherClosedForm := by
  intro sm target n
  induction n with
  | zero => rw [Function.iterate_zero_apply, pow_zero, mul_one, add_sub_cancel]
  | succ n ih => rw [Function.iterate_succ_apply', ih, smooth_ideal, add_sub_cancel_left, mul_assoc, pow_succ]

end Sys2Proof.Machine
end

section
/-! SUPPORT. Proofs of the modulated-mode family: the laws of the sine and the delay time at depth 0 in binary32, and the
ranges of the delay times and the advance of the phase in ideal arithmetic. -/

namespace Sys2Proof.Machine

/-! ### The laws of the sine -/

theorem f32Sin2pi_zero : f32Sin2pi 0 = 0 := by
  rw [f32Sin2pi, if_neg (by decide), if_pos rfl]

/-- A NaN or an infinity has no sine (R163). -/
theorem f32Sin2pi_of_not_finite {x : Word} (hx : f32IsFinite x = false) : f32IsNaN (f32Sin2pi x) = true := by
  rw [f32Sin2pi, if_pos (by rcases nan_or_inf_of_not_finite hx with h | h <;> simp [h]), f32IsNaN_f32NaN]

/-- The sine of a finite argument is a pattern whose bits 30:0 are at most those of 1, at `+0` and elsewhere (R163 (a)). -/
theorem f32Bits_sin2pi_le {x : Word} (hx : f32IsFinite x = true) : f32Bits (f32Sin2pi x) ≤ 0x3F800000 := by
  obtain ⟨hnan, hinf⟩ := (f32IsFinite_iff x).1 hx
  rw [f32Sin2pi, if_neg (by simp [hnan, hinf])]
  have hmag : (Config.sineMagnitude x).val ≤ 0x3F800000 := Nat.le_of_lt_succ (Config.sineMagnitude x).isLt
  split
  · decide
  · rwa [f32Bits_pack _ _ (by omega)]

theorem f32IsFinite_sin2pi {x : Word} (hx : f32IsFinite x = true) : f32IsFinite (f32Sin2pi x) = true :=
  decide_eq_true ((f32Bits_sin2pi_le hx).trans_lt (by decide))

/-- Bits 30:0 order the magnitudes, so a pattern with bits up to those of 1 is at most 1 in magnitude. -/
theorem abs_f32Rat_le_one {x : Word} (h : f32Bits x ≤ f32Bits 0x3F800000) : |f32Rat x| ≤ 1 := by
  have hone : |f32Rat 0x3F800000| = 1 := by rw [f32Rat_one, abs_one]
  rw [← hone, abs_f32Rat, abs_f32Rat]
  exact div_le_div_of_nonneg_right (Nat.cast_le.2 (magOfBits_le h)) (by positivity)

theorem abs_f32Rat_sin2pi_le {x : Word} (hx : f32IsFinite x = true) : |f32Rat (f32Sin2pi x)| ≤ 1 :=
  abs_f32Rat_le_one (f32Bits_sin2pi_le hx)

/-- Two values in `[-1, 1]` differ by at most 2, so some bound on the error exists (R163 (d)). -/
theorem sineAccurate_two : SineAccurate 2 := by
  intro x hx _ _
  have hsin : |(f32Rat (f32Sin2pi x) : ℝ)| ≤ 1 := by exact_mod_cast abs_f32Rat_sin2pi_le hx
  calc |(f32Rat (f32Sin2pi x) : ℝ) - Real.sin (2 * Real.pi * (f32Rat x : ℝ))|
      ≤ |(f32Rat (f32Sin2pi x) : ℝ)| + |Real.sin (2 * Real.pi * (f32Rat x : ℝ))| := abs_sub _ _
    _ ≤ 1 + 1 := add_le_add hsin (Real.abs_sin_le_one _)
    _ = 2 := one_add_one_eq_two

/-- Settles O44: the free magnitude of the sine is bounded by the pattern of 1. -/
theorem sineLaws : Obligations.SineLaws :=
  ⟨fun _ hx => ⟨f32IsFinite_sin2pi hx, abs_le.1 (abs_f32Rat_sin2pi_le hx)⟩, f32Sin2pi_zero,
    fun _ hx => f32Sin2pi_of_not_finite hx, sineAccurate_two⟩

/-! ### The delay time at depth 0 -/

/-- The LFO value at depth 0 is a zero; its sign is that of the sine, which is open (R163, R164). -/
theorem lfoValue_depth_zero {ph : Word} (hph : f32IsFinite ph = true) : ∃ s, lfoValue num ph 0 = f32Pack s 0 := by
  have hround := f32Mul_rounds (f32IsFinite_sin2pi hph) (b := 0) (by decide)
  rw [flushSubnormal_of_not_subnormal 0 notSubnormal_zero, f32Rat_zero, mul_zero] at hround
  have hval : f32Rat (f32Mul (f32Sin2pi ph) 0) = 0 :=
    (hround.exact (z := 0) (by decide) notSubnormal_zero f32Rat_zero.symm).trans f32Rat_zero
  exact ⟨_, (f32Pack_sign_zero ((f32Int_eq_zero _).2 ((f32Rat_eq_zero _).1 hval))).symm⟩

/-- The map takes a zero of either sign to the middle of each range, rounded (R166). -/
theorem mapTime_zero (s : Bool) :
    mapTime num num.chorusLo num.chorusHi (f32Pack s 0) = 0x3B449BA6 ∧
    mapTime num num.flangerLo num.flangerHi (f32Pack s 0) = 0x3C8F5C28 := by
  cases s <;> decide +kernel

/-- Settles O52: whatever the sine, its product with `+0` is a zero, and the map does not tell the two zeros apart. -/
theorem depthZeroIgnoresTheSine : Obligations.DepthZeroIgnoresTheSine := by
  intro sr ph hph
  obtain ⟨s, hs⟩ := lfoValue_depth_zero hph
  obtain ⟨hchorus, hflanger⟩ := mapTime_zero s
  rw [modulatedTime, modulatedTime, hs, hchorus, hflanger]
  exact ⟨rfl, rfl⟩

/-! ### The ranges of the delay times in ideal arithmetic -/

theorem mapTime_ideal (lo hi v : ℝ) : mapTime idealNum lo hi v = lo + (hi - lo) * ((v + 1) / 2) := rfl

/-- Settles O55: the map keeps the scaled sine in each range, and its three points are a computation. -/
theorem idealDelayTimesStayInRange : Obligations.IdealDelayTimesStayInRange := by
  constructor
  · intro sr depth ph hsr h0 h1
    rw [idealNum_chorusLo, idealNum_chorusHi, idealNum_flangerLo, idealNum_flangerHi]
    obtain ⟨hcl, hch⟩ := modulatedTime_ideal_mem (lo := 1 / 1000) (hi := 5 / 1000) ph (by norm_num) hsr h0 h1
    obtain ⟨hfl, hfh⟩ := modulatedTime_ideal_mem (lo := 5 / 1000) (hi := 3 / 100) ph (by norm_num) hsr h0 h1
    simp only [mul_comm _ sr]
    exact ⟨hcl, hch, hfl, hfh⟩
  · intro lo hi
    simp only [mapTime_ideal]
    exact ⟨by ring, by ring, by ring⟩

/-! ### The phase in ideal arithmetic -/

/-- The phase advance: one whole cycle is taken off above 1 (R168). -/
theorem advancePhase_ideal (ph rate sr : ℝ) :
    advancePhase idealNum ph rate sr = if 1 < ph + rate / sr then ph + rate / sr - 1 else ph + rate / sr := by
  simp only [advancePhase, wrapPhase, idealNum_lt, idealNum_one, idealNum_fadd, idealNum_fdiv, idealNum_fsub,
    decide_eq_true_eq]

/-- With an increment in `[0, 1]` the advance keeps `[0, 1]` (R168). -/
theorem advancePhase_ideal_mapsTo {rate sr : ℝ} (h0 : 0 ≤ rate / sr) (h1 : rate / sr ≤ 1) :
    Set.MapsTo (fun x => advancePhase idealNum x rate sr) (Set.Icc 0 1) (Set.Icc 0 1) := by
  rintro x ⟨hx0, hx1⟩
  simp only [advancePhase_ideal]
  split
  · constructor <;> linarith
  · constructor <;> linarith

/-- The advance adds the increment up to a whole number of cycles (R172). -/
theorem advancePhase_ideal_eq_sub_int (ph rate sr : ℝ) :
    ∃ k : ℤ, advancePhase idealNum ph rate sr = ph + rate / sr - k := by
  rw [advancePhase_ideal]
  split
  · exact ⟨1, by rw [Int.cast_one]⟩
  · exact ⟨0, by rw [Int.cast_zero, sub_zero]⟩

/-- After `n` advances the phase has gained `n` increments up to a whole number of cycles (R172). -/
theorem advancePhase_ideal_iterate (ph rate sr : ℝ) (n : ℕ) :
    ∃ k : ℤ, (fun x => advancePhase idealNum x rate sr)^[n] ph = ph + n * (rate / sr) - k := by
  induction n with
  | zero => exact ⟨0, by simp⟩
  | succ n ih =>
    obtain ⟨k, hk⟩ := ih
    obtain ⟨j, hj⟩ := advancePhase_ideal_eq_sub_int (ph + n * (rate / sr) - k) rate sr
    refine ⟨k + j, ?_⟩
    rw [Function.iterate_succ_apply', hk, hj]
    push_cast
    ring

/-- Settles O60: every advance keeps `[0, 1]` and adds the increment up to whole cycles, so `n` of them do. -/
theorem idealPhaseAdvances : Obligations.IdealPhaseAdvances := by
  intro ph rate sr n hp0 hp1 hr0 hr1
  obtain ⟨h0, h1⟩ := (advancePhase_ideal_mapsTo hr0 hr1).iterate n ⟨hp0, hp1⟩
  exact ⟨h0, h1, advancePhase_ideal_iterate ph rate sr n⟩

end Sys2Proof.Machine
end

section
/-! SUPPORT. Proofs of the configure-and-process family: which sample rates are valid and their lengths, and the effects of
`CFG` and `NOP`. -/

namespace Sys2Proof.Machine

/-! ### Patterns and their values -/

/-- The finite patterns are those below `2^128` in magnitude. -/
theorem f32IsFinite_iff_abs_lt (x : Word) : f32IsFinite x = true ↔ |f32Rat x| < 2 ^ 128 := by
  have hmag : f32Bits x < infBits ↔ f32Mag x < 2 ^ 24 * 2 ^ 253 := by
    rw [← magOfBits_infBits, f32Mag, ← not_le, ← not_le, magOfBits_le_iff]
  rw [f32IsFinite, decide_eq_true_eq, hmag, abs_f32Rat, div_lt_iff₀ (by positivity)]
  norm_cast

/-- No value lies between a pattern of positive sign and the next one. -/
theorem f32Rat_le_or_ge_next (x : Word) {z z' : Word} (hz : f32Sign z = false) (hz' : f32Sign z' = false)
    (hb : f32Bits z' = f32Bits z + 1) : f32Rat x ≤ f32Rat z ∨ f32Rat z' ≤ f32Rat x := by
  rw [f32Rat_eq z, f32Rat_eq z', hz, hz', f32Rat_eq x]
  cases f32Sign x with
  | true =>
    left
    have hle : -(f32Mag x : ℚ) ≤ f32Mag z := (neg_nonpos.2 (Nat.cast_nonneg _)).trans (Nat.cast_nonneg _)
    exact div_le_div_of_nonneg_right (by simpa using hle) (by positivity)
  | false =>
    rcases Nat.lt_or_ge (f32Bits z) (f32Bits x) with h | h
    · have hle : f32Mag z' ≤ f32Mag x := magOfBits_le (by omega)
      exact .inr (div_le_div_of_nonneg_right (by simpa using hle) (by positivity))
    · have hle : f32Mag x ≤ f32Mag z := magOfBits_le h
      exact .inl (div_le_div_of_nonneg_right (by simpa using hle) (by positivity))

/-- Flushing keeps the value or makes it 0 (R186). -/
theorem f32Rat_flush_cases (x : Word) : f32Rat (flushSubnormal x) = f32Rat x ∨ f32Rat (flushSubnormal x) = 0 := by
  rcases flushSubnormal_cases x with e | ⟨-, e⟩ <;> rw [e]
  · exact .inl rfl
  · exact .inr (f32Rat_pack_zero _)

theorem notSubnormal_of_half_le {x : Word} (h : 1 / 2 ≤ f32Rat x) : NotSubnormal x :=
  notSubnormal_of_ge (le_trans (by norm_num) (h.trans (le_abs_self _)))

/-- A value of at least 1/2 is not flushed (R186). -/
theorem flushSubnormal_of_half_le {x : Word} (h : 1 / 2 ≤ f32Rat x) : flushSubnormal x = x :=
  flushSubnormal_of_not_subnormal x (notSubnormal_of_half_le h)

/-- The comparison of patterns that are no NaN compares the flushed values (R13, R186). -/
theorem f32Le_iff (a b : Word) :
    f32Le a b = true ↔ f32IsNaN a = false ∧ f32IsNaN b = false ∧
      f32Rat (flushSubnormal a) ≤ f32Rat (flushSubnormal b) := by
  rw [f32Rat, f32Rat, div_le_div_iff_of_pos_right (by positivity), Int.cast_le]
  simp [f32Le, and_assoc]

/-- The floor in either mode of R186. -/
theorem f32Floor_eq_floor_flush (p : Word) : f32Floor p = ⌊f32Rat (flushSubnormal p)⌋ := by
  rw [f32Floor, f32Rat]
  exact_mod_cast (Rat.floor_intCast_div_natCast (f32Int (flushSubnormal p)) (2 ^ 149)).symm

/-! ### The valid sample rates -/

theorem f32Rat_half : f32Rat 0x3F000000 = 1 / 2 := by
  rw [f32Rat, show f32Int 0x3F000000 = 2 ^ 148 from rfl]; norm_num

theorem f32Rat_maxRate : f32Rat 0x4B000000 = 2 ^ 23 := by
  rw [f32Rat, show f32Int 0x4B000000 = 2 ^ 172 from rfl]; norm_num

/-- The range of the valid sample rates: from 0.5 to 8 388 608 (R191). -/
def InRateRange (sr : Word) : Prop := 1 / 2 ≤ f32Rat sr ∧ f32Rat sr ≤ 2 ^ 23

theorem InRateRange.finite {sr : Word} (h : InRateRange sr) : f32IsFinite sr = true := by
  rw [f32IsFinite_iff_abs_lt, abs_of_nonneg (le_trans (by norm_num) h.1)]
  exact lt_of_le_of_lt h.2 (by norm_num)

/-- A pattern below 1/2 is at most the one before it. -/
theorem half_le_or_le_pred (x : Word) : f32Rat x ≤ (2 ^ 24 - 1) / 2 ^ 25 ∨ 1 / 2 ≤ f32Rat x := by
  have hpred : f32Rat 0x3EFFFFFF = (2 ^ 24 - 1) / 2 ^ 25 := by
    rw [f32Rat, show f32Int 0x3EFFFFFF = (2 ^ 24 - 1) * 2 ^ 124 from rfl]; norm_num
  rw [← hpred, ← f32Rat_half]
  exact f32Rat_le_or_ge_next x (by decide) (by decide) (by decide)

/-- A pattern above `2^23` is at least the one after it, a whole unit more. -/
theorem le_maxRate_or_ge_succ (x : Word) : f32Rat x ≤ 2 ^ 23 ∨ 2 ^ 23 + 1 ≤ f32Rat x := by
  have hsucc : f32Rat 0x4B000001 = 2 ^ 23 + 1 := by
    rw [f32Rat, show f32Int 0x4B000001 = (2 ^ 23 + 1) * 2 ^ 149 from rfl]; norm_num
  rw [← hsucc, ← f32Rat_maxRate]
  exact f32Rat_le_or_ge_next x (by decide) (by decide) (by decide)

/-- The range is that of the lengths `floor(2 s)` from 1 to `LEN_MAX` (R191, R195 (f)). -/
theorem inRateRange_iff_floor (sr : Word) : InRateRange sr ↔ 1 ≤ ⌊2 * f32Rat sr⌋ ∧ ⌊2 * f32Rat sr⌋ ≤ 2 ^ 24 := by
  rw [InRateRange, Int.le_floor, ← Int.lt_add_one_iff, Int.floor_lt]
  push_cast
  refine and_congr ⟨fun h => by linarith, fun h => by linarith⟩ ⟨fun h => by linarith, fun h => ?_⟩
  exact (le_maxRate_or_ge_succ sr).resolve_right fun hs => by linarith

/-- The model's comparisons with the two ends say the range (R191). -/
theorem f32Le_ends_iff (sr : Word) : f32Le 0x3F000000 sr = true ∧ f32Le sr 0x4B000000 = true ↔ InRateRange sr := by
  have hhalf : flushSubnormal 0x3F000000 = 0x3F000000 := flushSubnormal_of_half_le f32Rat_half.ge
  have hmax : flushSubnormal 0x4B000000 = 0x4B000000 :=
    flushSubnormal_of_half_le (by rw [f32Rat_maxRate]; norm_num)
  rw [f32Le_iff, f32Le_iff, hhalf, hmax, f32Rat_half, f32Rat_maxRate]
  constructor
  · rintro ⟨⟨-, -, hlo⟩, -, -, hhi⟩
    rcases f32Rat_flush_cases sr with e | e <;> rw [e] at hlo hhi
    · exact ⟨hlo, hhi⟩
    · norm_num at hlo
  · intro h
    have hnan := ((f32IsFinite_iff sr).1 h.finite).1
    rw [flushSubnormal_of_half_le h.1]
    exact ⟨⟨by decide, hnan, h.1⟩, hnan, by decide, h.2⟩

/-! ### The length of a sample rate -/

/-- What the validity test asks, and the length it answers (R191). -/
theorem bufferLength_eq_some_iff {F : Type} {N : Num F} {sr : F} {n : ℕ} :
    bufferLength N sr = some n ↔
      (N.isNaN sr = false ∧ N.isInf sr = false) ∧ N.lt N.zero sr = true ∧ N.isInf (N.fmul sr N.two) = false ∧
      (n : ℤ) = N.floor (N.fmul sr N.two) ∧ 1 ≤ n ∧ n ≤ Config.lenMax := by
  rw [bufferLength]
  generalize N.floor (N.fmul sr N.two) = q
  split
  · next hbad =>
    simp only [Bool.or_eq_true, Bool.not_eq_true'] at hbad
    simp only [reduceCtorEq, false_iff]
    rintro ⟨⟨hnan, hinf⟩, hpos, -⟩
    simp [hnan, hinf, hpos] at hbad
  · next hok =>
    simp only [Bool.or_eq_true, Bool.not_eq_true', not_or, Bool.not_eq_true, Bool.not_eq_false] at hok
    split
    · next hinf => simp [hinf]
    · next hinf =>
      split
      · next hq => simp only [hok, hinf, Option.some.injEq, true_and]; omega
      · next hq => simp only [reduceCtorEq, false_iff]; omega

/-- The doubling of the validity test is one rounding of twice the flushed value (R191). -/
theorem f32Mul_two_rounds {sr : Word} (h : f32IsFinite sr = true) :
    RoundsTo (2 * f32Rat (flushSubnormal sr)) (f32Mul sr 0x40000000) := by
  have hr := f32Mul_rounds h (b := 0x40000000) (by decide)
  rwa [flushSubnormal_of_not_subnormal 0x40000000 notSubnormal_two, f32Rat_two, mul_comm] at hr

/-- Doubling a sample rate of the range is exact. -/
theorem InRateRange.f32Mul_two {sr : Word} (h : InRateRange sr) :
    f32IsFinite (f32Mul sr 0x40000000) = true ∧ f32Rat (f32Mul sr 0x40000000) = 2 * f32Rat sr := by
  obtain ⟨sh, m, -, -, hm, hmag⟩ := magOfBits_cases (f32Bits sr)
  have hval : f32Rat sr = ((m * 2 ^ sh : ℕ) : ℚ) / 2 ^ 149 := by
    rw [← abs_of_nonneg (le_trans (by norm_num) h.1), abs_f32Rat, f32Mag, hmag]
  have hdouble : ((m * 2 ^ (sh + 1) : ℕ) : ℚ) / 2 ^ 149 = 2 * f32Rat sr := by
    rw [hval, pow_succ]; push_cast; ring
  have hlt : m * 2 ^ (sh + 1) < 2 ^ 24 * 2 ^ 253 := by
    have h2 : ((m * 2 ^ (sh + 1) : ℕ) : ℚ) ≤ 2 ^ 173 := by
      rw [div_eq_iff (by positivity)] at hdouble
      rw [hdouble]; linarith [h.2]
    exact lt_of_le_of_lt (by exact_mod_cast h2 : _ ≤ 2 ^ 173) (by norm_num)
  obtain ⟨z, hz, hv⟩ := exists_f32Rat_eq hm.le hlt
  rw [hdouble] at hv
  have nz : NotSubnormal z := notSubnormal_of_half_le (by rw [hv]; linarith [h.1])
  have hr := f32Mul_two_rounds h.finite
  rw [flushSubnormal_of_half_le h.1, ← hv] at hr
  exact ⟨hr.finite hz le_rfl, (hr.exact hz nz rfl).trans hv⟩

/-- A doubled sample rate with a floor from 1 to `LEN_MAX` is in the range: no rounding crosses either end. -/
theorem inRateRange_of_floor {sr : Word} (hf : f32IsFinite sr = true) (h1 : 1 ≤ f32Floor (f32Mul sr 0x40000000))
    (h2 : f32Floor (f32Mul sr 0x40000000) ≤ 2 ^ 24) : InRateRange sr := by
  have hr := f32Mul_two_rounds hf
  rw [f32Floor_eq_floor_flush] at h1 h2
  have hlo : 1 ≤ f32Rat (flushSubnormal (f32Mul sr 0x40000000)) := by simpa using Int.le_floor.1 h1
  have hhi : f32Rat (flushSubnormal (f32Mul sr 0x40000000)) < 2 ^ 24 + 1 := by
    exact_mod_cast Int.floor_lt.1 (Int.lt_add_one_iff.2 h2)
  have hkept := (f32Rat_flush_cases (f32Mul sr 0x40000000)).resolve_right (by linarith)
  rw [hkept] at hlo hhi
  constructor
  · refine (half_le_or_le_pred sr).resolve_left fun hle => ?_
    have hpred : f32Rat 0x3F7FFFFF = (2 ^ 24 - 1) / 2 ^ 24 := by
      rw [f32Rat, show f32Int 0x3F7FFFFF = (2 ^ 24 - 1) * 2 ^ 125 from rfl]; norm_num
    have hle' : f32Rat (flushSubnormal sr) ≤ (2 ^ 24 - 1) / 2 ^ 25 := by
      rcases f32Rat_flush_cases sr with e | e <;> rw [e]
      · exact hle
      · norm_num
    have := hr.le (z := 0x3F7FFFFF) (by decide) (by rw [NotSubnormal]; decide) (by rw [hpred]; linarith)
    linarith
  · refine (le_maxRate_or_ge_succ sr).resolve_right fun hge => ?_
    have hsucc : f32Rat 0x4B800001 = 2 ^ 24 + 2 := by
      rw [f32Rat, show f32Int 0x4B800001 = (2 ^ 24 + 2) * 2 ^ 149 from rfl]; norm_num
    rw [flushSubnormal_of_half_le (by linarith)] at hr
    have := hr.ge (z := 0x4B800001) (by decide) (by rw [NotSubnormal]; decide) (by rw [hsucc]; linarith)
    linarith

/-- The valid sample rates are those of the range, with the floor of twice the value as the length (R191). -/
theorem bufferLength_eq_some_iff_floor {sr : Word} {n : ℕ} :
    bufferLength num sr = some n ↔ InRateRange sr ∧ (n : ℤ) = ⌊2 * f32Rat sr⌋ := by
  have hfloor (h : InRateRange sr) : f32Floor (f32Mul sr 0x40000000) = ⌊2 * f32Rat sr⌋ := by
    rw [f32Floor_eq_floor_flush, flushSubnormal_of_half_le, h.f32Mul_two.2]
    rw [h.f32Mul_two.2]; linarith [h.1]
  rw [bufferLength_eq_some_iff, num_isNaN, num_isInf, ← f32IsFinite_iff, num_lt, num_zero, num_fmul, num_two,
    num_floor, show Config.lenMax = 2 ^ 24 from rfl]
  constructor
  · rintro ⟨hf, -, -, hn, h1, h2⟩
    have h := inRateRange_of_floor hf (by omega) (by omega)
    exact ⟨h, hn.trans (hfloor h)⟩
  · rintro ⟨h, hn⟩
    obtain ⟨h1, h2⟩ := (inRateRange_iff_floor sr).1 h
    have hpos : f32Lt 0 sr = true := by
      rw [f32Lt_iff (by decide) h.finite, flushSubnormal_of_not_subnormal 0 notSubnormal_zero, f32Rat_zero,
        flushSubnormal_of_half_le h.1]
      linarith [h.1]
    exact ⟨h.finite, hpos, ((f32IsFinite_iff _).1 h.f32Mul_two.1).2, hn.trans (hfloor h).symm, by omega, by omega⟩

/-- Settles O14: doubling is exact in the range of the valid sample rates, and outside it no rounding brings the floor back
between 1 and `LEN_MAX`. -/
theorem bufferLengthIsFloorOfTwice : Obligations.BufferLengthIsFloorOfTwice := by
  refine ⟨fun sr n => ?_, fun sr => ?_⟩
  · rw [bufferLength_eq_some_iff_floor, inRateRange_iff_floor]
    constructor
    · rintro ⟨h, hn⟩
      have hr := (inRateRange_iff_floor sr).2 h
      exact ⟨hr.finite, by linarith [hr.1], hn, by omega, by omega⟩
    · rintro ⟨-, -, hn, h1, h2⟩
      exact ⟨by omega, hn⟩
  · rw [Option.isSome_iff_exists, f32Le_ends_iff]
    constructor
    · rintro ⟨n, h⟩
      exact (bufferLength_eq_some_iff_floor.1 h).1
    · intro h
      have h1 := ((inRateRange_iff_floor sr).1 h).1
      exact ⟨⌊2 * f32Rat sr⌋.toNat, bufferLength_eq_some_iff_floor.2 ⟨h, Int.toNat_of_nonneg (by omega)⟩⟩

/-! ### `CFG` and `NOP` -/

theorem exec_cfg (tb : BitVec 2) (sr blk rate : Word) (s : State) :
    exec (.cfg tb sr blk rate) s = execCfg sr blk rate s := rfl

/-- A valid `CFG` fills both buffers with zeros (R192). -/
theorem read_buf_configure (sr blk rate : Word) (n : ℕ) (s : State) (c : Channel) (i : ℕ) :
    Memory.read ((configure sr blk rate n s).buf c) i = 0 := by
  cases c <;> rfl

/-- A valid `CFG` neither clears nor raises a fault (R192, R225). -/
theorem mode_configure_eq_faulted (sr blk rate : Word) (n : ℕ) (s : State) :
    (configure sr blk rate n s).mode = .faulted ↔ s.mode = .faulted := by
  rw [mode_eq_faulted, mode_eq_faulted, configure_status, statusFlt_withCfg]

/-- A second valid `CFG` with the same operands changes nothing more (R194). -/
theorem configure_idem (sr blk rate : Word) (n : ℕ) (s : State) :
    configure sr blk rate n (configure sr blk rate n s) = configure sr blk rate n s := by
  simp only [configure, statusWithCfg_idem]

/-- Settles O15: the effects are those of `configure`, and the length fits its register. -/
theorem validCfgEffects : Obligations.ValidCfgEffects := by
  intro tb sr blk rate s n hm hn
  have hlen : (configure sr blk rate n s).len.toNat = n := by rw [configure_len, bufferLength_toNat hn]
  refine ⟨configure sr blk rate n s, execCfg_some hm hn, configure_sr .., configure_blk .., hlen,
    (bufferLength_eq_some_iff_floor.1 hn).2, read_buf_configure sr blk rate n s, configure_w .., configure_sm .., ?_⟩
  simp only [configure_status, statusCfg_withCfg, statusErr_withCfg, statusFlt_withCfg, statusFch_withCfg,
    statusReserved_withCfg, configure_ph, configure_fbL, configure_fbR, configure_params, configure_outL, configure_outR,
    configure_done, configure_inbox, configure_freeIdx, and_self]

/-- Settles O16: the report writes `CFG` and `ERR` only. -/
theorem invalidCfgReports : Obligations.InvalidCfgReports := by
  intro tb sr blk rate s hm hn
  exact ⟨statusWithCfg false true s.status, execCfg_none hm hn, statusCfg_withCfg .., statusErr_withCfg ..,
    statusFlt_withCfg .., statusFch_withCfg .., statusReserved_withCfg ..⟩

/-- Settles O17: in mode `FAULTED` a `CFG` does nothing, and in any other mode `configure` is idempotent. -/
theorem cfgIsIdempotent : Obligations.CfgIsIdempotent := by
  intro tb tb' sr blk rate s t n hn he
  rw [exec_cfg] at he ⊢
  by_cases hm : s.mode = .faulted
  · rw [execCfg_faulted hm] at he
    obtain rfl := Host.Outcome.next.inj he
    exact ⟨execCfg_faulted hm, fun h => absurd hm h⟩
  · rw [execCfg_some hm hn] at he
    obtain rfl := Host.Outcome.next.inj he
    have hm' := mt (mode_configure_eq_faulted sr blk rate n s).1 hm
    refine ⟨by rw [execCfg_some hm' hn, configure_idem], fun _ => ?_⟩
    exact ⟨read_buf_configure sr blk rate n s, configure_w .., configure_sm .., configure_ph .., configure_fbL ..,
      configure_fbR ..⟩

/-- Settles O13: `NOP` decodes from its own encoding (O2), and `exec` answers the state as it is. -/
theorem nopChangesNothing : Obligations.NopChangesNothing := fun tb _ => ⟨decodeReadsEncodedWords (.nop tb) [], rfl⟩

end Sys2Proof.Machine
end

section
/-! SUPPORT. Proofs of the exceptions family: what mode `FAULTED` refuses, how it is left, the table of modes, what an
underflow commits, and the cause of each command. -/

namespace Sys2Proof.Machine

/-! ### Mode `FAULTED` -/

/-- Outside mode `FAULTED` no cause is recorded (R225). -/
theorem statusFlt_eq_zero {s : State} (h : s.mode ≠ .faulted) : statusFlt s.status = 0 :=
  not_not.1 (mt (mode_eq_faulted s).2 h)

/-- What leaves all but the output ports leaves `STATUS`. -/
theorem NextButOutputs.status {t u : State} (h : NextButOutputs (.next t) u) : t.status = u.status := by
  obtain ⟨_, _, _, e⟩ := h
  rw [Host.Outcome.next.inj e]

/-- In mode `FAULTED` an instruction leaves the state but for the output ports (R219). -/
theorem exec_faulted (i : Instr) {s : State} (h : s.mode = .faulted) : NextButOutputs (exec i s) s := by
  have refused {o : TickOperands} (hi : i ∈ formatT o) : NextButOutputs (exec i s) s :=
    (admissionOrder o i s hi).1 ((mode_eq_faulted s).1 h)
  cases i with
  | nop tb => exact ⟨_, _, _, rfl⟩
  | cfg tb sr blk rate => exact ⟨_, _, _, execCfg_faulted h⟩
  | reservedCmdOp3 tb => exact ⟨_, _, _, execReservedCmdOp3_faulted h⟩
  | tickDelay o => exact refused (o := o) (by simp [formatT])
  | tickChorus o => exact refused (o := o) (by simp [formatT])
  | tickFlanger o => exact refused (o := o) (by simp [formatT])
  | reservedTickType3 o => exact refused (o := o) (by simp [formatT])

/-- In mode `FAULTED` an instruction keeps `STATUS` (R219). -/
theorem exec_faulted_status {i : Instr} {s t : State} (h : s.mode = .faulted) (he : exec i s = .next t) :
    t.status = s.status :=
  (he ▸ exec_faulted i h).status

/-- A presented command is some instruction, run after the event is taken (R81, R82). -/
theorem step_command {s : State} {c : CommandPorts} {rest : List HostEvent} (h : s.inbox = .command c :: rest) :
    ∃ i, step s = exec i (takeEvent rest true s) :=
  ⟨_, stepRunsPresentedCommand s c rest _ h (everyPresentedCommandIsSampled c s.params)⟩

/-- Settles O29: a presented command is some instruction, and in mode `FAULTED` each is refused. -/
theorem faultedModeRefusesEveryCommand : Obligations.FaultedModeRefusesEveryCommand := by
  intro s c rest hflt h
  have hm : s.mode = .faulted := (mode_eq_faulted s).2 hflt
  obtain ⟨i, hstep⟩ := step_command h
  obtain ⟨l, r, n, hexec⟩ := exec_faulted i (s := takeEvent rest true s) hm
  exact ⟨⟨l, r, n, hstep.trans hexec⟩, by simp [State.certifiable, hm]⟩

/-! ### The exit from mode `FAULTED` -/

/-- A step in mode `FAULTED` takes the `RESET` event or keeps the mode (R220). -/
theorem step_faulted {s t : State} (h : s.mode = .faulted) (he : step s = .next t) :
    (∃ rest, s.inbox = .reset :: rest) ∨ t.mode = .faulted := by
  have keep (hst : t.status = s.status) : t.mode = .faulted := (congrArg modeOf hst).trans h
  rcases step_cases s with ⟨-, e⟩ | ⟨rest, hin, -⟩ | ⟨p, v, rest, -, e⟩ | ⟨ty, rest, -, e⟩ | ⟨_, rest, i, -, -, e⟩
  · exact .inr (keep (by rw [Host.Outcome.next.inj (he.symm.trans e), takeEvent_status]))
  · exact .inl ⟨rest, hin⟩
  · exact .inr (keep (by rw [Host.Outcome.next.inj (he.symm.trans e), setParam_status, takeEvent_status]))
  · exact .inr (keep (by rw [Host.Outcome.next.inj (he.symm.trans e), setType_status, takeEvent_status]))
  · exact .inr (keep (exec_faulted_status (s := takeEvent rest true s) h (e.symm.trans he)))

/-- A valid `CFG` outside mode `FAULTED` leads to mode `READY` (R225). -/
theorem mode_configure (sr blk rate : Word) (n : ℕ) {s : State} (h : s.mode ≠ .faulted) :
    (configure sr blk rate n s).mode = .ready := by
  rw [mode_eq_ready, configure_status, statusFlt_withCfg, statusCfg_withCfg]
  exact ⟨statusFlt_eq_zero h, rfl⟩

/-- An invalid `CFG` outside mode `FAULTED` leads to mode `UNCONFIGURED` (R225). -/
theorem mode_reportInvalidSampleRate {s : State} (h : s.mode ≠ .faulted) :
    (reportInvalidSampleRate s).mode = .unconfigured := by
  rw [mode_eq_unconfigured, reportInvalidSampleRate_status, statusFlt_withCfg, statusCfg_withCfg]
  exact ⟨statusFlt_eq_zero h, rfl⟩

/-- Settles O30: the `RESET` event gives the reset state (O11), and a valid `CFG` is `configure`. -/
theorem onlyResetLeavesFaulted : Obligations.OnlyResetLeavesFaulted := by
  refine ⟨fun s t hm he hne => (step_faulted hm he).resolve_right hne, fun s rest h => ?_, ?_⟩
  · obtain ⟨t, he, hst, -, -, -, hmode, -⟩ := resetEventEffects s rest h
    exact ⟨t, he, hst, hmode⟩
  · intro s t tb sr blk rate n hm hn he
    obtain rfl := Host.Outcome.next.inj ((execCfg_some hm hn).symm.trans he)
    exact ⟨by rw [configure_status, statusErr_withCfg], mode_configure sr blk rate n hm⟩

/-! ### The table of modes -/

/-- The row of `CFG` (R225). -/
theorem exec_cfg_mode {tb : BitVec 2} {sr blk rate : Word} {s t : State} (he : exec (.cfg tb sr blk rate) s = .next t) :
    t.mode = if s.mode = .faulted then .faulted
      else if (bufferLength num sr).isSome = true then .ready else .unconfigured := by
  rw [exec_cfg] at he
  by_cases hm : s.mode = .faulted
  · rw [if_pos hm, ← Host.Outcome.next.inj ((execCfg_faulted hm).symm.trans he), hm]
  · rw [if_neg hm]
    cases hn : bufferLength num sr with
    | none =>
      rw [← Host.Outcome.next.inj ((execCfg_none hm hn).symm.trans he)]
      exact mode_reportInvalidSampleRate hm
    | some n =>
      rw [← Host.Outcome.next.inj ((execCfg_some hm hn).symm.trans he)]
      exact mode_configure sr blk rate n hm

/-- A raise with no cause recorded records its code (R216). -/
theorem statusFlt_raise (c : Cause) {s : State} (h : statusFlt s.status = 0) :
    statusFlt (raise c s).status = c.code := by
  rw [raise_status, if_pos h, statusFlt_withFault]

/-- An instruction that raises outside mode `FAULTED` records the code of its cause (R216). -/
theorem exec_raise_statusFlt {c : Cause} {i : Instr} {s t : State} (hm : s.mode ≠ .faulted)
    (e : exec i s = .next (raise c s)) (he : exec i s = .next t) : statusFlt t.status = c.code := by
  rw [← Host.Outcome.next.inj (e.symm.trans he), statusFlt_raise c (statusFlt_eq_zero hm)]

/-- A word of format `T` in mode `UNCONFIGURED` records `NotConfigured` (R213). -/
theorem formatT_unconfigured_statusFlt {o : TickOperands} {i : Instr} {s t : State} (hi : i ∈ formatT o)
    (hm : s.mode = .unconfigured) (he : exec i s = .next t) : statusFlt t.status = 3 :=
  exec_raise_statusFlt (by rw [hm]; decide) (exec_formatT_unconfigured hi hm) he

/-- A word of format `T` keeps the mode or leads to mode `FAULTED` (R225). -/
theorem formatT_mode {o : TickOperands} {i : Instr} {s t : State} (hi : i ∈ formatT o) (he : exec i s = .next t) :
    t.mode = s.mode ∨ t.mode = .faulted := by
  rcases formatT_status hi he with hst | ⟨-, k, f, hk, hst⟩
  · exact .inl (congrArg modeOf hst)
  · refine .inr ((mode_eq_faulted t).2 ?_)
    rw [hst, statusFlt_withFault]
    rcases hk with rfl | rfl | rfl <;> decide

/-- Settles O31: the modes are conditions on `STATUS`, and each command writes `STATUS` as its row says. -/
theorem modeTable : Obligations.ModeTable := by
  intro s t tb sr blk rate o rest
  refine ⟨mode_eq_unconfigured s, mode_eq_ready s, mode_eq_faulted s, fun he => ?_, exec_cfg_mode, fun i hi he => ?_,
    fun h he => ?_⟩
  · rw [Host.Outcome.next.inj he]
  · have hT : i ∈ formatT o := mem_formatT.2 (.inl hi)
    refine ⟨fun hm => ?_, fun hm => hm ▸ formatT_mode hT he, fun hm => ?_⟩
    · have hflt := formatT_unconfigured_statusFlt hT hm he
      exact ⟨(mode_eq_faulted t).2 (by rw [hflt]; decide), hflt⟩
    · exact (formatT_mode hT he).elim (·.trans hm) id
  · obtain ⟨u, hu, -, -, -, -, hmode, -⟩ := resetEventEffects s rest h
    exact Host.Outcome.next.inj (hu.symm.trans he) ▸ hmode

/-! ### What an underflow commits, and the cause of each command -/

/-- A tick whose times are given is admission and the shared steps with their time function. -/
theorem exec_tick_timed {o : TickOperands} {i : Instr} {s : State} {tm : Timed} (hi : i ∈ tickForms o)
    (htm : timedOf s i = some tm) :
    ∃ times, IsTimes times ∧ times o s = tm ∧ exec i s = admitTick (tickSteps times o) s := by
  obtain ⟨times, ht, htimed, he⟩ := exec_tickForms o hi
  exact ⟨times, ht, Option.some.inj ((htimed s).symm.trans htm), he s⟩

/-- Settles O21: the cause is raised in the state at the end of step 3. -/
theorem underflowCommitsStepsOneToThree : Obligations.UnderflowCommitsStepsOneToThree := by
  intro o i s tm fch hi hm hw htm hslots
  obtain ⟨times, ht, rfl, he⟩ := exec_tick_timed hi htm
  have hflt : statusFlt (readState o s (times o s).s.sm (times o s).s.ph).status = 0 := ((mode_eq_ready s).1 hm).1
  rw [he]
  rcases hslots with ⟨hL, rfl⟩ | ⟨hL, hR, rfl⟩
  · rw [tick_left_none ht hm hw hL]
    exact raise_first_nextButOutputs (.bufferUnderflow .left) hflt
  · obtain ⟨slL, hL⟩ := Option.ne_none_iff_exists'.1 hL
    rw [tick_right_none ht hm hw hL hR]
    exact raise_first_nextButOutputs (.bufferUnderflow .right) hflt

/-- A tick with slots on both sides keeps `STATUS` (R108). -/
theorem exec_tick_some_status {o : TickOperands} {i : Instr} {s t : State} {tm : Timed} (hi : i ∈ tickForms o)
    (hm : s.mode = .ready) (htm : timedOf s i = some tm) (he : exec i s = .next t)
    (hL : slotsInTick s tm.dL ≠ none) (hR : slotsInTick s tm.dR ≠ none) : t.status = s.status := by
  obtain ⟨hw, -⟩ := tick_next hi hm he
  obtain ⟨times, ht, rfl, hx⟩ := exec_tick_timed hi htm
  obtain ⟨slL, hL⟩ := Option.ne_none_iff_exists'.1 hL
  obtain ⟨slR, hR⟩ := Option.ne_none_iff_exists'.1 hR
  rw [hx, tick_some ht hm hw hL hR] at he
  rw [← Host.Outcome.next.inj he, finishTick, mixAndEmit_status, readState]

/-- A tick without slots records `BufferUnderflow` with the channel of the first lane that has none (R212, R217). -/
theorem exec_tick_underflow_status {o : TickOperands} {i : Instr} {s t : State} {tm : Timed} {fch : Bool}
    (hi : i ∈ tickForms o) (hm : s.mode = .ready) (htm : timedOf s i = some tm) (he : exec i s = .next t)
    (hslots : slotsInTick s tm.dL = none ∧ fch = false ∨
      slotsInTick s tm.dL ≠ none ∧ slotsInTick s tm.dR = none ∧ fch = true) :
    statusFlt t.status = 2 ∧ statusFch t.status = fch := by
  obtain ⟨hw, -⟩ := tick_next hi hm he
  have hnext := underflowCommitsStepsOneToThree o i s tm fch hi hm hw htm hslots
  rw [he] at hnext
  rw [hnext.status]
  exact ⟨statusFlt_withFault .., statusFch_withFault ..⟩

/-- Settles O32: the modes come first, then the reserved codes, then the slots of the left and of the right lane. -/
theorem causePriority : Obligations.CausePriority := by
  intro s t i o he
  refine ⟨fun hm => exec_faulted_status hm he, ?_, fun hm hi => formatT_unconfigured_statusFlt hi hm he, ?_, ?_, ?_⟩
  · rintro hm ⟨tb, rfl⟩
    exact exec_raise_statusFlt (i := .reservedCmdOp3 tb) hm (execReservedCmdOp3_of_ne hm) he
  · rintro hm rfl
    exact exec_raise_statusFlt (by rw [hm]; decide) (exec_reservedTickType3_ready hm) he
  · intro hm hi tm htm
    exact ⟨fun hL => exec_tick_underflow_status hi hm htm he (.inl ⟨hL, rfl⟩),
      fun hL hR => exec_tick_underflow_status hi hm htm he (.inr ⟨hL, hR, rfl⟩),
      exec_tick_some_status hi hm htm he⟩
  · rintro hm ⟨tb, sr, blk, rate, rfl⟩
    have hmode : t.mode ≠ .faulted := by
      rw [exec_cfg_mode he, if_neg hm]
      split <;> decide
    exact statusFlt_eq_zero hmode

end Sys2Proof.Machine
end

section
/-! SUPPORT. Proof of the ends of the dry/wet mix in binary32: for finite samples the mix is the interpolation from the dry to
the wet sample, whose ends are exact. -/

namespace Sys2Proof.Machine

/-- A product of finite words does not depend on their order (R13); of others it may, in the pattern of a NaN (log 1). -/
theorem f32Mul_comm_of_finite {a b : Word} (ha : f32IsFinite a = true) (hb : f32IsFinite b = true) :
    f32Mul a b = f32Mul b a := by
  have hfa := f32IsFinite_flush ha
  have hfb := f32IsFinite_flush hb
  rw [f32Mul, f32Mul, f32Product_of_finite _ _ hfa hfb, f32Product_of_finite _ _ hfb hfa, bne_comm, Nat.mul_comm]

/-- With finite samples and weights the mix is the interpolation with weight `dryWet`, to the pattern (R123, R182). -/
theorem mix_num_eq_lerp {input wet dryWet : Word} (hin : f32IsFinite input = true) (hwet : f32IsFinite wet = true)
    (hdry : f32IsFinite (f32Sub 0x3F800000 dryWet) = true) (hdw : f32IsFinite dryWet = true) :
    mix num input wet dryWet = lerp num input wet dryWet := by
  rw [mix, lerp, num_fadd, num_fmul, num_fsub, num_one, f32Mul_comm_of_finite hin hdry,
    f32Mul_comm_of_finite hwet hdw]

/-- Settles O48: the mix is the interpolation from the input to the wet sample, and the ends of that are exact. -/
theorem dryAndWetIdentities : Obligations.DryAndWetIdentities := by
  intro input wet hin hwet nin nwet
  have hdry : mix num input wet 0 = lerp num input wet 0 :=
    mix_num_eq_lerp hin hwet (by rw [f32Sub_one_zero]; decide) (by decide)
  have hwetOnly : mix num input wet 0x3F800000 = lerp num input wet 0x3F800000 :=
    mix_num_eq_lerp hin hwet (by rw [f32Sub_one_one]; decide) (by decide)
  rw [hdry, hwetOnly]
  exact lerpEndpoints input wet hin hwet nin nwet

end Sys2Proof.Machine
end
